-- ==== Sys2Proof/Word.lean ====
section
/-! DEFINITION. The word types of the block: bytes and 16-bit host addresses. A tact value or a tact count is an unbounded
natural (00_scope R16, 60_exceptions R446; log 9), written `Nat` where it stands. -/

namespace Sys2Proof

/-- `u8` of spec 00_scope R16. -/
abbrev Byte := BitVec 8

/-- `u16` of spec 00_scope R16: a host memory address, a host register pair, a pause. -/
abbrev Addr := BitVec 16

end Sys2Proof
end

