-- ==== Sys2Proof/Config.lean ====
section
/-! DEFINITION. What is fixed while operations run: the tape constants the source fixes (00_scope R13), the
records of the open parameters (R10, R12, R14, R15) with their defaults, and the one free value. -/

namespace Sys2Proof

/-- The geometry record of `VID.BUILD`: the thirteen parameters of 00_scope R10 and the four of R12 that
10_state R23 puts with them. Every field is a natural, so that an invalid geometry can be named. -/
structure Geometry where
  vsyncLines : Nat
  nvTopLines : Nat
  borderTopLines : Nat
  displayLines : Nat
  borderBottomLines : Nat
  nvBottomLines : Nat
  borderLeftT : Nat
  displayT : Nat
  borderRightT : Nat
  nvRightT : Nat
  hblankT : Nat
  pixelPrefetchT : Nat
  attrPrefetchT : Nat
  screenBase : Nat
  attrBase : Nat
  contentionPattern : List Nat
  contentionLeadT : Nat
deriving DecidableEq, Repr

/-- `PRESET_48K` with the default bases and contention values (R10, R12). -/
def Geometry.preset48K : Geometry where
  vsyncLines := 8
  nvTopLines := 8
  borderTopLines := 48
  displayLines := 192
  borderBottomLines := 48
  nvBottomLines := 8
  borderLeftT := 24
  displayT := 128
  borderRightT := 24
  nvRightT := 8
  hblankT := 40
  pixelPrefetchT := 2
  attrPrefetchT := 1
  screenBase := 0x4000
  attrBase := 0x5800
  contentionPattern := [6, 5, 4, 3, 2, 1, 0, 0]
  contentionLeadT := 1

/-- An 8-bit register of the host's Z80 that may hold the expected block type (`FAST_LOAD_TYPE_REG`, R14).
PRESUMED (log 19): the spec names only `A'`; the other names are the Z80's. -/
inductive HostReg8 where
  | a | aAlt | b | c | d | e | h | l
deriving DecidableEq, Repr

/-- One entry of the parameter function `FDC_RW_STATUS` (46_fdc_commands R345). `x0` stands for ST0 bits 7:3,
the only ones the parameter may set. -/
structure RwStatusEntry where
  head : BitVec 1
  sector : Byte
  x0 : BitVec 5
  s1 : Byte
  s2 : Byte
deriving DecidableEq, Repr

/-- The open parameters (92_eei_decisions, head list; 00_scope R10 to R15), chosen before the block is
constructed (70 R470(1)) and fixed for one machine (log 17). -/
structure Params where
  /-- The construction-time geometry (10_state R23). -/
  geometry : Geometry
  flashToggleFrames : Nat
  saveBufferCapacity : Nat
  savePauseMs : BitVec 16
  loadHook : Addr
  saveHook : Addr
  errorHook : Addr
  loadResume : Addr
  loadMismatch : Addr
  fastLoadEnabled : Bool
  fastLoadTypeReg : HostReg8
  /-- ST0 bits 7:3 of SenseInterruptStatus (R352). -/
  fdcSisSt0High : BitVec 5
  /-- ST3 bits 7, 6, 5, 3 (R349); bits 4, 2, 1, 0 are clear. -/
  fdcSt3Flags : Byte
  /-- `FDC_RW_STATUS` by its entries that differ from (0, 0, 0) (R345). -/
  fdcRwStatus : List RwStatusEntry
deriving DecidableEq, Repr

/-- The defaults of 00_scope R10, R12, R14, R15. -/
def Params.default : Params where
  geometry := Geometry.preset48K
  flashToggleFrames := 25
  saveBufferCapacity := 65536
  savePauseMs := 1000
  loadHook := 0x056C
  saveHook := 0x04C2
  errorHook := 0x0008
  loadResume := 0x05E2
  loadMismatch := 0x05B6
  fastLoadEnabled := false
  fastLoadTypeReg := .aAlt
  fdcSisSt0High := 0
  fdcSt3Flags := 0x28
  fdcRwStatus := []

/-- `CLOCK_HZ` (R12): tacts per second; only the default of `flashToggleFrames` is derived from it (R187). -/
def clockHz : Nat := 3500000

/-! ### Tape constants (R13) -/

/-- `PILOT_PL`. -/
def pilotPl : Nat := 2168
/-- `HEADER_PILOT_COUNT`. -/
def headerPilotCount : Nat := 8063
/-- `DATA_PILOT_COUNT`. -/
def dataPilotCount : Nat := 3223
/-- `SYNC_1_PL`. -/
def sync1Pl : Nat := 667
/-- `SYNC_2_PL`. -/
def sync2Pl : Nat := 735
/-- `BIT_0_PL`. -/
def bit0Pl : Nat := 855
/-- `BIT_1_PL`. -/
def bit1Pl : Nat := 1710
/-- `TERM_SYNC`. -/
def termSyncPl : Nat := 947
/-- `PAUSE_MS`: tacts per millisecond of pause. -/
def pauseMs : Nat := 3500
/-- `SAVE_PULSE_TOLERANCE`. -/
def savePulseTolerance : Nat := 24
/-- `MIN_PILOT_PULSE_COUNT`. -/
def minPilotPulseCount : Nat := 3000
/-- `SAVE_INACTIVITY_T`. -/
def saveInactivityT : Nat := 17500000

/-! ### The free value -/

/-- FREE VALUE (log 10): what the 16-bit `x` or `y` field of a descriptor holds when the exact coordinate
(its argument) does not fit in `u16`. 40_video_timing R144 gives the coordinate, 10_state R24 the field's width;
the spec states no result where the two part. It has no body, so nothing can be proved about its value. -/
opaque Config.coordBeyondU16 : Nat → BitVec 16

end Sys2Proof
end

