-- ==== Sys2Proof/Syntax.lean ====
section
/-! DEFINITION. The instructions: one constructor per row of spec/opcode_table.json (23 host operations of
30_encoding R100, 10 FDC commands of R105), and the two formats their words have. -/

namespace Sys2Proof

/-- The format of a word of spec/opcode_table.json: a host operation (R100: a 5-bit selector, then arguments) or an
FDC command sequence (R104, R130: a command byte, then parameter bytes). -/
inductive Format where
  | op
  | fdc
deriving DecidableEq, Repr

/-- The `FloppyCommand` enumeration (10_state R40). -/
inductive FloppyCommand where
  | specify | senseDriveStatus | recalibrate | senseInterruptStatus | seek
  | readId | readData | formatTrack | writeData | none
deriving DecidableEq, Repr

/-- The eight parameter bytes of ReadData and WriteData (R108): HD/US, C, H, R, N, EOT, GPL, DTL. -/
structure RwParams where
  hdUs : Byte
  c : Byte
  h : Byte
  r : Byte
  n : Byte
  eot : Byte
  gpl : Byte
  dtl : Byte
deriving DecidableEq, Repr

/-- The parameter bytes in the order they are written (R108). -/
def RwParams.toBytes (p : RwParams) : List Byte := [p.hdUs, p.c, p.h, p.r, p.n, p.eot, p.gpl, p.dtl]

/-- The five parameter bytes of FormatTrack (R108): HD/US, N, SC, GPL, D. -/
structure FormatParams where
  hdUs : Byte
  n : Byte
  sc : Byte
  gpl : Byte
  d : Byte
deriving DecidableEq, Repr

/-- The parameter bytes in the order they are written (R108). -/
def FormatParams.toBytes (p : FormatParams) : List Byte := [p.hdUs, p.n, p.sc, p.gpl, p.d]

/-- The instructions. The FDC command constructors carry the command-byte bits their row's mask ignores. -/
inductive Instr where
  | vidReset
  | vidBuild (g : Geometry)
  | vidRender (fromTact toTact : Nat)
  | vidNewframe
  | vidContend (tact : Nat)
  | tapeReset
  | tapeSetmode (pc : Addr) (tact : Nat)
  | tapeEnterload (tact : Nat)
  | tapeLeaveload
  | tapeEntersave (tact : Nat)
  | tapeLeavesave
  | tapeInitplay (startTact : Nat)
  | tapeEar (tact : Nat)
  | tapeMic (tact : Nat) (value : Bool)
  | tapeFastload (tact : Nat)
  | fdcReset
  | fdcWrite (byte : Byte)
  | fdcRead
  | fdcStatus
  | dskCreate
  | dskOpen (image : List Byte)
  | dskRead (head track sector length : Nat)
  | dskWrite (head track sector : Nat) (data : List Byte)
  | fdcSpecify (p0 p1 : Byte)
  | fdcSenseDriveStatus (p0 : Byte)
  | fdcRecalibrate (p0 : Byte)
  | fdcSenseInterruptStatus
  | fdcSeek (p0 p1 : Byte)
  /-- `b6` is the ignored bit 6 of the command byte. -/
  | fdcReadId (b6 : BitVec 1) (p0 : Byte)
  /-- `hi` is the ignored bits 7:5. -/
  | fdcReadData (hi : BitVec 3) (p : RwParams)
  /-- `b6` and `b1` are the ignored bits 6 and 1; not (0, 1), which is Seek's byte 0x0F (R106). -/
  | fdcFormatTrack (b6 b1 : BitVec 1) (p : FormatParams)
  /-- `hi` is the ignored bits 7:6. -/
  | fdcWriteData (hi : BitVec 2) (p : RwParams)
  /-- `b` is a byte that no other row matches. -/
  | fdcNone (b : Byte)
deriving DecidableEq, Repr

/-- The format of an instruction's words. -/
def Instr.format : Instr → Format
  | .vidReset | .vidBuild _ | .vidRender _ _ | .vidNewframe | .vidContend _
  | .tapeReset | .tapeSetmode _ _ | .tapeEnterload _ | .tapeLeaveload | .tapeEntersave _ | .tapeLeavesave
  | .tapeInitplay _ | .tapeEar _ | .tapeMic _ _ | .tapeFastload _
  | .fdcReset | .fdcWrite _ | .fdcRead | .fdcStatus
  | .dskCreate | .dskOpen _ | .dskRead _ _ _ _ | .dskWrite _ _ _ _ => .op
  | .fdcSpecify _ _ | .fdcSenseDriveStatus _ | .fdcRecalibrate _ | .fdcSenseInterruptStatus | .fdcSeek _ _
  | .fdcReadId _ _ | .fdcReadData _ _ | .fdcFormatTrack _ _ _ | .fdcWriteData _ _ | .fdcNone _ => .fdc

end Sys2Proof
end

