-- ==== Sys2Proof/WellFormed.lean ====
section
/-! DEFINITION. Which terms of `Instr` are well-formed: those whose arguments lie in their declared types (30_encoding
R100, 60_exceptions R426) and whose ignored command-byte bits do not make another row's byte (R105, R106). -/

namespace Sys2Proof

/-- The naturals that an argument of an invocation may have: `u64` (R100). -/
def u64Limit : Nat := 2 ^ 64

/-- The argument is a `u64` (R100, R446). -/
def isU64 (n : Nat) : Bool := decide (n < u64Limit)

/-- Every parameter of the record is a `u64`, and so is the number of pattern entries: the record can be passed.
(That the geometry is VALID is no condition here: an invalid one is an instruction with an error, R149.) -/
def Geometry.wellFormed (g : Geometry) : Bool :=
  isU64 g.vsyncLines && isU64 g.nvTopLines && isU64 g.borderTopLines && isU64 g.displayLines &&
  isU64 g.borderBottomLines && isU64 g.nvBottomLines && isU64 g.borderLeftT && isU64 g.displayT &&
  isU64 g.borderRightT && isU64 g.nvRightT && isU64 g.hblankT && isU64 g.pixelPrefetchT && isU64 g.attrPrefetchT &&
  isU64 g.screenBase && isU64 g.attrBase && isU64 g.contentionLeadT &&
  isU64 g.contentionPattern.length && g.contentionPattern.all isU64

/-- No row of priorities 1 to 9 of R105 matches `b`. -/
def matchesNoFdcRow (b : Byte) : Bool :=
  b != 0x03 && b != 0x04 && b != 0x07 && b != 0x08 && b != 0x0F &&
  b &&& 0xBF != 0x0A && b &&& 0x1F != 0x06 && b &&& 0xBD != 0x0D && b &&& 0x3F != 0x05

/-- Well-formedness of an instruction. -/
def Instr.wellFormed : Instr → Bool
  | .vidReset => true
  | .vidBuild g => g.wellFormed
  | .vidRender a b => isU64 a && isU64 b
  | .vidNewframe => true
  | .vidContend t => isU64 t
  | .tapeReset => true
  | .tapeSetmode _ t => isU64 t
  | .tapeEnterload t => isU64 t
  | .tapeLeaveload => true
  | .tapeEntersave t => isU64 t
  | .tapeLeavesave => true
  | .tapeInitplay t => isU64 t
  | .tapeEar t => isU64 t
  | .tapeMic t _ => isU64 t
  | .tapeFastload t => isU64 t
  | .fdcReset => true
  | .fdcWrite _ => true
  | .fdcRead => true
  | .fdcStatus => true
  | .dskCreate => true
  | .dskOpen image => isU64 image.length
  | .dskRead h t s n => isU64 h && isU64 t && isU64 s && isU64 n
  | .dskWrite h t s data => isU64 h && isU64 t && isU64 s && isU64 data.length
  | .fdcSpecify _ _ => true
  | .fdcSenseDriveStatus _ => true
  | .fdcRecalibrate _ => true
  | .fdcSenseInterruptStatus => true
  | .fdcSeek _ _ => true
  | .fdcReadId _ _ => true
  | .fdcReadData _ _ => true
  | .fdcFormatTrack b6 b1 _ => !(b6 == 0 && b1 == 1)
  | .fdcWriteData _ _ => true
  | .fdcNone b => matchesNoFdcRow b

end Sys2Proof
end

