-- ==== Sys2Proof/Decode.lean ====
section
/-! DEFINITION. The decoder, total on any bytes and rejecting by name, and after it the encoder, both from
30_encoding R100 (selectors), R104 to R106 (FDC command bytes), R108 (parameter bytes). The layout of a host
operation's arguments in bytes is the model's (log 2): the spec leaves the arguments abstract. -/

namespace Sys2Proof

/-- Why bytes are no instruction. -/
inductive DecodeError where
  /-- No byte is left. -/
  | noBytes
  /-- The selector byte is none of the 23 of R100 (R128(c), R426). -/
  | unassignedSelector (b : Byte)
  /-- The bytes end inside an instruction. -/
  | truncated
  /-- A `bool` argument that is neither 0 nor 1 (R426). -/
  | notBool (b : Byte)
deriving DecidableEq, Repr

/-- `k` bytes as a natural, least significant byte first (log 2). -/
def readNat : Nat → List Byte → Except DecodeError (Nat × List Byte)
  | 0, bs => .ok (0, bs)
  | _ + 1, [] => .error .truncated
  | k + 1, b :: bs =>
    match readNat k bs with
    | .ok (n, r) => .ok (b.toNat + 256 * n, r)
    | .error e => .error e

/-- A `u64`. -/
def readU64 (bs : List Byte) : Except DecodeError (Nat × List Byte) := readNat 8 bs

/-- A `u8`. -/
def readByte : List Byte → Except DecodeError (Byte × List Byte)
  | [] => .error .truncated
  | b :: bs => .ok (b, bs)

/-- A `u16`: two bytes, the less significant first (log 2). -/
def readU16 : List Byte → Except DecodeError (Addr × List Byte)
  | lo :: hi :: bs => .ok (hi ++ lo, bs)
  | _ => .error .truncated

/-- A `bool`: one byte that is 0 or 1. -/
def readBool : List Byte → Except DecodeError (Bool × List Byte)
  | [] => .error .truncated
  | b :: bs => if b = 0 then .ok (false, bs) else if b = 1 then .ok (true, bs) else .error (.notBool b)

/-- Exactly `n` bytes. -/
def readExactly : Nat → List Byte → Except DecodeError (List Byte × List Byte)
  | 0, bs => .ok ([], bs)
  | _ + 1, [] => .error .truncated
  | n + 1, b :: bs =>
    match readExactly n bs with
    | .ok (taken, r) => .ok (b :: taken, r)
    | .error e => .error e

/-- `byte[]`: a `u64` count and then that many bytes (log 2). -/
def readBytes (bs : List Byte) : Except DecodeError (List Byte × List Byte) := do
  let (n, r) ← readU64 bs
  readExactly n r

/-- `k` numbers of eight bytes each. -/
def readU64s : Nat → List Byte → Except DecodeError (List Nat × List Byte)
  | 0, bs => .ok ([], bs)
  | k + 1, bs => do
    let (n, r) ← readU64 bs
    let (ns, r) ← readU64s k r
    .ok (n :: ns, r)

/-- A counted list of numbers (log 2). -/
def readPattern (bs : List Byte) : Except DecodeError (List Nat × List Byte) := do
  let (n, r) ← readU64 bs
  readU64s n r

/-- The sixteen numbers of a geometry record, in the order of 00_scope R10, then R12 (log 2). -/
def Geometry.numbers (g : Geometry) : List Nat :=
  [g.vsyncLines, g.nvTopLines, g.borderTopLines, g.displayLines, g.borderBottomLines, g.nvBottomLines, g.borderLeftT,
    g.displayT, g.borderRightT, g.nvRightT, g.hblankT, g.pixelPrefetchT, g.attrPrefetchT, g.screenBase, g.attrBase,
    g.contentionLeadT]

/-- The geometry record of sixteen numbers and a contention pattern. -/
def Geometry.ofNumbers (pattern : List Nat) : List Nat → Option Geometry
  | [vsyncLines, nvTopLines, borderTopLines, displayLines, borderBottomLines, nvBottomLines, borderLeftT, displayT,
      borderRightT, nvRightT, hblankT, pixelPrefetchT, attrPrefetchT, screenBase, attrBase, contentionLeadT] =>
    some ⟨vsyncLines, nvTopLines, borderTopLines, displayLines, borderBottomLines, nvBottomLines, borderLeftT, displayT,
      borderRightT, nvRightT, hblankT, pixelPrefetchT, attrPrefetchT, screenBase, attrBase, pattern, contentionLeadT⟩
  | _ => none

/-- The geometry record: its numbers, then the counted pattern (log 2). -/
def readGeometry (bs : List Byte) : Except DecodeError (Geometry × List Byte) := do
  let (ns, r) ← readU64s 16 bs
  let (pattern, r) ← readPattern r
  match Geometry.ofNumbers pattern ns with
  | some g => .ok (g, r)
  | none => .error .truncated

/-- A host operation by its selector (R100) and its arguments. -/
def decodeSelector (sel : Byte) (bs : List Byte) : Except DecodeError (Instr × List Byte) :=
  match sel.toNat with
  | 0x00 => .ok (.vidReset, bs)
  | 0x01 => do
    let (g, r) ← readGeometry bs
    .ok (.vidBuild g, r)
  | 0x02 => do
    let (a, r) ← readU64 bs
    let (b, r) ← readU64 r
    .ok (.vidRender a b, r)
  | 0x03 => .ok (.vidNewframe, bs)
  | 0x04 => do
    let (t, r) ← readU64 bs
    .ok (.vidContend t, r)
  | 0x08 => .ok (.tapeReset, bs)
  | 0x09 => do
    let (pc, r) ← readU16 bs
    let (t, r) ← readU64 r
    .ok (.tapeSetmode pc t, r)
  | 0x0A => do
    let (t, r) ← readU64 bs
    .ok (.tapeEnterload t, r)
  | 0x0B => .ok (.tapeLeaveload, bs)
  | 0x0C => do
    let (t, r) ← readU64 bs
    .ok (.tapeEntersave t, r)
  | 0x0D => .ok (.tapeLeavesave, bs)
  | 0x0E => do
    let (t, r) ← readU64 bs
    .ok (.tapeInitplay t, r)
  | 0x0F => do
    let (t, r) ← readU64 bs
    .ok (.tapeEar t, r)
  | 0x10 => do
    let (t, r) ← readU64 bs
    let (v, r) ← readBool r
    .ok (.tapeMic t v, r)
  | 0x11 => do
    let (t, r) ← readU64 bs
    .ok (.tapeFastload t, r)
  | 0x18 => .ok (.fdcReset, bs)
  | 0x19 => do
    let (b, r) ← readByte bs
    .ok (.fdcWrite b, r)
  | 0x1A => .ok (.fdcRead, bs)
  | 0x1B => .ok (.fdcStatus, bs)
  | 0x1C => .ok (.dskCreate, bs)
  | 0x1D => do
    let (image, r) ← readBytes bs
    .ok (.dskOpen image, r)
  | 0x1E => do
    let (h, r) ← readU64 bs
    let (t, r) ← readU64 r
    let (s, r) ← readU64 r
    let (n, r) ← readU64 r
    .ok (.dskRead h t s n, r)
  | 0x1F => do
    let (h, r) ← readU64 bs
    let (t, r) ← readU64 r
    let (s, r) ← readU64 r
    let (data, r) ← readBytes r
    .ok (.dskWrite h t s data, r)
  | _ => .error (.unassignedSelector sel)

/-! ### FDC command bytes -/

/-- The priority-ordered decode of a command byte with its row's parameter count (R105; first match wins). -/
def fdcDecode (b : Byte) : FloppyCommand × Nat :=
  if b = 0x03 then (.specify, 2)
  else if b = 0x04 then (.senseDriveStatus, 1)
  else if b = 0x07 then (.recalibrate, 1)
  else if b = 0x08 then (.senseInterruptStatus, 0)
  else if b = 0x0F then (.seek, 2)
  else if b &&& 0xBF = 0x0A then (.readId, 1)
  else if b &&& 0x1F = 0x06 then (.readData, 8)
  else if b &&& 0xBD = 0x0D then (.formatTrack, 5)
  else if b &&& 0x3F = 0x05 then (.writeData, 8)
  else (.none, 0)

/-- `ParamCount` of R308: the last column of R105. -/
def FloppyCommand.paramCount : FloppyCommand → Nat
  | .specify => 2
  | .senseDriveStatus => 1
  | .recalibrate => 1
  | .senseInterruptStatus => 0
  | .seek => 2
  | .readId => 1
  | .readData => 8
  | .formatTrack => 5
  | .writeData => 8
  | .none => 0

/-- The eight parameter bytes of ReadData and WriteData (R108). -/
def readRwParams : List Byte → Except DecodeError (RwParams × List Byte)
  | hdUs :: c :: h :: r :: n :: eot :: gpl :: dtl :: bs => .ok (⟨hdUs, c, h, r, n, eot, gpl, dtl⟩, bs)
  | _ => .error .truncated

/-- The five parameter bytes of FormatTrack (R108). -/
def readFormatParams : List Byte → Except DecodeError (FormatParams × List Byte)
  | hdUs :: n :: sc :: gpl :: d :: bs => .ok (⟨hdUs, n, sc, gpl, d⟩, bs)
  | _ => .error .truncated

/-- An FDC command by its command byte and its parameter bytes (R104, R108, R130). -/
def decodeCommand (b : Byte) (bs : List Byte) : Except DecodeError (Instr × List Byte) :=
  match (fdcDecode b).1 with
  | .specify => do
    let (p0, r) ← readByte bs
    let (p1, r) ← readByte r
    .ok (.fdcSpecify p0 p1, r)
  | .senseDriveStatus => do
    let (p0, r) ← readByte bs
    .ok (.fdcSenseDriveStatus p0, r)
  | .recalibrate => do
    let (p0, r) ← readByte bs
    .ok (.fdcRecalibrate p0, r)
  | .senseInterruptStatus => .ok (.fdcSenseInterruptStatus, bs)
  | .seek => do
    let (p0, r) ← readByte bs
    let (p1, r) ← readByte r
    .ok (.fdcSeek p0 p1, r)
  | .readId => do
    let (p0, r) ← readByte bs
    .ok (.fdcReadId (b.extractLsb' 6 1) p0, r)
  | .readData => do
    let (p, r) ← readRwParams bs
    .ok (.fdcReadData (b.extractLsb' 5 3) p, r)
  | .formatTrack => do
    let (p, r) ← readFormatParams bs
    .ok (.fdcFormatTrack (b.extractLsb' 6 1) (b.extractLsb' 1 1) p, r)
  | .writeData => do
    let (p, r) ← readRwParams bs
    .ok (.fdcWriteData (b.extractLsb' 6 2) p, r)
  | .none => .ok (.fdcNone b, bs)

/-- The decoder: the instruction at the front of `bs`, read in format `f`, and the bytes after it. -/
def decode (f : Format) : List Byte → Except DecodeError (Instr × List Byte)
  | [] => .error .noBytes
  | b :: bs =>
    match f with
    | .op => decodeSelector b bs
    | .fdc => decodeCommand b bs

/-! ### The encoder -/

/-- A natural in `k` bytes, least significant first (log 2). -/
def natBytes : Nat → Nat → List Byte
  | 0, _ => []
  | k + 1, n => BitVec.ofNat 8 n :: natBytes k (n / 256)

/-- A `u64` in eight bytes. -/
def u64Bytes (n : Nat) : List Byte := natBytes 8 n

/-- A `u16` in two bytes, the less significant first (log 2). -/
def u16Bytes (a : Addr) : List Byte := [a.extractLsb' 0 8, a.extractLsb' 8 8]

/-- A `bool` in one byte. -/
def boolByte (v : Bool) : Byte := if v then 1 else 0

/-- A counted byte sequence. -/
def countedBytes (bs : List Byte) : List Byte := u64Bytes bs.length ++ bs

/-- The bytes of a geometry record. -/
def Geometry.bytes (g : Geometry) : List Byte :=
  g.numbers.flatMap u64Bytes ++ (u64Bytes g.contentionPattern.length ++ g.contentionPattern.flatMap u64Bytes)

/-- ReadId's command byte 0x001010 with its ignored bit 6 (R105 row 6). -/
def readIdByte (b6 : BitVec 1) : Byte := 0#1 ++ b6 ++ 0b001010#6
/-- ReadData's command byte xxx00110 with its ignored bits 7:5 (R105 row 7). -/
def readDataByte (hi : BitVec 3) : Byte := hi ++ 0b00110#5
/-- FormatTrack's command byte 0x0011x1 with its ignored bits 6 and 1 (R105 row 8). -/
def formatTrackByte (b6 b1 : BitVec 1) : Byte := 0#1 ++ b6 ++ 0b0011#4 ++ b1 ++ 1#1
/-- WriteData's command byte xx000101 with its ignored bits 7:6 (R105 row 9). -/
def writeDataByte (hi : BitVec 2) : Byte := hi ++ 0b000101#6

/-- The words of an instruction: the selector byte and the arguments (R100), or the command byte and the
parameter bytes (R105, R108). -/
def encode : Instr → List Byte
  | .vidReset => [0x00]
  | .vidBuild g => 0x01 :: g.bytes
  | .vidRender a b => 0x02 :: (u64Bytes a ++ u64Bytes b)
  | .vidNewframe => [0x03]
  | .vidContend t => 0x04 :: u64Bytes t
  | .tapeReset => [0x08]
  | .tapeSetmode pc t => 0x09 :: (u16Bytes pc ++ u64Bytes t)
  | .tapeEnterload t => 0x0A :: u64Bytes t
  | .tapeLeaveload => [0x0B]
  | .tapeEntersave t => 0x0C :: u64Bytes t
  | .tapeLeavesave => [0x0D]
  | .tapeInitplay t => 0x0E :: u64Bytes t
  | .tapeEar t => 0x0F :: u64Bytes t
  | .tapeMic t v => 0x10 :: (u64Bytes t ++ [boolByte v])
  | .tapeFastload t => 0x11 :: u64Bytes t
  | .fdcReset => [0x18]
  | .fdcWrite b => [0x19, b]
  | .fdcRead => [0x1A]
  | .fdcStatus => [0x1B]
  | .dskCreate => [0x1C]
  | .dskOpen image => 0x1D :: countedBytes image
  | .dskRead h t s n => 0x1E :: (u64Bytes h ++ u64Bytes t ++ u64Bytes s ++ u64Bytes n)
  | .dskWrite h t s data => 0x1F :: (u64Bytes h ++ u64Bytes t ++ u64Bytes s ++ countedBytes data)
  | .fdcSpecify p0 p1 => [0x03, p0, p1]
  | .fdcSenseDriveStatus p0 => [0x04, p0]
  | .fdcRecalibrate p0 => [0x07, p0]
  | .fdcSenseInterruptStatus => [0x08]
  | .fdcSeek p0 p1 => [0x0F, p0, p1]
  | .fdcReadId b6 p0 => [readIdByte b6, p0]
  | .fdcReadData hi p => readDataByte hi :: p.toBytes
  | .fdcFormatTrack b6 b1 p => formatTrackByte b6 b1 :: p.toBytes
  | .fdcWriteData hi p => writeDataByte hi :: p.toBytes
  | .fdcNone b => [b]

/-! ### Words of spec/opcode_table.json -/

/-- Zero bytes behind a table word: more than any instruction of fixed length has. -/
def zeroPad : List Byte := List.replicate 192 0

/-- A table word of `nbits` bits as bytes, the first byte holding bits 7..0, with zero bytes above it. -/
def tableBytes (nbits w : Nat) : List Byte := natBytes ((nbits + 7) / 8) w ++ zeroPad

/-- Which of the table's two formats a word is read in (log 3). Both number their words in the same eight bits
(0x03 is VID.NEWFRAME and Specify), so a word of at most eight bits is a host operation where R100 assigns its
selector, and an FDC command byte otherwise; every row the table gives more than eight bits is an FDC row. -/
def tableFormat (nbits w : Nat) : Format :=
  if nbits ≤ 8 then
    match decode .op (tableBytes nbits w) with
    | .ok _ => .op
    | .error _ => .fdc
  else .fdc

/-- The instruction the decoder reads from a word numbered as spec/opcode_table.json numbers it. -/
def decodeTableWord (nbits w : Nat) : Option Instr :=
  match decode (tableFormat nbits w) (tableBytes nbits w) with
  | .ok (i, _) => some i
  | .error _ => none

end Sys2Proof
end

