-- ==== Sys2Proof/Machine/Types.lean ====
section
/-! DEFINITION. The records and enumerations of the block's state (spec 10_state, 30_encoding R120 to R124), the
errors an operation reports (60_exceptions R420) and the events, callbacks and answers at the host's side (00_scope R17). -/

namespace Sys2Proof.Machine

open Sys2Proof

/-- Sparse byte memory: listed cells, addresses strictly rising, no cell equal to what an unlisted address reads as. -/
abbrev Memory := List Host.Cell

/-! ### Video unit -/

/-- The ten phases of R120. -/
inductive VideoPhase where
  | none | border | borderFetchPixel | borderFetchAttr
  | displayByte1 | displayByte1FetchByte2 | displayByte1FetchAttr2
  | displayByte2 | displayByte2FetchByte1 | displayByte2FetchAttr1
deriving DecidableEq, Repr

/-- `TactDescriptor` (10_state R24). -/
structure TactDescriptor where
  phase : VideoPhase
  contentionDelay : BitVec 3
  pixelFetchAddress : Addr
  attributeFetchAddress : Addr
  x : BitVec 16
  y : BitVec 16
deriving DecidableEq, Repr

/-- The descriptor `VID.BUILD` starts from (R142): idle, no delay, no address, (0, 0). -/
def TactDescriptor.idle : TactDescriptor where
  phase := .none
  contentionDelay := 0
  pixelFetchAddress := 0
  attributeFetchAddress := 0
  x := 0
  y := 0

/-- The video unit (R23 to R27). -/
structure Video where
  geometry : Geometry
  /-- `TT`, the tact timing table. -/
  tt : List TactDescriptor
  /-- `PB`, the pixel buffer, row-major. -/
  pb : List Byte
  pixelByte1 : Byte
  attrByte1 : Byte
  pixelByte2 : Byte
  attrByte2 : Byte
  frameCount : Nat
  flashPhase : Bool
deriving DecidableEq, Repr

/-! ### Tape unit -/

/-- `TapeBlock` (R31, R124). -/
structure TapeBlock where
  data : List Byte
  pauseAfterMs : BitVec 16
deriving DecidableEq, Repr

/-- `tapeMode` (R30). -/
inductive TapeMode where
  | passive | load | save
deriving DecidableEq, Repr

/-- The LOAD `phase` (R32). -/
inductive PlayPhase where
  | pilot | sync | data | termSync | pause | completed
deriving DecidableEq, Repr

/-- `TapePlaybackState` (R32) with `bitStartTact` (R33). -/
structure Playback where
  phase : PlayPhase
  startTact : Nat
  byteIndex : Nat
  bitMask : Byte
  pilotEndTact : Nat
  sync1EndTact : Nat
  sync2EndTact : Nat
  bitPulseLength : Nat
  termSyncEndTact : Nat
  pauseEndTact : Nat
  bitStartTact : Nat
deriving DecidableEq, Repr

/-- The SAVE `phase` (R35). No rule enters `error` (R250). -/
inductive SavePhase where
  | none | pilot | sync1 | sync2 | data | error
deriving DecidableEq, Repr

/-- `prevPulse` (R35). -/
inductive HalfPulse where
  | noPulse | bit0 | bit1
deriving DecidableEq, Repr

/-- The pulse classes of the SAVE classifier (R121). -/
inductive PulseClass where
  | unclassified | pilot | sync1 | sync2 | bit0 | bit1 | termSync | tooShort | tooLong
deriving DecidableEq, Repr

/-- `TapeSaveState` (R35, R36). -/
structure SaveState where
  phase : SavePhase
  pilotPulseCount : Nat
  bitOffset : BitVec 3
  currentByte : Byte
  dataBuffer : List Byte
  prevPulse : HalfPulse
  dataBlockCount : Nat
  lastActivityTact : Nat
  micBitState : Bool
deriving DecidableEq, Repr

/-- The tape unit (R30 to R36). -/
structure TapeUnit where
  mode : TapeMode
  /-- `tape`, the tape image: configuration, written by the host only (R22, R31). -/
  image : List TapeBlock
  blockIndex : Nat
  playerCompleted : Bool
  initialised : Bool
  lastTact : Nat
  play : Playback
  save : SaveState
  /-- The model's own: the host has changed the image and TAPE.RESET has not followed (93 U7; log 12). -/
  imageStale : Bool
deriving DecidableEq, Repr

/-! ### Floppy unit and disk store -/

/-- `FloppyControllerState` and the fields R41 adds (R40 to R45). -/
structure FdcState where
  acceptingCommand : Bool
  activeCommand : FloppyCommand
  paramsReceived : Nat
  params : Vector Byte 8
  st0 : Byte
  st1 : Byte
  st2 : Byte
  st3 : Byte
  selectedDrive : BitVec 2
  headPerDrive : Vector (BitVec 1) 4
  trackPerDrive : Vector Byte 4
  sectorPerDrive : Vector Byte 4
  mainStatusRegister : Byte
  pendingResultBytes : List Byte
  pendingDataBytes : List Byte
  resultCursor : Nat
  dataCursor : Nat
  executionStatus : Bool
  stepRateTime : BitVec 4
  headUnloadTime : BitVec 4
  headLoadTime : BitVec 7
  nonDmaMode : Bool
  dataLen : Nat
deriving DecidableEq, Repr

/-- `disk` (R52). The region's bytes are a sparse memory; its length is that of R52's formula (log 18). -/
structure Disk where
  doubleSided : Byte
  tracks : Byte
  sectorsPerTrack : Byte
  region : Memory
deriving DecidableEq, Repr

/-- The field a `DiskDomainError` names (R420 code 7). -/
inductive DiskField where
  | head | track | sector | length
deriving DecidableEq, Repr

/-- The errors an operation reports to the host (R420). -/
inductive OpError where
  | geometryInvalid
  | tapeNoBlock
  | tapeEmptyBlock
  | tapeNotInitialised
  | tapeOrderViolation
  | diskNotAttached
  | diskDomainError (field : DiskField)
  | imageTruncated
  | imageIncompatible
deriving DecidableEq, Repr

/-! ### The host's side -/

/-- The host CPU registers a callback names (R70, R285; log 19). `D` and `E` are the halves of `de`. -/
structure HostCpu where
  a : Byte
  aAlt : Byte
  b : Byte
  c : Byte
  h : Byte
  l : Byte
  de : BitVec 16
  ix : BitVec 16
  pc : Addr
  carry : Bool
  zero : Bool
deriving DecidableEq, Repr

/-- What the host's callbacks answer from: its memory, its registers, its border device (R22, R71, R434). -/
structure HostWorld where
  mem : Memory
  cpu : HostCpu
  border : Byte
deriving DecidableEq, Repr

/-- What an operation returns to the host (R100 column "returns", R422). -/
inductive OpResult where
  | done
  | bit (b : Bool)
  | byte (b : Byte)
  | delay (d : BitVec 3)
  | bytes (bs : List Byte)
  | error (e : OpError)
deriving DecidableEq, Repr

/-- The output events (R17): mode transitions (R271), the tape sink (R244, R246), the log (R327). -/
inductive Event where
  | enteredLoad
  | leftLoad
  | enteredSave
  | leftSave
  | blockSaved (block : TapeBlock)
  | nameSaved (name : List Byte)
  | fdcDataLog (bytes : List Byte)
deriving DecidableEq, Repr

/-- The host registers that `RegGet` and `RegSet` name. -/
inductive HostReg where
  | reg8 (r : HostReg8)
  | de
  | ix
deriving DecidableEq, Repr

/-- One callback an operation makes into the host (R85). -/
inductive Callback where
  | memRead (a : Addr)
  | memWrite (a : Addr) (v : Byte)
  | borderColour
  | regGet (r : HostReg)
  | regSet (r : HostReg) (v : BitVec 16)
  | setFlags (carry zero : Bool)
  | setPc (a : Addr)
deriving DecidableEq, Repr

/-- What the host does to its own data between operations (R22, R88, 95 P4 step 2). -/
inductive HostAction where
  | memWrite (a : Addr) (v : Byte)
  | setBorder (v : Byte)
  | setCpu (cpu : HostCpu)
  | setTape (image : List TapeBlock)
deriving DecidableEq, Repr

/-- One pending input: bytes of one or more invocations in a format, or an action of the host. -/
inductive HostInput where
  | invoke (f : Format) (bytes : List Byte)
  | act (a : HostAction)
deriving DecidableEq, Repr

end Sys2Proof.Machine
end

