-- ==== Sys2Proof/Machine/TimingTable.lean ====
section
/-! DEFINITION. The tact timing table of a geometry (spec 40_video_timing R141 to R149). -/

namespace Sys2Proof

namespace Geometry

/-! ### Derived quantities (R141) -/

/-- `LINE_T`: tacts per raster line. -/
def lineT (g : Geometry) : Nat := g.borderLeftT + g.displayT + g.borderRightT + g.nvRightT + g.hblankT
/-- `VISIBLE_T`. -/
def visibleT (g : Geometry) : Nat := g.borderLeftT + g.displayT + g.borderRightT
/-- `FIRST_VISIBLE_LINE`. -/
def firstVisibleLine (g : Geometry) : Nat := g.vsyncLines + g.nvTopLines
/-- `FIRST_DISPLAY_LINE`. -/
def firstDisplayLine (g : Geometry) : Nat := g.firstVisibleLine + g.borderTopLines
/-- `LAST_DISPLAY_LINE`. -/
def lastDisplayLine (g : Geometry) : Nat := g.firstDisplayLine + g.displayLines - 1
/-- `SCREEN_LINES`. -/
def screenLines (g : Geometry) : Nat := g.borderTopLines + g.displayLines + g.borderBottomLines
/-- `RASTER_LINES`. -/
def rasterLines (g : Geometry) : Nat := g.firstVisibleLine + g.screenLines + g.nvBottomLines
/-- `FRAME_T`: the frame tact count, the length of the table. -/
def frameT (g : Geometry) : Nat := g.rasterLines * g.lineT
/-- `SCREEN_WIDTH` in pixels. -/
def screenWidth (g : Geometry) : Nat := 2 * g.visibleT
/-- The size of the pixel buffer (10_state R25). -/
def pixelCount (g : Geometry) : Nat := g.screenWidth * g.screenLines

/-- `GeometryValid` (R149). -/
def valid (g : Geometry) : Bool :=
  decide (1 ≤ g.displayLines) && decide (g.displayLines ≤ 192) &&
  decide (8 ≤ g.displayT) && decide (g.displayT % 8 = 0) && decide (g.displayT ≤ 128) &&
  decide (2 ≤ g.borderLeftT) && decide (g.contentionLeadT ≤ g.borderLeftT) &&
  decide (g.pixelPrefetchT = 2) && decide (g.attrPrefetchT = 1) &&
  decide (g.contentionPattern.length = 8) && g.contentionPattern.all (fun d => decide (d ≤ 7)) &&
  decide (g.screenBase + 0x17FF ≤ 0xFFFF) && decide (g.attrBase + 0x2FF ≤ 0xFFFF)

/-- The line is a display line (R144). -/
def onDisplayLine (g : Geometry) (line : Nat) : Bool :=
  decide (g.firstDisplayLine ≤ line) && decide (line ≤ g.lastDisplayLine)

/-- `Visible(line, t)` (R144). -/
def visible (g : Geometry) (line t : Nat) : Bool :=
  decide (g.firstVisibleLine ≤ line) && decide (line < g.firstVisibleLine + g.screenLines) && decide (t < g.visibleT)

/-- `InDisplay(line, t)` (R144). -/
def inDisplay (g : Geometry) (line t : Nat) : Bool :=
  g.onDisplayLine line && decide (g.borderLeftT ≤ t) && decide (t < g.borderLeftT + g.displayT)

/-- `PixAddr(r, c)` (R146). -/
def pixAddr (g : Geometry) (r c : Nat) : Addr :=
  BitVec.ofNat 16 (g.screenBase + ((r &&& 0xC0) <<< 5) + ((r &&& 0x07) <<< 8) + ((r &&& 0x38) <<< 2) + c)

/-- `AttrAddr(r, c)` (R147). -/
def attrAddr (g : Geometry) (r c : Nat) : Addr :=
  BitVec.ofNat 16 (g.attrBase + ((r >>> 3) <<< 5) + c)

/-- A coordinate in its 16-bit field (10_state R24); one that does not fit is the free value (log 10). -/
def coord (n : Nat) : BitVec 16 := if n < 65536 then BitVec.ofNat 16 n else Config.coordBeyondU16 n

end Geometry

namespace Machine

/-- `AssignPhase(d, line, t)` for a visible tact (R145). -/
def assignPhase (g : Geometry) (line t : Nat) (d : TactDescriptor) : TactDescriptor :=
  let r := line - g.firstDisplayLine
  let p := t - g.borderLeftT
  if g.inDisplay line t then
    match p % 8 with
    | 0 | 1 => { d with phase := .displayByte1 }
    | 2 => { d with phase := .displayByte1FetchByte2, pixelFetchAddress := g.pixAddr r ((p + 2) / 4) }
    | 3 => { d with phase := .displayByte1FetchAttr2, attributeFetchAddress := g.attrAddr r ((p + 1) / 4) }
    | 4 | 5 => { d with phase := .displayByte2 }
    | 6 =>
      if p + 2 < g.displayT then
        { d with phase := .displayByte2FetchByte1, pixelFetchAddress := g.pixAddr r ((p + 2) / 4) }
      else { d with phase := .displayByte2 }
    | _ =>
      if p + 1 < g.displayT then
        { d with phase := .displayByte2FetchAttr1, attributeFetchAddress := g.attrAddr r ((p + 1) / 4) }
      else { d with phase := .displayByte2 }
  else if g.onDisplayLine line && decide (t = g.borderLeftT - g.pixelPrefetchT) then
    { d with phase := .borderFetchPixel, pixelFetchAddress := g.pixAddr r 0 }
  else if g.onDisplayLine line && decide (t = g.borderLeftT - g.attrPrefetchT) then
    { d with phase := .borderFetchAttr, attributeFetchAddress := g.attrAddr r 0 }
  else { d with phase := .border }

/-- `Contention(line, t)` (R148). -/
def contention (g : Geometry) (line t : Nat) : BitVec 3 :=
  let s := g.borderLeftT - g.contentionLeadT
  if g.onDisplayLine line && decide (s ≤ t) && decide (t < s + g.displayT) then
    BitVec.ofNat 3 (g.contentionPattern.getD ((t - s) % 8) 0)
  else 0

/-- The descriptor of one tact of the frame: the body of `VID.BUILD`'s loop (R142). -/
def describeTact (g : Geometry) (tact : Nat) : TactDescriptor :=
  let line := tact / g.lineT
  let t := tact % g.lineT
  let d :=
    if g.visible line t then
      assignPhase g line t
        { TactDescriptor.idle with x := Geometry.coord (2 * t), y := Geometry.coord (line - g.firstVisibleLine) }
    else TactDescriptor.idle
  { d with contentionDelay := contention g line t }

/-- The descriptors of `n` tacts from tact `tact` on. -/
def tableFrom (g : Geometry) : Nat → Nat → List TactDescriptor
  | 0, _ => []
  | n + 1, tact => describeTact g tact :: tableFrom g n (tact + 1)

/-- The whole table: `FRAME_T` descriptors (R142). -/
def buildTable (g : Geometry) : List TactDescriptor := tableFrom g g.frameT 0

/-- The video state `VID.BUILD` leaves, given the two elements it keeps (R142, R153). -/
def buildVideo (g : Geometry) (frameCount : Nat) (flashPhase : Bool) : Video where
  geometry := g
  tt := buildTable g
  pb := List.replicate g.pixelCount 0
  pixelByte1 := 0
  attrByte1 := 0
  pixelByte2 := 0
  attrByte2 := 0
  frameCount := frameCount
  flashPhase := flashPhase

end Machine

end Sys2Proof
end

