-- ==== Sys2Proof/Machine/State.lean ====
section
/-! DEFINITION. The state of the machine, the reasons a step stops, and the state after power-on
(spec 10_state R60, 70_reset_and_hazards R460, R461). -/

namespace Sys2Proof.Machine

open Sys2Proof

/-- The state: the four units of R2, the parameters (R22), the host's data that the callbacks answer from (R22), and
the interface's own elements (log 1, log 6). Plain data. -/
structure State where
  video : Video
  tape : TapeUnit
  fdc : FdcState
  /-- `diskAttached` and `disk` (R52): `some d` is `diskAttached = 1`. -/
  disk : Option Disk
  params : Params
  host : HostWorld
  /-- What the latest operation returned. -/
  result : OpResult
  /-- The callbacks the latest operation made, in order (R85). -/
  calls : List Callback
  /-- The events emitted so far, oldest first (R17). -/
  events : List Event
  /-- The host's pending invocations and actions, next first. -/
  inputs : List HostInput
deriving DecidableEq, Repr

/-- Why the machine stops. Each is SAFE: the model stops where the spec gives no transition. -/
inductive Fault where
  /-- Raised by every tape operation but TAPE.RESET after the host changed the tape image while the tape unit was not
  in its reset state: "changing the image requires `TAPE.RESET` before the next tape operation, otherwise `stuck`"
  (93 U7; log 12). Safe. -/
  | tapeImageChanged
  /-- Raised by TAPE.EAR (and the block start of TAPE.INITPLAY, TAPE.ENTERLOAD and TAPE.SETMODE) where a tape cursor
  points outside the image, or at a block without data: 93 U7, only in states that no run reaches (log 13). Safe. -/
  | tapeCursorOutsideImage
deriving DecidableEq, Repr

/-- Why an instruction has no meaning here. Each is SAFE: nothing is claimed of it. -/
inductive Refusal where
  /-- Raised by `exec` for an instruction that has no meaning yet. Safe. -/
  | notModelled (mnemonic : String)
  /-- Raised by `step` where the pending bytes are no invocation: an unassigned selector, missing argument bytes, a
  `bool` that is neither 0 nor 1 (R426, R128(c), U16). Safe. -/
  | malformedInvocation (e : DecodeError)
  /-- Raised by TAPE.FASTLOAD where `FAST_LOAD_ENABLED` is false: the operation is "Present only when
  `FAST_LOAD_ENABLED`" (R285, R8; log 14). Safe. -/
  | fastLoadAbsent
deriving DecidableEq, Repr

/-- `TapePlaybackState` and `bitStartTact` after reset (R32, R33, R60). -/
def Playback.reset : Playback where
  phase := .pilot
  startTact := 0
  byteIndex := 0
  bitMask := 0x80
  pilotEndTact := 0
  sync1EndTact := 0
  sync2EndTact := 0
  bitPulseLength := 0
  termSyncEndTact := 0
  pauseEndTact := 0
  bitStartTact := 0

/-- `TapeSaveState` after reset (R35, R60). -/
def SaveState.reset : SaveState where
  phase := .none
  pilotPulseCount := 0
  bitOffset := 0
  currentByte := 0
  dataBuffer := []
  prevPulse := .noPulse
  dataBlockCount := 0
  lastActivityTact := 0
  micBitState := true

/-- The tape unit after reset, with an image that no reset touches (R60, R464). -/
def TapeUnit.reset (image : List TapeBlock) : TapeUnit where
  mode := .passive
  image := image
  blockIndex := 0
  playerCompleted := false
  initialised := false
  lastTact := 0
  play := Playback.reset
  save := SaveState.reset
  imageStale := false

/-- The floppy unit after reset (R60, R302). -/
def FdcState.reset : FdcState where
  acceptingCommand := true
  activeCommand := .none
  paramsReceived := 0
  params := #v[0, 0, 0, 0, 0, 0, 0, 0]
  st0 := 0
  st1 := 0
  st2 := 0
  st3 := 0
  selectedDrive := 0
  headPerDrive := #v[0, 0, 0, 0]
  trackPerDrive := #v[0, 0, 0, 0]
  sectorPerDrive := #v[1, 1, 1, 1]
  mainStatusRegister := 0x80
  pendingResultBytes := []
  pendingDataBytes := []
  resultCursor := 0
  dataCursor := 0
  executionStatus := false
  stepRateTime := 0
  headUnloadTime := 0
  headLoadTime := 0
  nonDmaMode := false
  dataLen := 0

/-- The host's registers before anything ran. DESIGN CHOICE (log 7): they are the host's and the spec gives none. -/
def HostCpu.powerOn : HostCpu where
  a := 0
  aAlt := 0
  b := 0
  c := 0
  h := 0
  l := 0
  de := 0
  ix := 0
  pc := 0
  carry := false
  zero := false

/-- The machine right after power-on with parameters `p`: the three reset operations done, no disk attached (R460,
R461). The tape image, the host's data and the interface's own elements are DESIGN CHOICE (log 6, log 7, log 8). -/
def State.powerOn (p : Params) : State where
  video := buildVideo p.geometry 0 false
  tape := TapeUnit.reset []
  fdc := FdcState.reset
  disk := none
  params := p
  host := { mem := [], cpu := HostCpu.powerOn, border := 0 }
  result := .done
  calls := []
  events := []
  inputs := []

/-- The machine right after reset with the default parameters of 00_scope R10 to R15. -/
def State.reset : State := State.powerOn Params.default

end Sys2Proof.Machine
end

