-- ==== Sys2Proof/Machine/Ops.lean ====
section
/-! DEFINITION. The shared operations: sparse memory, per-drive registers, host registers, the named updates of the
state, and how an operation ends: with its result, or raising an error (spec 60_exceptions R420 to R422). -/

namespace Sys2Proof.Machine

open Sys2Proof

/-! ### Memory -/

namespace Memory

/-- What an unlisted address reads as. For the disk region it is R394's zero fill; for host memory it is the model's
(DESIGN CHOICE, log 8). -/
def unlisted : Byte := 0

/-- The byte at address `a` (`MemRead(a, 1)`, R17). -/
def read : Memory → Nat → Byte
  | [], _ => unlisted
  | (k, v) :: m, a => if k = a then v else read m a

/-- Put a cell before the first cell of a higher address. -/
def insert (a : Nat) (v : Byte) : Memory → Memory
  | [] => [(a, v)]
  | (k, x) :: m => if a < k then (a, v) :: (k, x) :: m else (k, x) :: insert a v m

/-- The memory without a cell at `a`. -/
def erase (a : Nat) : Memory → Memory
  | [] => []
  | (k, x) :: m => if k = a then erase a m else (k, x) :: erase a m

/-- Write one byte (`MemWrite(a, 1, v)`, R17), keeping the canonical form. -/
def write (m : Memory) (a : Nat) (v : Byte) : Memory :=
  if v = unlisted then erase a m else insert a v (erase a m)

/-- Write bytes at ascending addresses from `a` on. -/
def writeBytes (m : Memory) (a : Nat) : List Byte → Memory
  | [] => m
  | v :: vs => writeBytes (m.write a v) (a + 1) vs

/-- The `n` bytes from address `a` on. -/
def readBytes (m : Memory) (a : Nat) : Nat → List Byte
  | 0 => []
  | n + 1 => m.read a :: readBytes m (a + 1) n

/-- A memory that holds `bs` from address `a` on and nothing else. -/
def ofBytes : Nat → List Byte → Memory
  | _, [] => []
  | a, v :: vs => if v = unlisted then ofBytes (a + 1) vs else (a, v) :: ofBytes (a + 1) vs

/-- Every listed address is above `a`, and addresses rise strictly. -/
def risesFrom : Nat → Memory → Bool
  | _, [] => true
  | a, (k, v) :: m => decide (a ≤ k) && v != unlisted && risesFrom (k + 1) m

/-- The canonical form: addresses strictly rising, no cell equal to what an unlisted address reads as. -/
def wf (m : Memory) : Bool := risesFrom 0 m

/-- Every listed address is below `n`. -/
def within (n : Nat) (m : Memory) : Bool := m.all (fun cell => decide (cell.1 < n))

end Memory

/-! ### Per-drive registers (10_state R44) -/

/-- Element `d` of a per-drive array. -/
def driveGet {α : Type} (v : Vector α 4) (d : BitVec 2) : α := v[d.toNat]'(d.isLt)

/-- The per-drive array with element `d` replaced. -/
def driveSet {α : Type} (v : Vector α 4) (d : BitVec 2) (x : α) : Vector α 4 := v.set d.toNat x d.isLt

/-! ### Host registers (`RegGet`, `RegSet`; 44_tape_mode R285) -/

/-- The value of an 8-bit host register. -/
def HostCpu.get8 (c : HostCpu) : HostReg8 → Byte
  | .a => c.a
  | .aAlt => c.aAlt
  | .b => c.b
  | .c => c.c
  | .d => c.de.extractLsb' 8 8
  | .e => c.de.extractLsb' 0 8
  | .h => c.h
  | .l => c.l

/-! ### The named updates of the state -/

namespace State

/-- Replace the video unit. -/
def setVideo (s : State) (v : Video) : State := { s with video := v }
/-- Replace the tape unit. -/
def setTape (s : State) (t : TapeUnit) : State := { s with tape := t }
/-- Replace the floppy unit and the disk it calls. -/
def setFloppy (s : State) (u : FdcState × Option Disk) : State := { s with fdc := u.1, disk := u.2 }
/-- Replace the disk store. -/
def setDisk (s : State) (d : Option Disk) : State := { s with disk := d }
/-- Replace the host's data. -/
def setHost (s : State) (h : HostWorld) : State := { s with host := h }
/-- Replace the pending inputs. -/
def setInputs (s : State) (is : List HostInput) : State := { s with inputs := is }
/-- `emit` (R17): add output events. -/
def emit (s : State) (es : List Event) : State := { s with events := s.events ++ es }
/-- Record what the operation returned and the callbacks it made. -/
def answer (s : State) (r : OpResult) (cs : List Callback) : State := { s with result := r, calls := cs }

end State

/-! ### How an operation ends -/

/-- What a meaning answers. -/
abbrev Answer := Host.Outcome State Fault Refusal

/-- The operation completes: it returns `r` and made the callbacks `cs`. -/
def completeWith (r : OpResult) (cs : List Callback) (s : State) : Answer := .next (s.answer r cs)

/-- The operation completes without a callback. -/
def complete (r : OpResult) (s : State) : Answer := completeWith r [] s

/-- TAKING AN EXCEPTION: `raise <Error>` (00_scope R17). "An error is returned to the host in place of the operation's
normal result, at the call site"; the operation "changes no state of the block" and "the next operation proceeds
normally" (R422; log 5). Nothing is saved, no mode changes and there is no handler to return from (R432, R434), so
there is no return operation beside it. -/
def raise (e : OpError) (s : State) : Answer := complete (.error e) s

end Sys2Proof.Machine
end

