-- ==== Sys2Proof/Machine/Operands.lean ====
section
/-! DEFINITION. The operand forms: fields of FDC parameter bytes (spec 30_encoding R108 to R112, 46_fdc_commands R340 to
R345) and the disk request of 47_disk_image R402, R404. -/

namespace Sys2Proof.Machine

open Sys2Proof

/-! ### Parameter bytes -/

/-- US: bits 1:0 of the HD/US byte (R109). -/
def usOf (p0 : Byte) : BitVec 2 := p0.extractLsb' 0 2
/-- HD: bit 2 of the HD/US byte (R109). -/
def hdOf (p0 : Byte) : BitVec 1 := p0.extractLsb' 2 1
/-- `stepRateTime`: p0[7:4] of Specify (R110). -/
def srtOf (p0 : Byte) : BitVec 4 := p0.extractLsb' 4 4
/-- `headUnloadTime`: p0[3:0] of Specify (R110). -/
def hutOf (p0 : Byte) : BitVec 4 := p0.extractLsb' 0 4
/-- `headLoadTime`: p1[7:1] of Specify (R110). -/
def hltOf (p1 : Byte) : BitVec 7 := p1.extractLsb' 1 7
/-- `nonDmaMode`: p1[0] of Specify (R110). -/
def ndOf (p1 : Byte) : Bool := p1.getLsbD 0

/-- The declared sector size `128 << N` (R112). -/
def sectorSizeOf (n : Byte) : Nat := 128 <<< n.toNat

/-- `DataLength()` (R343). -/
def dataLengthOf (n dtl : Byte) : Nat := if n = 0 then dtl.toNat else 512

/-- Parameter byte `i` of the command in progress (R308). -/
def FdcState.param (f : FdcState) (i : Fin 8) : Byte := f.params[i.val]'(i.isLt)

/-- The parameters of ReadData or WriteData, `p0` to `p7` (R108). -/
def FdcState.rwParams (f : FdcState) : RwParams :=
  ⟨f.param 0, f.param 1, f.param 2, f.param 3, f.param 4, f.param 5, f.param 6, f.param 7⟩

/-- The parameters of FormatTrack, `p0` to `p4` (R108). -/
def FdcState.formatParams (f : FdcState) : FormatParams :=
  ⟨f.param 0, f.param 1, f.param 2, f.param 3, f.param 4⟩

/-! ### The selected drive's registers (R341) -/

/-- `hd`. -/
def FdcState.hd (f : FdcState) : BitVec 1 := driveGet f.headPerDrive f.selectedDrive
/-- `tr`. -/
def FdcState.tr (f : FdcState) : Byte := driveGet f.trackPerDrive f.selectedDrive
/-- `sc`. -/
def FdcState.sc (f : FdcState) : Byte := driveGet f.sectorPerDrive f.selectedDrive

/-- `SelectDriveHead(p0)` (R340). -/
def FdcState.selectDriveHead (f : FdcState) (p0 : Byte) : FdcState :=
  { f with selectedDrive := usOf p0, headPerDrive := driveSet f.headPerDrive (usOf p0) (hdOf p0) }

/-- The selected drive's track register replaced. -/
def FdcState.setTrack (f : FdcState) (tr : Byte) : FdcState :=
  { f with trackPerDrive := driveSet f.trackPerDrive f.selectedDrive tr }

/-- The selected drive's sector register replaced. -/
def FdcState.setSector (f : FdcState) (sc : Byte) : FdcState :=
  { f with sectorPerDrive := driveSet f.sectorPerDrive f.selectedDrive sc }

/-- `PositionOk(C, H)` (R344). -/
def FdcState.positionOk (f : FdcState) (c h : Byte) : Bool := c == f.tr && h == f.hd.setWidth 8

/-! ### Disk requests -/

/-- `Sides(disk)` (R356, R392). -/
def Disk.sides (d : Disk) : Nat := if d.doubleSided = 0 then 1 else 2

/-- `headerSize` (R402). -/
def headerSize : Nat := 8
/-- `sectorSize` (R402). -/
def sectorSize : Nat := 512

/-- The length of the byte region (R52). -/
def Disk.regionSize (d : Disk) : Nat :=
  headerSize + d.sides * d.tracks.toNat * d.sectorsPerTrack.toNat * sectorSize

/-- `Offset(head, track, sector)`, the source's formula (R402). -/
def Disk.offset (d : Disk) (head track sector : Nat) : Nat :=
  headerSize + head * d.tracks.toNat * d.sectorsPerTrack.toNat * sectorSize +
    track * d.sectorsPerTrack.toNat * sectorSize + (sector - 1) * sectorSize

/-- `DiskCheck(head, track, sector, length)`: the disk, or the first error (R404). -/
def diskCheck (disk : Option Disk) (head track sector length : Nat) : Except OpError Disk :=
  match disk with
  | none => .error .diskNotAttached
  | some d =>
    if 1 < head then .error (.diskDomainError .head)
    else if d.tracks.toNat ≤ track then .error (.diskDomainError .track)
    else if sector < 1 ∨ d.sectorsPerTrack.toNat < sector then .error (.diskDomainError .sector)
    else if length < 1 ∨ 512 < length then .error (.diskDomainError .length)
    else .ok d

end Sys2Proof.Machine
end

