-- ==== Sys2Proof/Machine/Flags.lean ====
section
/-! DEFINITION. Every flag and status computation: the host's carry and zero flags (spec 44_tape_mode R287), the main
status register (45_fdc_protocol R320), ST0 and ST3 (46_fdc_commands R342, R345, R349, R352). -/

namespace Sys2Proof.Machine

open Sys2Proof

/-! ### Host flags -/

/-- `SetFlags(carry, zero)`: the two flags and no other (R287). -/
def HostCpu.setFlags (c : HostCpu) (carry zero : Bool) : HostCpu := { c with carry := carry, zero := zero }

/-! ### Main status register (R42, R320) -/

/-- AcceptingCommand: RQM. -/
def msrIdle : Byte := 0x80
/-- ReceivingParameters: RQM, CB. -/
def msrParams : Byte := 0x90
/-- ReceivingData: RQM, EXM, CB. -/
def msrDataIn : Byte := 0xB0
/-- SendingData: RQM, DIO, EXM, CB. -/
def msrDataOut : Byte := 0xF0
/-- SendingResult: RQM, DIO, CB. -/
def msrResult : Byte := 0xD0

/-- RQM, bit 7 (R42). -/
def FdcState.rqm (f : FdcState) : Bool := f.mainStatusRegister.getLsbD 7
/-- DIO, bit 6: 1 = the host must read (R42). -/
def FdcState.dio (f : FdcState) : Bool := f.mainStatusRegister.getLsbD 6
/-- EXM, bit 5 (R42). -/
def FdcState.exm (f : FdcState) : Bool := f.mainStatusRegister.getLsbD 5
/-- CB, bit 4 (R42). -/
def FdcState.cb (f : FdcState) : Bool := f.mainStatusRegister.getLsbD 4

/-! ### ST0 to ST3 (R43) -/

/-- `FDC_RW_STATUS(head, sector)` (R345): the parameter's entry, or (0, 0, 0). -/
def rwStatus (p : Params) (head : BitVec 1) (sector : Byte) : BitVec 5 × Byte × Byte :=
  match p.fdcRwStatus.find? (fun e => e.head == head && e.sector == sector) with
  | some e => (e.x0, e.s1, e.s2)
  | none => (0, 0, 0)

/-- ST0 from its bits 7:3, the head and the drive: `x0 | (hd << 2) | d` (R345, R352). -/
def st0Of (high : BitVec 5) (hd : BitVec 1) (d : BitVec 2) : Byte := high ++ hd ++ d

/-- ST0 of an abnormal termination (R342). -/
def st0Abnormal : Byte := 0x40

/-- `hd << 2 | d` as a byte. -/
def headDriveBits (hd : BitVec 1) (d : BitVec 2) : Byte := 0#5 ++ hd ++ d

/-- ST3 of SenseDriveStatus (R349). -/
def st3Of (flags tr : Byte) (hd : BitVec 1) (d : BitVec 2) : Byte :=
  flags ||| (if tr = 0 then 0x10 else 0) ||| headDriveBits hd d

end Sys2Proof.Machine
end

