-- ==== Sys2Proof/Machine/Disk.lean ====
section
/-! DEFINITION. The disk store (spec 47_disk_image): DSK.CREATE, DSK.OPEN, DSK.READ, DSK.WRITE and the bodies the
floppy commands call. -/

namespace Sys2Proof.Machine

open Sys2Proof

/-- The signature "VFDDF" (R392). -/
def diskSignature : List Byte := [0x56, 0x46, 0x44, 0x44, 0x46]

/-- The header of the fixed geometry: signature, doubleSided 1, 40 tracks, 9 sectors (R392, R394). -/
def diskHeader : List Byte := diskSignature ++ [0x01, 0x28, 0x09]

/-- The length of an image of the fixed geometry (R392). -/
def diskImageSize : Nat := 368648

/-- The disk `Create` attaches: the header and zero-filled sectors (R394). -/
def Disk.created : Disk where
  doubleSided := 1
  tracks := 40
  sectorsPerTrack := 9
  region := Memory.ofBytes 0 diskHeader

/-- The disk `Open` attaches, given an accepted image (R396). -/
def Disk.ofImage (image : List Byte) : Disk where
  doubleSided := 1
  tracks := 40
  sectorsPerTrack := 9
  region := Memory.ofBytes 0 image

/-- `Open`: the checks in their order, the first that fails deciding the error (R396). -/
def openImage (image : List Byte) : Except OpError Disk :=
  if image.length < 8 then .error .imageTruncated
  else if image.take 5 ≠ diskSignature then .error .imageIncompatible
  else if (image.drop 5).take 3 ≠ [0x01, 0x28, 0x09] then .error .imageIncompatible
  else if image.length < diskImageSize then .error .imageTruncated
  else if diskImageSize < image.length then .error .imageIncompatible
  else .ok (Disk.ofImage image)

/-- `DiskRead(head, track, sector, length)`: the first `length` bytes of the sector (R398). -/
def diskRead (disk : Option Disk) (head track sector length : Nat) : Except OpError (List Byte) :=
  match diskCheck disk head track sector length with
  | .error e => .error e
  | .ok d => .ok (d.region.readBytes (d.offset head track sector) length)

/-- `DiskWrite(head, track, sector, data)`: the bytes from the start of the sector; the rest keep their content
(R400). -/
def diskWrite (disk : Option Disk) (head track sector : Nat) (data : List Byte) : Except OpError Disk :=
  match diskCheck disk head track sector data.length with
  | .error e => .error e
  | .ok d => .ok { d with region := d.region.writeBytes (d.offset head track sector) data }

/-! ### Meanings -/

/-- DSK.CREATE (R394): an image already attached is replaced. -/
def execDskCreate (s : State) : Answer := complete .done (s.setDisk (some Disk.created))

/-- DSK.OPEN (R396): on an error the image attached before stays. -/
def execDskOpen (image : List Byte) (s : State) : Answer :=
  match openImage image with
  | .error e => raise e s
  | .ok d => complete .done (s.setDisk (some d))

/-- DSK.READ (R398): changes no state. -/
def execDskRead (head track sector length : Nat) (s : State) : Answer :=
  match diskRead s.disk head track sector length with
  | .error e => raise e s
  | .ok bs => complete (.bytes bs) s

/-- DSK.WRITE (R400): on an error nothing is written. -/
def execDskWrite (head track sector : Nat) (data : List Byte) (s : State) : Answer :=
  match diskWrite s.disk head track sector data with
  | .error e => raise e s
  | .ok d => complete .done (s.setDisk (some d))

end Sys2Proof.Machine
end

