-- ==== Sys2Proof/Machine/FdcCommands.lean ====
section
/-! DEFINITION. The floppy commands: what `Execute()` does for each (spec 46_fdc_commands), and how a command ends
(45_fdc_protocol R312, R324). -/

namespace Sys2Proof.Machine

open Sys2Proof

/-- The floppy unit and the disk it calls. -/
abbrev Floppy := FdcState × Option Disk

/-! ### How a command ends -/

/-- `SendResult(data, result)` (R312). -/
def FdcState.sendResult (f : FdcState) (data result : List Byte) : FdcState :=
  { f with
    pendingDataBytes := data
    pendingResultBytes := result
    dataCursor := 0
    resultCursor := 0
    acceptingCommand := false
    executionStatus := decide (0 < data.length)
    mainStatusRegister := if 0 < data.length then msrDataOut else msrResult }

/-- `FinishNoResult()` (R324). -/
def FdcState.finishNoResult (f : FdcState) : FdcState :=
  { f with acceptingCommand := true, executionStatus := false, paramsReceived := 0, mainStatusRegister := msrIdle }

/-- `BeginReceiveData(L)` (R366). -/
def FdcState.beginReceiveData (f : FdcState) (len : Nat) : FdcState :=
  { f with
    pendingDataBytes := List.replicate len 0
    dataCursor := 0
    dataLen := len
    executionStatus := true
    mainStatusRegister := msrDataIn }

/-- `Abnormal(C, H, R, N)` (R342). -/
def FdcState.abnormal (f : FdcState) (c h r n : Byte) : FdcState :=
  FdcState.sendResult { f with st0 := st0Abnormal, st1 := 0, st2 := 0 } [] [st0Abnormal, 0, 0, c, h, r, n]

/-- The standard result of a successful ReadId, ReadData, FormatTrack or WriteData: `st0`, `st1`, `st2` by
`FDC_RW_STATUS(hd, statusSector)` and C, H, R, N (R318, R345). -/
def FdcState.standardResult (p : Params) (f : FdcState) (statusSector : Byte) (data : List Byte) (c h r n : Byte) :
    FdcState :=
  let status := rwStatus p f.hd statusSector
  let st0 := st0Of status.1 f.hd f.selectedDrive
  FdcState.sendResult { f with st0 := st0, st1 := status.2.1, st2 := status.2.2 } data
    [st0, status.2.1, status.2.2, c, h, r, n]

/-! ### The commands -/

/-- Specify (R346). -/
def runSpecify (f : FdcState) : FdcState :=
  FdcState.finishNoResult
    { f with
      stepRateTime := srtOf (f.param 0)
      headUnloadTime := hutOf (f.param 0)
      headLoadTime := hltOf (f.param 1)
      nonDmaMode := ndOf (f.param 1) }

/-- SenseDriveStatus (R349). -/
def runSenseDriveStatus (p : Params) (f : FdcState) : FdcState :=
  let f := f.selectDriveHead (f.param 0)
  let st3 := st3Of p.fdcSt3Flags f.tr f.hd f.selectedDrive
  FdcState.sendResult { f with st3 := st3 } [] [st3]

/-- Recalibrate (R350). -/
def runRecalibrate (f : FdcState) : FdcState :=
  (((f.selectDriveHead (f.param 0)).setTrack 0).setSector 1).finishNoResult

/-- SenseInterruptStatus (R352). -/
def runSenseInterruptStatus (p : Params) (f : FdcState) : FdcState :=
  let st0 := st0Of p.fdcSisSt0High f.hd f.selectedDrive
  FdcState.sendResult { f with st0 := st0 } [] [st0, f.tr]

/-- The target track of Seek, clamped to 79 (R354). -/
def seekTrack (ncn : Byte) : Byte := if 79 < ncn.toNat then 79 else ncn

/-- Seek (R354). -/
def runSeek (f : FdcState) : FdcState :=
  (((f.selectDriveHead (f.param 0)).setTrack (seekTrack (f.param 1))).setSector 1).finishNoResult

/-- The current position lies outside the disk, or there is none: ReadId's check (R356). -/
def positionOffDisk (f : FdcState) (disk : Option Disk) : Bool :=
  match disk with
  | none => true
  | some k => decide (k.tracks.toNat ≤ f.tr.toNat) || decide (k.sides ≤ f.hd.toNat)

/-- ReadId (R356): the sector the drive is positioned at. -/
def runReadId (p : Params) (f : FdcState) (disk : Option Disk) : FdcState :=
  let f := f.selectDriveHead (f.param 0)
  let hd := f.hd.setWidth 8
  if positionOffDisk f disk then f.abnormal f.tr hd f.sc 2
  else f.standardResult p f.sc [] f.tr hd f.sc 2

/-- ReadData (R358): one sector's first `L` bytes as data, then the standard result. -/
def runReadData (p : Params) (f : FdcState) (disk : Option Disk) : FdcState :=
  let q := f.rwParams
  let f := f.selectDriveHead q.hdUs
  let len := dataLengthOf q.n q.dtl
  if len = 0 ∨ f.positionOk q.c q.h = false then f.abnormal q.c q.h q.r q.n
  else
    match diskRead disk f.hd.toNat q.c.toNat q.r.toNat len with
    | .error _ => f.abnormal q.c q.h q.r q.n
    | .ok bs => (f.setSector q.r).standardResult p q.r bs q.c q.h q.r q.n

/-- FormatTrack's refusals (R362). -/
def formatRefused (q : FormatParams) (f : FdcState) (disk : Option Disk) : Bool :=
  positionOffDisk f disk ||
    match disk with
    | none => true
    | some k => decide (2 < q.n.toNat) || q.sc == 0 || decide (k.sectorsPerTrack.toNat < q.sc.toNat)

/-- Write `image` to `n` sectors in ascending order from sector `s` on (R362). -/
def formatSectors (head track : Nat) (image : List Byte) : Nat → Nat → Option Disk → Except OpError (Option Disk)
  | 0, _, disk => .ok disk
  | n + 1, s, disk =>
    match diskWrite disk head track s image with
    | .error e => .error e
    | .ok k => formatSectors head track image n (s + 1) (some k)

/-- FormatTrack (R362): all SC sectors or none; any error of the disk store is an abnormal termination (R342). -/
def runFormatTrack (p : Params) (f : FdcState) (disk : Option Disk) : Floppy :=
  let q := f.formatParams
  let f := f.selectDriveHead q.hdUs
  let hd := f.hd.setWidth 8
  if formatRefused q f disk then (f.abnormal f.tr hd q.sc q.n, disk)
  else
    match formatSectors f.hd.toNat f.tr.toNat (List.replicate (sectorSizeOf q.n) q.d) q.sc.toNat 1 disk with
    | .error _ => (f.abnormal f.tr hd q.sc q.n, disk)
    | .ok disk' => (f.standardResult p q.sc [] f.tr hd q.sc q.n, disk')

/-- WriteData, start (R366): all validation before a data byte is accepted. -/
def runWriteData (f : FdcState) (disk : Option Disk) : FdcState :=
  let q := f.rwParams
  let f := f.selectDriveHead q.hdUs
  let len := dataLengthOf q.n q.dtl
  if len = 0 ∨ f.positionOk q.c q.h = false then f.abnormal q.c q.h q.r q.n
  else
    match diskCheck disk f.hd.toNat q.c.toNat q.r.toNat len with
    | .error _ => f.abnormal q.c q.h q.r q.n
    | .ok _ => f.beginReceiveData len

/-- `WriteDataFinish()` (R367): the assembled buffer is written and validated again. -/
def writeDataFinish (p : Params) (f : FdcState) (disk : Option Disk) : Floppy :=
  let q := f.rwParams
  match diskWrite disk f.hd.toNat q.c.toNat q.r.toNat f.pendingDataBytes with
  | .error _ => (f.abnormal q.c q.h q.r q.n, disk)
  | .ok k => ((f.setSector q.r).standardResult p q.r [] q.c q.h q.r q.n, some k)

/-- `Execute()` (R310). -/
def executeCommand (p : Params) (f : FdcState) (disk : Option Disk) : Floppy :=
  match f.activeCommand with
  | .specify => (runSpecify f, disk)
  | .senseDriveStatus => (runSenseDriveStatus p f, disk)
  | .recalibrate => (runRecalibrate f, disk)
  | .senseInterruptStatus => (runSenseInterruptStatus p f, disk)
  | .seek => (runSeek f, disk)
  | .readId => (runReadId p f disk, disk)
  | .readData => (runReadData p f disk, disk)
  | .formatTrack => runFormatTrack p f disk
  | .writeData => (runWriteData f disk, disk)
  | .none => (f, disk)

end Sys2Proof.Machine
end

