-- ==== Sys2Proof/Machine/FdcProtocol.lean ====
section
/-! DEFINITION. The floppy byte-stream protocol: FDC.RESET, FDC.WRITE, FDC.READ, FDC.STATUS (spec 45_fdc_protocol), and
the FDC commands as instructions: their bytes written one by one (30_encoding R132 `FDC.CMD`; log 4). -/

namespace Sys2Proof.Machine

open Sys2Proof

/-- Parameter byte `i` replaced (R308); a register index above 7 names no register (log 16). -/
def FdcState.setParam (f : FdcState) (i : Nat) (b : Byte) : FdcState := { f with params := f.params.setIfInBounds i b }

/-- A command byte in AcceptingCommand (R304, R370). -/
def acceptCommandByte (p : Params) (b : Byte) (u : Floppy) : Floppy :=
  let cmd := (fdcDecode b).1
  let f := { u.1 with activeCommand := cmd, paramsReceived := 0 }
  if cmd = .none then (f, u.2)
  else if (fdcDecode b).2 = 0 then executeCommand p f u.2
  else ({ f with acceptingCommand := false, mainStatusRegister := msrParams }, u.2)

/-- A parameter byte in ReceivingParameters (R304, R308). -/
def receiveParam (p : Params) (b : Byte) (u : Floppy) : Floppy :=
  let f := { u.1.setParam u.1.paramsReceived b with paramsReceived := u.1.paramsReceived + 1 }
  if f.paramsReceived = f.activeCommand.paramCount then executeCommand p f u.2 else (f, u.2)

/-- A data byte in ReceivingData (R304). -/
def receiveData (p : Params) (b : Byte) (u : Floppy) : Floppy :=
  let f := { u.1 with
    pendingDataBytes := u.1.pendingDataBytes.set u.1.dataCursor b
    dataCursor := u.1.dataCursor + 1 }
  if f.dataCursor = f.dataLen then writeDataFinish p f u.2 else (f, u.2)

/-- `FDC.WRITE(byte)` on the floppy unit and the disk (R304, R305). -/
def writeByte (p : Params) (b : Byte) (u : Floppy) : Floppy :=
  if u.1.dio then u
  else if u.1.executionStatus then receiveData p b u
  else if u.1.acceptingCommand then acceptCommandByte p b u
  else receiveParam p b u

/-- `FDC.CMD b0 b1 ... bn`: the bytes written one after another (R132). -/
def writeAll (p : Params) : List Byte → Floppy → Floppy
  | [], u => u
  | b :: bs, u => writeAll p bs (writeByte p b u)

/-- `FDC.READ()` on the floppy unit: the new state, the byte and the events (R314). The default 0xFF is "reading past
the end"; inside a run the cursors never are past it (R322, log 16). -/
def readByteOf (f : FdcState) : FdcState × Byte × List Event :=
  if f.dio then
    if f.executionStatus then
      let v := f.pendingDataBytes.getD f.dataCursor 0xFF
      let f1 := { f with dataCursor := f.dataCursor + 1 }
      if f1.dataCursor = f1.pendingDataBytes.length then
        ({ f1 with executionStatus := false, mainStatusRegister := msrResult }, v, [.fdcDataLog f1.pendingDataBytes])
      else (f1, v, [])
    else
      let v := f.pendingResultBytes.getD f.resultCursor 0xFF
      let f1 := { f with resultCursor := f.resultCursor + 1 }
      if f1.resultCursor = f1.pendingResultBytes.length then (f1.finishNoResult, v, []) else (f1, v, [])
  else (f, 0xFF, [])

/-- Write an FDC command: its command byte and its parameter bytes. -/
def commandBytes (bs : List Byte) (s : State) : Answer :=
  complete .done (s.setFloppy (writeAll s.params bs (s.fdc, s.disk)))

/-! ### Meanings -/

/-- FDC.RESET (R302): every floppy element at its reset value; the disk is not touched. -/
def execFdcReset (s : State) : Answer := complete .done (s.setFloppy (FdcState.reset, s.disk))

/-- FDC.WRITE (R304). -/
def execFdcWrite (byte : Byte) (s : State) : Answer :=
  complete .done (s.setFloppy (writeByte s.params byte (s.fdc, s.disk)))

/-- FDC.READ (R314). -/
def execFdcRead (s : State) : Answer :=
  let (f, v, es) := readByteOf s.fdc
  complete (.byte v) ((s.setFloppy (f, s.disk)).emit es)

/-- FDC.STATUS (R316): returns the main status register and changes nothing. -/
def execFdcStatus (s : State) : Answer := complete (.byte s.fdc.mainStatusRegister) s

/-- Specify (R346). -/
def execFdcSpecify (p0 p1 : Byte) (s : State) : Answer := commandBytes [0x03, p0, p1] s

/-- SenseDriveStatus (R349). -/
def execFdcSenseDriveStatus (p0 : Byte) (s : State) : Answer := commandBytes [0x04, p0] s

/-- Recalibrate (R350). -/
def execFdcRecalibrate (p0 : Byte) (s : State) : Answer := commandBytes [0x07, p0] s

/-- SenseInterruptStatus (R352). -/
def execFdcSenseInterruptStatus (s : State) : Answer := commandBytes [0x08] s

/-- Seek (R354). -/
def execFdcSeek (p0 p1 : Byte) (s : State) : Answer := commandBytes [0x0F, p0, p1] s

/-- ReadId (R356). -/
def execFdcReadId (b6 : BitVec 1) (p0 : Byte) (s : State) : Answer := commandBytes [readIdByte b6, p0] s

/-- ReadData (R358). -/
def execFdcReadData (hi : BitVec 3) (p : RwParams) (s : State) : Answer :=
  commandBytes (readDataByte hi :: p.toBytes) s

/-- FormatTrack (R362). -/
def execFdcFormatTrack (b6 b1 : BitVec 1) (p : FormatParams) (s : State) : Answer :=
  commandBytes (formatTrackByte b6 b1 :: p.toBytes) s

/-- WriteData (R366): the command byte and the parameters; the data bytes follow as FDC.WRITE operations (R367). -/
def execFdcWriteData (hi : BitVec 2) (p : RwParams) (s : State) : Answer :=
  commandBytes (writeDataByte hi :: p.toBytes) s

/-- None (R370): a byte that matches no row. -/
def execFdcNone (b : Byte) (s : State) : Answer := commandBytes [b] s

end Sys2Proof.Machine
end

