-- ==== Sys2Proof/Machine/TapeLoad.lean ====
section
/-! DEFINITION. The tape LOAD pulse generator: TAPE.INITPLAY and TAPE.EAR (spec 42_tape_load). -/

namespace Sys2Proof.Machine

open Sys2Proof

/-- Run a tape operation unless the image was changed and TAPE.RESET has not followed (93 U7; log 12). -/
def guardTape (s : State) (k : Answer) : Answer := if s.tape.imageStale then .fault .tapeImageChanged else k

/-- Some block of the image has no data byte (R204, R276). -/
def TapeUnit.hasEmptyBlock (t : TapeUnit) : Bool := t.image.any (fun b => b.data.isEmpty)

/-- The pilot count of a block with first byte `first`: bit 7 clear is a header (R202). -/
def pilotCountOf (first : Byte) : Nat := if first.getLsbD 7 then dataPilotCount else headerPilotCount

/-- `PulseLen(byte, mask)` (R208). -/
def pulseLen (byte mask : Byte) : Nat := if byte &&& mask = 0 then bit0Pl else bit1Pl

/-- `InitBlock(S)`'s playback state, for a block that begins with byte `first` (R204). -/
def Playback.begin (first : Byte) (startTact : Nat) : Playback :=
  let pilotEnd := startTact + pilotCountOf first * pilotPl
  { phase := .pilot
    startTact := startTact
    byteIndex := 0
    bitMask := 0x80
    pilotEndTact := pilotEnd
    sync1EndTact := pilotEnd + sync1Pl
    sync2EndTact := pilotEnd + sync1Pl + sync2Pl
    bitPulseLength := 0
    termSyncEndTact := 0
    pauseEndTact := 0
    bitStartTact := 0 }

/-- `InitBlock(S)` (R204) on the current block. A current block outside the image, or without data, is a cursor that
no run reaches (93 U7; log 13). -/
def TapeUnit.initBlock (t : TapeUnit) (startTact : Nat) : Except Fault TapeUnit :=
  match t.image[t.blockIndex]? with
  | none => .error .tapeCursorOutsideImage
  | some b =>
    match b.data with
    | [] => .error .tapeCursorOutsideImage
    | first :: _ =>
      .ok { t with play := Playback.begin first startTact, lastTact := startTact, initialised := true }

/-! ### `BlockEar(T)`: one function per phase, each falling through to the next (R208) -/

/-- The `Pause` phase. -/
def pauseEar (tact : Nat) (p : Playback) : Playback × Bool :=
  if tact < p.pauseEndTact then (p, true) else ({ p with phase := .completed }, true)

/-- The `TermSync` phase. -/
def termSyncEar (b : TapeBlock) (tact : Nat) (p : Playback) : Playback × Bool :=
  if tact < p.termSyncEndTact then (p, false)
  else pauseEar tact { p with phase := .pause, pauseEndTact := p.termSyncEndTact + b.pauseAfterMs.toNat * pauseMs }

/-- The cursor moved past the bit that is over: its start, mask and byte index (R208, `Data`). -/
def Playback.nextBit (p : Playback) : Playback :=
  let mask := p.bitMask >>> 1
  { p with
    bitStartTact := p.bitStartTact + 2 * p.bitPulseLength
    bitMask := if mask = 0 then 0x80 else mask
    byteIndex := if mask = 0 then p.byteIndex + 1 else p.byteIndex }

/-- The end of the data: the terminating pulse begins where the last bit ended. -/
def Playback.beginTermSync (p : Playback) : Playback :=
  { p with phase := .termSync, termSyncEndTact := p.bitStartTact + termSyncPl }

/-- The `Data` phase: catch up bit by bit. The last argument bounds the passes; a block has at most
`8 * length(data)` bits, so `8 * length(data) + 1` passes always suffice (R208). -/
def dataEar (b : TapeBlock) (tact : Nat) (p : Playback) : Nat → Playback × Bool
  | 0 => termSyncEar b tact p.beginTermSync
  | n + 1 =>
    if tact < p.bitStartTact + p.bitPulseLength then (p, false)
    else if tact < p.bitStartTact + 2 * p.bitPulseLength then (p, true)
    else
      match b.data[p.nextBit.byteIndex]? with
      | some byte => dataEar b tact { p.nextBit with bitPulseLength := pulseLen byte p.nextBit.bitMask } n
      | none => termSyncEar b tact p.nextBit.beginTermSync

/-- The bound on the passes of the `Data` phase (R208). -/
def dataPasses (b : TapeBlock) : Nat := 8 * b.data.length + 1

/-- The `Sync` phase. A byte cursor outside the block is one that no run reaches (log 13). -/
def syncEar (b : TapeBlock) (tact : Nat) (p : Playback) : Except Fault (Playback × Bool) :=
  if tact < p.sync1EndTact then .ok (p, false)
  else if tact < p.sync2EndTact then .ok (p, true)
  else
    match b.data[p.byteIndex]? with
    | none => .error .tapeCursorOutsideImage
    | some byte =>
      .ok (dataEar b tact
        { p with phase := .data, bitStartTact := p.sync2EndTact, bitPulseLength := pulseLen byte p.bitMask }
        (dataPasses b))

/-- The `Pilot` phase. -/
def pilotEar (b : TapeBlock) (tact : Nat) (p : Playback) : Except Fault (Playback × Bool) :=
  if tact < p.pilotEndTact then .ok (p, decide ((tact - p.startTact) / pilotPl % 2 = 0))
  else syncEar b tact { p with phase := .sync }

/-- `BlockEar(T)` (R208): the level of the block at `tact`, and the cursors caught up to it. -/
def blockEar (b : TapeBlock) (tact : Nat) (p : Playback) : Except Fault (Playback × Bool) :=
  match p.phase with
  | .pilot => pilotEar b tact p
  | .sync => syncEar b tact p
  | .data => .ok (dataEar b tact p (dataPasses b))
  | .termSync => .ok (termSyncEar b tact p)
  | .pause => .ok (pauseEar tact p)
  | .completed => .ok (p, true)

/-- The loop of `TAPE.EAR` (R206) over the blocks from the current one on: a completed block is followed by the next,
started at its `pauseEndTact` (R214). -/
def earBlocks (tact : Nat) : List TapeBlock → TapeUnit → Except Fault (TapeUnit × Bool)
  | [], _ => .error .tapeCursorOutsideImage
  | b :: bs, t =>
    match blockEar b tact t.play with
    | .error f => .error f
    | .ok (p, level) =>
      if p.phase ≠ .completed then .ok ({ t with play := p }, level)
      else
        let t1 := { t with play := p, blockIndex := t.blockIndex + 1 }
        match bs with
        | [] => .ok ({ t1 with playerCompleted := true }, true)
        | _ :: _ =>
          match t1.initBlock p.pauseEndTact with
          | .error f => .error f
          | .ok t2 => earBlocks tact bs { t2 with lastTact := tact }

/-- The blocks from the current one on. -/
def TapeUnit.remaining (t : TapeUnit) : List TapeBlock := t.image.drop t.blockIndex

/-! ### Meanings -/

/-- TAPE.INITPLAY (R204). -/
def execTapeInitplay (startTact : Nat) (s : State) : Answer :=
  guardTape s <|
    if s.tape.image.length ≤ s.tape.blockIndex then raise .tapeNoBlock s
    else if s.tape.hasEmptyBlock then raise .tapeEmptyBlock s
    else
      match { s.tape with playerCompleted := false }.initBlock startTact with
      | .error f => .fault f
      | .ok t => complete .done (s.setTape t)

/-- TAPE.EAR (R206, R215 to R217): the level, and the cursors caught up as a side effect. -/
def execTapeEar (tact : Nat) (s : State) : Answer :=
  guardTape s <|
    if s.tape.mode ≠ .load then complete (.bit true) s
    else if s.tape.playerCompleted then complete (.bit true) s
    else if !s.tape.initialised then raise .tapeNotInitialised s
    else if tact < s.tape.lastTact then raise .tapeOrderViolation s
    else
      match earBlocks tact s.tape.remaining { s.tape with lastTact := tact } with
      | .error f => .fault f
      | .ok (t, level) => complete (.bit level) (s.setTape t)

end Sys2Proof.Machine
end

