-- ==== Sys2Proof/Machine/TapeSave.lean ====
section
/-! DEFINITION. The tape SAVE pulse classifier and block assembler: TAPE.MIC (spec 43_tape_save). -/

namespace Sys2Proof.Machine

open Sys2Proof

/-- `w` lies in the window of a nominal width, both ends included (R232). -/
def inWindow (nominal w : Nat) : Bool :=
  decide (nominal - savePulseTolerance ≤ w) && decide (w ≤ nominal + savePulseTolerance)

/-- `Classify(w)` (R232, R233). -/
def classify (w : Nat) : PulseClass :=
  if w < sync1Pl - savePulseTolerance then .tooShort
  else if inWindow sync1Pl w then .sync1
  else if inWindow sync2Pl w then .sync2
  else if inWindow bit0Pl w then .bit0
  else if inWindow termSyncPl w then .termSync
  else if inWindow bit1Pl w then .bit1
  else if inWindow pilotPl w then .pilot
  else if pilotPl + savePulseTolerance < w then .tooLong
  else .unclassified

/-- `Abandon`, and the phase goes to `None` (R240). -/
def SaveState.abandon (v : SaveState) : SaveState :=
  { v with
    phase := .none
    pilotPulseCount := 0
    bitOffset := 0
    currentByte := 0
    prevPulse := .noPulse
    dataBuffer := [] }

/-- A completed bit is shifted in at the bottom; the eighth completes the byte, which a full buffer drops with the
block (R242). -/
def SaveState.shiftBit (capacity : Nat) (bit : Bool) (v : SaveState) : SaveState :=
  let byte : Byte := (v.currentByte <<< 1) ||| BitVec.setWidth 8 (BitVec.ofBool bit)
  if v.bitOffset = 7 then
    if v.dataBuffer.length = capacity then v.abandon
    else { v with dataBuffer := v.dataBuffer ++ [byte], bitOffset := 0, currentByte := 0, prevPulse := .noPulse }
  else { v with currentByte := byte, bitOffset := v.bitOffset + 1, prevPulse := .noPulse }

/-- `DataPulse(c)` (R242); `bit` is the class as a bit: `Bit1` is `true`. -/
def SaveState.dataPulse (capacity : Nat) (bit : Bool) (v : SaveState) : SaveState :=
  match v.prevPulse, bit with
  | .noPulse, false => { v with prevPulse := .bit0 }
  | .noPulse, true => { v with prevPulse := .bit1 }
  | .bit0, false => v.shiftBit capacity false
  | .bit1, true => v.shiftBit capacity true
  | .bit0, true => v.abandon
  | .bit1, false => v.abandon

/-- The first data half-pulse: `Sync2` goes to `Data` (R240). -/
def SaveState.beginData (c : HalfPulse) (v : SaveState) : SaveState :=
  { v with phase := .data, dataBuffer := [], bitOffset := 0, currentByte := 0, prevPulse := c }

/-- The events of `CloseBlock` (R244): the block, and the name of the very first one if it has 19 bytes. -/
def SaveState.closeEvents (pauseAfterMs : BitVec 16) (v : SaveState) : List Event :=
  if v.dataBuffer = [] then []
  else
    .blockSaved { data := v.dataBuffer, pauseAfterMs := pauseAfterMs } ::
      (if v.dataBlockCount + 1 = 1 ∧ v.dataBuffer.length = 19 then [.nameSaved ((v.dataBuffer.drop 2).take 10)] else [])

/-- `CloseBlock` (R244): half bits and partial bytes are discarded. -/
def SaveState.closeBlock (v : SaveState) : SaveState :=
  { v.abandon with dataBlockCount := if v.dataBuffer = [] then v.dataBlockCount else v.dataBlockCount + 1 }

/-! ### `Step(c)`: one function per phase (R240) -/

/-- `None`: a pilot pulse starts a block. -/
def SaveState.stepNone (c : PulseClass) (v : SaveState) : SaveState :=
  if c = .pilot then { v with phase := .pilot, pilotPulseCount := 1 } else v

/-- `Pilot`: pilot pulses are counted; `Sync1` is taken after enough of them. -/
def SaveState.stepPilot (c : PulseClass) (v : SaveState) : SaveState :=
  if c = .pilot then { v with pilotPulseCount := v.pilotPulseCount + 1 }
  else if c = .sync1 ∧ minPilotPulseCount ≤ v.pilotPulseCount then { v with phase := .sync1 }
  else v.abandon

/-- `Sync1`. -/
def SaveState.stepSync1 (c : PulseClass) (v : SaveState) : SaveState :=
  if c = .sync2 then { v with phase := .sync2 } else v.abandon

/-- `Sync2`: the first data half-pulse begins the data. -/
def SaveState.stepSync2 (c : PulseClass) (v : SaveState) : SaveState :=
  if c = .bit0 then v.beginData .bit0 else if c = .bit1 then v.beginData .bit1 else v.abandon

/-- `Data`: data half-pulses, and the terminating pulse that closes the block. -/
def SaveState.stepData (capacity : Nat) (c : PulseClass) (v : SaveState) : SaveState :=
  if c = .bit0 then v.dataPulse capacity false
  else if c = .bit1 then v.dataPulse capacity true
  else if c = .termSync then v.closeBlock
  else v.abandon

/-- `Step(c)` (R240): one transition of the state machine, with the events it emits; only the close of a block emits
any. The phase `Error` absorbs every pulse (R250). -/
def SaveState.step (p : Params) (c : PulseClass) (v : SaveState) : SaveState × List Event :=
  match v.phase with
  | .none => (v.stepNone c, [])
  | .pilot => (v.stepPilot c, [])
  | .sync1 => (v.stepSync1 c, [])
  | .sync2 => (v.stepSync2 c, [])
  | .data => (v.stepData p.saveBufferCapacity c, if c = .termSync then v.closeEvents p.savePauseMs else [])
  | .error => (v, [])

/-- An accepted transition at `tact` to level `value` (R236). -/
def SaveState.transition (p : Params) (tact : Nat) (value : Bool) (v : SaveState) : SaveState × List Event :=
  SaveState.step p (classify (tact - v.lastActivityTact)) { v with micBitState := value, lastActivityTact := tact }

/-! ### Meaning -/

/-- TAPE.MIC (R236). -/
def execTapeMic (tact : Nat) (value : Bool) (s : State) : Answer :=
  guardTape s <|
    if s.tape.mode ≠ .save then complete .done s
    else if value = s.tape.save.micBitState then complete .done s
    else if tact < s.tape.save.lastActivityTact then raise .tapeOrderViolation s
    else
      let (v, es) := s.tape.save.transition s.params tact value
      complete .done ((s.setTape { s.tape with save := v }).emit es)

end Sys2Proof.Machine
end

