-- ==== Sys2Proof/Machine/TapeMode.lean ====
section
/-! DEFINITION. The tape mode register, its transitions and the fast-load facility (spec 44_tape_mode). -/

namespace Sys2Proof.Machine

open Sys2Proof

/-! ### The transitions (R276 to R282), shared by the direct operations and TAPE.SETMODE -/

/-- The tape unit with a finished tape restarted: `blockIndex` outside the image goes to 0 (R276). -/
def TapeUnit.restartFinished (t : TapeUnit) : TapeUnit :=
  { t with blockIndex := if t.image.length ≤ t.blockIndex then 0 else t.blockIndex }

/-- `EnterLoad` (R276). -/
def enterLoad (tact : Nat) (s : State) : Answer :=
  if s.tape.mode ≠ .passive then complete .done s
  else if s.tape.hasEmptyBlock then raise .tapeEmptyBlock s
  else
    let t := { s.tape.restartFinished with mode := .load }
    if t.image = [] then
      complete .done ((s.setTape { t with playerCompleted := true, initialised := false }).emit [.enteredLoad])
    else
      match { t with playerCompleted := false }.initBlock tact with
      | .error f => .fault f
      | .ok t' => complete .done ((s.setTape t').emit [.enteredLoad])

/-- `LeaveLoad` (R278): only the mode changes. -/
def leaveLoad (s : State) : Answer :=
  if s.tape.mode = .load then complete .done ((s.setTape { s.tape with mode := .passive }).emit [.leftLoad])
  else complete .done s

/-- `EnterSave` (R280): all save-side accumulators are reset, MIC rests at 1, the inactivity clock starts. -/
def enterSave (tact : Nat) (s : State) : Answer :=
  if s.tape.mode ≠ .passive then complete .done s
  else
    complete .done
      ((s.setTape { s.tape with mode := .save, save := { SaveState.reset with lastActivityTact := tact } }).emit
        [.enteredSave])

/-- `LeaveSave` (R282): only the mode changes. -/
def leaveSave (s : State) : Answer :=
  if s.tape.mode = .save then complete .done ((s.setTape { s.tape with mode := .passive }).emit [.leftSave])
  else complete .done s

/-! ### The fast-load facility (R285 to R287) -/

/-- The ascending `MemWrite`s of the block body, addresses modulo 65536. -/
def copyBody (m : Memory) (a : Addr) : List Byte → Memory
  | [] => m
  | v :: vs => copyBody (m.write a.toNat v) (a + 1) vs

/-- The callbacks of `copyBody`, in order. -/
def copyCalls (a : Addr) : List Byte → List Callback
  | [] => []
  | v :: vs => .memWrite a v :: copyCalls (a + 1) vs

/-- The XOR of a byte sequence. -/
def xorOf (bs : List Byte) : Byte := bs.foldl (· ^^^ ·) 0

/-- `k`: the body bytes present on the tape, at most the DE asked for (R285). -/
def bodyLength (de : BitVec 16) (d : List Byte) : Nat := min de.toNat (d.length - 1)

/-- The carry and zero flags of a copied block (R285, R287). -/
def fastLoadFlags (de : BitVec 16) (d : List Byte) : Bool × Bool :=
  if de.toNat + 2 ≤ d.length then
    let h := xorOf (d.take (de.toNat + 2))
    (h == 0, h == 1)
  else (false, false)

/-- The host after a block whose type matched was copied (R285). -/
def fastLoadCopy (p : Params) (d : List Byte) (h : HostWorld) : HostWorld :=
  let k := bodyLength h.cpu.de d
  let flags := fastLoadFlags h.cpu.de d
  { h with
    mem := copyBody h.mem h.cpu.ix ((d.drop 1).take k)
    cpu := { h.cpu.setFlags flags.1 flags.2 with
      ix := h.cpu.ix + BitVec.ofNat 16 k
      de := h.cpu.de - BitVec.ofNat 16 k
      pc := p.loadResume } }

/-- The callbacks of `fastLoadCopy` after the type was read. -/
def fastLoadCopyCalls (p : Params) (d : List Byte) (h : HostWorld) : List Callback :=
  let k := bodyLength h.cpu.de d
  let flags := fastLoadFlags h.cpu.de d
  [.regGet .de, .regGet .ix] ++ copyCalls h.cpu.ix ((d.drop 1).take k) ++
    [.regSet .ix (h.cpu.ix + BitVec.ofNat 16 k), .regSet .de (h.cpu.de - BitVec.ofNat 16 k),
      .setFlags flags.1 flags.2, .setPc p.loadResume]

/-- The host after a type mismatch (R285). -/
def fastLoadMismatch (p : Params) (h : HostWorld) : HostWorld :=
  { h with cpu := { h.cpu.setFlags false false with pc := p.loadMismatch } }

/-- The tape unit advanced to the next block (R285). -/
def TapeUnit.advance (t : TapeUnit) : TapeUnit :=
  { t with
    blockIndex := t.blockIndex + 1
    initialised := false
    playerCompleted := if t.image.length ≤ t.blockIndex + 1 then true else t.playerCompleted }

/-- `FastLoad` (R285). -/
def fastLoad (s : State) : Answer :=
  match s.tape.image[s.tape.blockIndex]? with
  | none => complete .done s
  | some b =>
    let s1 := s.setTape s.tape.advance
    let r := s.params.fastLoadTypeReg
    if b.data.head? = some (s.host.cpu.get8 r) then
      completeWith .done (.regGet (.reg8 r) :: fastLoadCopyCalls s.params b.data s.host)
        (s1.setHost (fastLoadCopy s.params b.data s.host))
    else
      completeWith .done [.regGet (.reg8 r), .setFlags false false, .setPc s.params.loadMismatch]
        (s1.setHost (fastLoadMismatch s.params s.host))

/-! ### Meanings -/

/-- TAPE.RESET (R272): every element of the unit at its reset value; the image stays; no event. -/
def execTapeReset (s : State) : Answer := complete .done (s.setTape (TapeUnit.reset s.tape.image))

/-- TAPE.SETMODE (R274, R275): only the tests of the current mode, at most one transition. -/
def execTapeSetmode (pc : Addr) (tact : Nat) (s : State) : Answer :=
  guardTape s <|
    match s.tape.mode with
    | .passive =>
      if pc = s.params.loadHook then
        if s.params.fastLoadEnabled then fastLoad s else enterLoad tact s
      else if pc = s.params.saveHook then enterSave tact s
      else complete .done s
    | .load =>
      if s.tape.playerCompleted = true ∨ pc = s.params.errorHook then leaveLoad s else complete .done s
    | .save =>
      if pc = s.params.errorHook ∨ s.tape.save.lastActivityTact + saveInactivityT ≤ tact then leaveSave s
      else complete .done s

/-- TAPE.ENTERLOAD (R276). -/
def execTapeEnterload (tact : Nat) (s : State) : Answer := guardTape s (enterLoad tact s)

/-- TAPE.LEAVELOAD (R278). -/
def execTapeLeaveload (s : State) : Answer := guardTape s (leaveLoad s)

/-- TAPE.ENTERSAVE (R280). -/
def execTapeEntersave (tact : Nat) (s : State) : Answer := guardTape s (enterSave tact s)

/-- TAPE.LEAVESAVE (R282). -/
def execTapeLeavesave (s : State) : Answer := guardTape s (leaveSave s)

/-- TAPE.FASTLOAD (R285): `tact` is accepted and ignored. The operation is present only where `FAST_LOAD_ENABLED`
(R285, R8; log 14). -/
def execTapeFastload (_tact : Nat) (s : State) : Answer :=
  if s.params.fastLoadEnabled then guardTape s (fastLoad s) else .refused .fastLoadAbsent

end Sys2Proof.Machine
end

