-- ==== Sys2Proof/Machine/Video.lean ====
section
/-! DEFINITION. The video unit: VID.RESET, VID.BUILD, VID.RENDER, VID.NEWFRAME, VID.CONTEND (spec 40_video_timing R142,
R150; 41_video_render). -/

namespace Sys2Proof.Machine

open Sys2Proof

/-! ### Colours (R171 to R173) -/

/-- The ink colour of an attribute byte: bits 2:0 and bright (R171, R172). -/
def inkOf (a : Byte) : Byte := 0#4 ++ a.extractLsb' 6 1 ++ a.extractLsb' 0 3
/-- The paper colour of an attribute byte: bits 5:3 and bright (R171, R172). -/
def paperOf (a : Byte) : Byte := 0#4 ++ a.extractLsb' 6 1 ++ a.extractLsb' 3 3

/-- `flashOffColours[i]`, i = 256 * pixel bit + attribute (R172). -/
def flashOffColours (i : BitVec 9) : Byte :=
  let a := i.extractLsb' 0 8
  if i.getLsbD 8 then inkOf a else paperOf a

/-- `flashOnColours[i]` (R172): ink and paper swapped where the flash bit is set. -/
def flashOnColours (i : BitVec 9) : Byte :=
  let a := i.extractLsb' 0 8
  if i.getLsbD 8 = a.getLsbD 7 then paperOf a else inkOf a

/-- `Colour(b, a)` (R173). -/
def colour (flashPhase b : Bool) (a : Byte) : Byte :=
  let i : BitVec 9 := BitVec.ofBool b ++ a
  if flashPhase then flashOnColours i else flashOffColours i

/-! ### One tact (R175 to R185) -/

/-- `TT[tact mod FRAME_T]`. The table covers every index below `FRAME_T` (R24, R154), so the default is read only in
states that no run reaches (log 16). -/
def Video.descriptor (v : Video) (tact : Nat) : TactDescriptor := v.tt.getD (tact % v.geometry.frameT) TactDescriptor.idle

/-- Write the two pixels of a tact at index `o` of the buffer. -/
def Video.putPixels (v : Video) (o : Nat) (c0 c1 : Byte) : Video := { v with pb := (v.pb.set o c0).set (o + 1) c1 }

/-- The index of a descriptor's first pixel (R175). -/
def Video.pixelIndex (v : Video) (d : TactDescriptor) : Nat := d.y.toNat * v.geometry.screenWidth + d.x.toNat

/-- The two border pixels of a tact (R177). -/
def Video.putBorder (v : Video) (h : HostWorld) (d : TactDescriptor) : Video :=
  v.putPixels (v.pixelIndex d) (h.border &&& 0x0F) (h.border &&& 0x0F)

/-- `j`: the position of table index `i` inside the four tacts of a pixel byte (R175). -/
def Video.bytePosition (v : Video) (i : Nat) : Nat := (i % v.geometry.lineT - v.geometry.borderLeftT) % 4

/-- The two pixels of a pixel byte that the tact at table index `i` displays: bits 7 - 2j and 6 - 2j (R180, R183). -/
def Video.putByte (v : Video) (i : Nat) (d : TactDescriptor) (pixels attr : Byte) : Video :=
  let j := v.bytePosition i
  v.putPixels (v.pixelIndex d) (colour v.flashPhase (pixels.getLsbD (7 - 2 * j)) attr)
    (colour v.flashPhase (pixels.getLsbD (6 - 2 * j)) attr)

/-- `RenderTact(i)` (R175), with the callbacks it makes in order. -/
def renderTact (h : HostWorld) (v : Video) (i : Nat) : Video × List Callback :=
  let d := v.descriptor i
  let pixelByte := h.mem.read d.pixelFetchAddress.toNat
  let attrByte := h.mem.read d.attributeFetchAddress.toNat
  match d.phase with
  | .none => (v, [])
  | .border => (v.putBorder h d, [.borderColour])
  | .borderFetchPixel => ({ v.putBorder h d with pixelByte1 := pixelByte }, [.borderColour, .memRead d.pixelFetchAddress])
  | .borderFetchAttr => ({ v.putBorder h d with attrByte1 := attrByte }, [.borderColour, .memRead d.attributeFetchAddress])
  | .displayByte1 => (v.putByte i d v.pixelByte1 v.attrByte1, [])
  | .displayByte1FetchByte2 =>
    ({ v.putByte i d v.pixelByte1 v.attrByte1 with pixelByte2 := pixelByte }, [.memRead d.pixelFetchAddress])
  | .displayByte1FetchAttr2 =>
    ({ v.putByte i d v.pixelByte1 v.attrByte1 with attrByte2 := attrByte }, [.memRead d.attributeFetchAddress])
  | .displayByte2 => (v.putByte i d v.pixelByte2 v.attrByte2, [])
  | .displayByte2FetchByte1 =>
    ({ v.putByte i d v.pixelByte2 v.attrByte2 with pixelByte1 := pixelByte }, [.memRead d.pixelFetchAddress])
  | .displayByte2FetchAttr1 =>
    ({ v.putByte i d v.pixelByte2 v.attrByte2 with attrByte1 := attrByte }, [.memRead d.attributeFetchAddress])

/-- Render `n` tacts in ascending order from `tact` on, each reduced modulo the frame (R174). -/
def renderTacts (h : HostWorld) (v : Video) (tact : Nat) : Nat → Video × List Callback
  | 0 => (v, [])
  | n + 1 =>
    let (v1, c1) := renderTact h v (tact % v.geometry.frameT)
    let (v2, c2) := renderTacts h v1 (tact + 1) n
    (v2, c1 ++ c2)

/-- How many tacts `fromTact..toTact` names, both ends included; none where `fromTact > toTact` (R174). -/
def tactsIn (fromTact toTact : Nat) : Nat := toTact + 1 - fromTact

/-! ### Meanings -/

/-- VID.RESET (R188): `VID.BUILD` of the construction-time geometry, which is valid by assumption (log 20). -/
def execVidReset (s : State) : Answer := complete .done (s.setVideo (buildVideo s.params.geometry 0 false))

/-- VID.BUILD (R142): `frameCount` and `flashPhase` are kept. -/
def execVidBuild (g : Geometry) (s : State) : Answer :=
  if g.valid then complete .done (s.setVideo (buildVideo g s.video.frameCount s.video.flashPhase))
  else raise .geometryInvalid s

/-- VID.RENDER (R174). -/
def execVidRender (fromTact toTact : Nat) (s : State) : Answer :=
  let (v, calls) := renderTacts s.host s.video fromTact (tactsIn fromTact toTact)
  completeWith .done calls (s.setVideo v)

/-- VID.NEWFRAME (R186): only the frame counter and the flash phase. -/
def execVidNewframe (s : State) : Answer :=
  let n := s.video.frameCount + 1
  let flash := if n % s.params.flashToggleFrames = 0 then !s.video.flashPhase else s.video.flashPhase
  complete .done (s.setVideo { s.video with frameCount := n, flashPhase := flash })

/-- VID.CONTEND (R150): returns the delay and changes nothing. -/
def execVidContend (tact : Nat) (s : State) : Answer :=
  complete (.delay (s.video.descriptor tact).contentionDelay) s

end Sys2Proof.Machine
end

