-- ==== Sys2Proof/Machine/Dispatch.lean ====
section
/-! DEFINITION. What each instruction does: one arm per constructor, each the meaning of its instruction. -/

namespace Sys2Proof.Machine

open Sys2Proof

def exec (i : Instr) (s : State) : Host.Outcome State Fault Refusal :=
  match i with
  | .vidReset => Sys2Proof.Machine.execVidReset s
  | .vidBuild g => Sys2Proof.Machine.execVidBuild g s
  | .vidRender a b => Sys2Proof.Machine.execVidRender a b s
  | .vidNewframe => Sys2Proof.Machine.execVidNewframe s
  | .vidContend t => Sys2Proof.Machine.execVidContend t s
  | .tapeReset => Sys2Proof.Machine.execTapeReset s
  | .tapeSetmode pc t => Sys2Proof.Machine.execTapeSetmode pc t s
  | .tapeEnterload t => Sys2Proof.Machine.execTapeEnterload t s
  | .tapeLeaveload => Sys2Proof.Machine.execTapeLeaveload s
  | .tapeEntersave t => Sys2Proof.Machine.execTapeEntersave t s
  | .tapeLeavesave => Sys2Proof.Machine.execTapeLeavesave s
  | .tapeInitplay t => Sys2Proof.Machine.execTapeInitplay t s
  | .tapeEar t => Sys2Proof.Machine.execTapeEar t s
  | .tapeMic t v => Sys2Proof.Machine.execTapeMic t v s
  | .tapeFastload t => Sys2Proof.Machine.execTapeFastload t s
  | .fdcReset => Sys2Proof.Machine.execFdcReset s
  | .fdcWrite b => Sys2Proof.Machine.execFdcWrite b s
  | .fdcRead => Sys2Proof.Machine.execFdcRead s
  | .fdcStatus => Sys2Proof.Machine.execFdcStatus s
  | .dskCreate => Sys2Proof.Machine.execDskCreate s
  | .dskOpen image => Sys2Proof.Machine.execDskOpen image s
  | .dskRead h t n k => Sys2Proof.Machine.execDskRead h t n k s
  | .dskWrite h t n data => Sys2Proof.Machine.execDskWrite h t n data s
  | .fdcSpecify p0 p1 => Sys2Proof.Machine.execFdcSpecify p0 p1 s
  | .fdcSenseDriveStatus p0 => Sys2Proof.Machine.execFdcSenseDriveStatus p0 s
  | .fdcRecalibrate p0 => Sys2Proof.Machine.execFdcRecalibrate p0 s
  | .fdcSenseInterruptStatus => Sys2Proof.Machine.execFdcSenseInterruptStatus s
  | .fdcSeek p0 p1 => Sys2Proof.Machine.execFdcSeek p0 p1 s
  | .fdcReadId b6 p0 => Sys2Proof.Machine.execFdcReadId b6 p0 s
  | .fdcReadData hi p => Sys2Proof.Machine.execFdcReadData hi p s
  | .fdcFormatTrack b6 b1 p => Sys2Proof.Machine.execFdcFormatTrack b6 b1 p s
  | .fdcWriteData hi p => Sys2Proof.Machine.execFdcWriteData hi p s
  | .fdcNone b => Sys2Proof.Machine.execFdcNone b s

end Sys2Proof.Machine
end

