-- ==== Sys2Proof/Machine/Fetch.lean ====
section
/-! DEFINITION. How the next input is taken (log 1, log 21): the bytes of an invocation are decoded and run, an action
of the host changes the host's data; and how a table word is placed as the next input. -/

namespace Sys2Proof.Machine

open Sys2Proof

/-- The tape unit holds the reset value of every element (R60). -/
def TapeUnit.atReset (t : TapeUnit) : Bool := decide (t = TapeUnit.reset t.image)

/-- An action of the host between operations (R22, R88). A new tape image leaves the tape unit stuck until TAPE.RESET
unless it is in its reset state (93 U7; log 12). -/
def applyHostAction (a : HostAction) (s : State) : State :=
  match a with
  | .memWrite addr v => s.setHost { s.host with mem := s.host.mem.write addr.toNat v }
  | .setBorder v => s.setHost { s.host with border := v }
  | .setCpu cpu => s.setHost { s.host with cpu := cpu }
  | .setTape image => s.setTape { s.tape with image := image, imageStale := !s.tape.atReset }

/-- What is pending after an invocation that left the bytes `r` of its chunk. -/
def pushBack (f : Format) (r : List Byte) (rest : List HostInput) : List HostInput :=
  if r = [] then rest else .invoke f r :: rest

/-- One step: the next input. With none pending nothing happens (log 15). -/
def runNext (s : State) : Answer :=
  match s.inputs with
  | [] => .next s
  | .act a :: rest => .next (applyHostAction a (s.setInputs rest))
  | .invoke f bytes :: rest =>
    match decode f bytes with
    | .error e => .refused (.malformedInvocation e)
    | .ok (i, r) => exec i (s.setInputs (pushBack f r rest))

/-- A table word as the next input, in the format `tableFormat` chooses (log 3). -/
def placeWord (s : State) (nbits w : Nat) : State :=
  s.setInputs (.invoke (tableFormat nbits w) (tableBytes nbits w) :: s.inputs)

end Sys2Proof.Machine
end

