-- ==== Sys2Proof/Machine/Step.lean ====
section
/-! DEFINITION. The step of the machine, and a table word placed where it takes its next instruction. -/

namespace Sys2Proof.Machine

open Sys2Proof

/-- One step: the host's next invocation or action (Machine/Fetch.lean). -/
def step (s : State) : Host.Outcome State Fault Refusal := runNext s

/-- `s` with a table word as the host's next invocation: the next step runs exactly it. -/
def State.withFetchWord (s : State) (nbits w : Nat) : State := placeWord s nbits w

end Sys2Proof.Machine
end

