-- ==== Sys2Proof/Safety.lean ====
section
/-! DEFINITION. What a state in good order is, and the specification-side functions the statements compare the machine
with: the EAR timeline of 42_tape_load R201, the pulse trains of 43_tape_save R254, the FDC phases of 45_fdc_protocol
R300. Nothing here is used by the machine. -/

namespace Sys2Proof.Machine

open Sys2Proof

/-! ### Answers -/

/-- The machine goes on. -/
def Goes (a : Answer) : Prop := ∃ t, a = .next t

/-- The result of the operation is an error (60_exceptions R420). -/
def State.raised (s : State) : Bool :=
  match s.result with
  | .error _ => true
  | _ => false

/-! ### Invariants -/

/-- The parameters are in their ranges: the construction-time geometry is valid (R188), the flash period is a period,
ST3's computed bits are clear in `FDC_ST3_FLAGS` (R349). -/
structure ParamsInv (p : Params) : Prop where
  geometry : p.geometry.valid = true
  flash : 0 < p.flashToggleFrames
  st3Flags : p.fdcSt3Flags &&& 0x17 = 0

/-- The video unit (10_state R23 to R25): a valid geometry, its table, a buffer of its size holding palette indices. -/
structure VideoInv (v : Video) : Prop where
  geometry : v.geometry.valid = true
  table : v.tt = buildTable v.geometry
  size : v.pb.length = v.geometry.pixelCount
  palette : ∀ b ∈ v.pb, b.toNat < 16

/-- The byte masks with exactly one bit set (R32). -/
def oneHotMasks : List Byte := [0x80, 0x40, 0x20, 0x10, 0x08, 0x04, 0x02, 0x01]

/-- The tape unit (10_state R31 to R36). The two cursor clauses hold while the image is the one the cursors were made
for (93 U7). -/
structure TapeInv (capacity : Nat) (t : TapeUnit) : Prop where
  block : t.imageStale = false → t.blockIndex ≤ t.image.length
  playing : t.imageStale = false → t.initialised = true → t.playerCompleted = false →
    t.blockIndex < t.image.length ∧ t.hasEmptyBlock = false
  cursor : t.play.phase = .pilot ∨ t.play.phase = .sync → t.play.byteIndex = 0
  mask : t.play.bitMask ∈ oneHotMasks
  pulse : t.play.bitPulseLength = 0 ∨ t.play.bitPulseLength = bit0Pl ∨ t.play.bitPulseLength = bit1Pl
  buffer : t.save.dataBuffer.length ≤ capacity
  noError : t.save.phase ≠ .error

/-- The five protocol phases (R300). -/
inductive FdcPhase where
  | acceptingCommand | receivingParameters | receivingData | sendingData | sendingResult
deriving DecidableEq, Repr

/-- The row of R300's table that a phase has: `acceptingCommand`, `executionStatus`, DIO, MSR. -/
def FdcPhase.row : FdcPhase → Bool × Bool × Bool × Byte
  | .acceptingCommand => (true, false, false, 0x80)
  | .receivingParameters => (false, false, false, 0x90)
  | .receivingData => (false, true, false, 0xB0)
  | .sendingData => (false, true, true, 0xF0)
  | .sendingResult => (false, false, true, 0xD0)

/-- The state is in the phase: its stored elements are the phase's row. -/
def FdcState.inPhase (f : FdcState) (ph : FdcPhase) : Prop :=
  (f.acceptingCommand, f.executionStatus, f.dio, f.mainStatusRegister) = ph.row

/-- The floppy unit (10_state R50, 45_fdc_protocol R322). -/
structure FdcInv (f : FdcState) : Prop where
  phase : ∃ ph, f.inPhase ph
  idle : f.acceptingCommand = true → f.paramsReceived = 0 ∧ f.executionStatus = false
  accepting : f.acceptingCommand = true ↔ f.mainStatusRegister = 0x80
  dioResult : f.dio = true ↔ f.resultCursor < f.pendingResultBytes.length
  exm : f.exm = f.executionStatus
  params : f.inPhase .receivingParameters → f.paramsReceived < f.activeCommand.paramCount
  dataIn : f.inPhase .receivingData →
    f.dataCursor < f.dataLen ∧ f.dataLen = f.pendingDataBytes.length ∧ 1 ≤ f.dataLen ∧ f.dataLen ≤ 512
  dataOut : f.inPhase .sendingData → f.dataCursor < f.pendingDataBytes.length
  tracks : ∀ d : BitVec 2, (driveGet f.trackPerDrive d).toNat ≤ 79
  lengths : f.pendingResultBytes.length ≤ 7 ∧ f.pendingDataBytes.length ≤ 512 ∧ f.dataLen ≤ 512

/-- An attached disk (10_state R52, 47_disk_image R392, R396): the fixed geometry, a region in canonical form inside its
size, the header of a created image. -/
structure DiskInv (d : Disk) : Prop where
  geometry : d.doubleSided = 1 ∧ d.tracks = 40 ∧ d.sectorsPerTrack = 9
  canonical : Memory.wf d.region = true
  inside : Memory.within diskImageSize d.region = true
  header : Memory.readBytes d.region 0 8 = diskHeader

/-- The whole machine. -/
structure MachineInv (s : State) : Prop where
  params : ParamsInv s.params
  video : VideoInv s.video
  tape : TapeInv s.params.saveBufferCapacity s.tape
  fdc : FdcInv s.fdc
  disk : ∀ d, s.disk = some d → DiskInv d
  hostMemory : Memory.wf s.host.mem = true ∧ Memory.within 65536 s.host.mem = true

end Sys2Proof.Machine

namespace Sys2Proof.Spec

open Sys2Proof Sys2Proof.Machine

/-! ### The tact timing table (40_video_timing R141 to R148), field by field -/

/-- The line is one of the display lines (R143). -/
def displayLine (g : Geometry) (line : Nat) : Bool :=
  decide (g.firstDisplayLine ≤ line ∧ line < g.firstDisplayLine + g.displayLines)

/-- The tact has pixels (R144). -/
def visible (g : Geometry) (line t : Nat) : Bool :=
  decide (g.firstVisibleLine ≤ line ∧ line < g.firstVisibleLine + g.screenLines ∧
    t < g.borderLeftT + g.displayT + g.borderRightT)

/-- The phase of position `p` of a display line's display area of `width` tacts (R145). -/
def displayPhase (width p : Nat) : VideoPhase :=
  if p % 8 < 2 then .displayByte1
  else if p % 8 = 2 then .displayByte1FetchByte2
  else if p % 8 = 3 then .displayByte1FetchAttr2
  else if p % 8 < 6 ∨ width < p + 3 then .displayByte2
  else if p % 8 = 6 then .displayByte2FetchByte1
  else .displayByte2FetchAttr1

/-- The phase of tact `t` of a line (R144, R145), for the prefetch distances 2 and 1 (R149). -/
def phaseAt (g : Geometry) (line t : Nat) : VideoPhase :=
  if visible g line t = false then .none
  else if displayLine g line = false then .border
  else if t + 2 = g.borderLeftT then .borderFetchPixel
  else if t + 1 = g.borderLeftT then .borderFetchAttr
  else if t < g.borderLeftT ∨ g.borderLeftT + g.displayT ≤ t then .border
  else displayPhase g.displayT (t - g.borderLeftT)

/-- The address of pixel byte `c` of display row `r` (R146), by the row's thirds, lines and character rows. -/
def pixelByteAddress (g : Geometry) (r c : Nat) : Nat :=
  g.screenBase + r / 64 * 2048 + r % 8 * 256 + r / 8 % 8 * 32 + c

/-- The address of the attribute of byte column `c` of display row `r` (R147). -/
def attributeAddress (g : Geometry) (r c : Nat) : Nat := g.attrBase + r / 8 * 32 + c

/-- The phases that fetch a pixel byte (R120). -/
def fetchesPixel : VideoPhase → Bool
  | .borderFetchPixel | .displayByte1FetchByte2 | .displayByte2FetchByte1 => true
  | _ => false

/-- The phases that fetch an attribute byte (R120). -/
def fetchesAttribute : VideoPhase → Bool
  | .borderFetchAttr | .displayByte1FetchAttr2 | .displayByte2FetchAttr1 => true
  | _ => false

/-- The phases that display from the first latch pair (R120). -/
def showsByte1 : VideoPhase → Bool
  | .displayByte1 | .displayByte1FetchByte2 | .displayByte1FetchAttr2 => true
  | _ => false

/-- The phases that display from the second latch pair (R120). -/
def showsByte2 : VideoPhase → Bool
  | .displayByte2 | .displayByte2FetchByte1 | .displayByte2FetchAttr1 => true
  | _ => false

/-- The phases that show the border colour (R120). -/
def showsBorder : VideoPhase → Bool
  | .border | .borderFetchPixel | .borderFetchAttr => true
  | _ => false

/-- The contention delay of tact `t` of a line (R148). -/
def contentionAt (g : Geometry) (line t : Nat) : Nat :=
  if displayLine g line = true ∧ g.borderLeftT - g.contentionLeadT ≤ t ∧ t < g.borderLeftT - g.contentionLeadT + g.displayT
  then g.contentionPattern.getD ((t - (g.borderLeftT - g.contentionLeadT)) % 8) 0
  else 0

/-! ### Pixels (41_video_render R171 to R185) -/

/-- The ink colour of an attribute: bits 2:0, and 8 where bright (R171, R172). -/
def ink (a : Byte) : Byte := BitVec.ofNat 8 (a.toNat % 8 + 8 * (a.toNat / 64 % 2))

/-- The paper colour of an attribute: bits 5:3, and 8 where bright (R171, R172). -/
def paper (a : Byte) : Byte := BitVec.ofNat 8 (a.toNat / 8 % 8 + 8 * (a.toNat / 64 % 2))

/-- The colour of a pixel: ink and paper change places where the flash phase is on and the attribute flashes (R172,
R173). -/
def pixelColour (flashPhase bit : Bool) (a : Byte) : Byte :=
  if (bit ^^ (flashPhase && decide (128 ≤ a.toNat))) = true then ink a else paper a

/-- The two pixels of the tact at index `i` of the table with descriptor `d`, if it has pixels (R176, R177, R180,
R183). -/
def pixelsOf (h : HostWorld) (v : Video) (i : Nat) (d : TactDescriptor) : Option (Byte × Byte) :=
  let j := (i % v.geometry.lineT - v.geometry.borderLeftT) % 4
  if showsBorder d.phase then some (h.border &&& 0x0F, h.border &&& 0x0F)
  else if showsByte1 d.phase then
    some (pixelColour v.flashPhase (v.pixelByte1.getLsbD (7 - 2 * j)) v.attrByte1,
      pixelColour v.flashPhase (v.pixelByte1.getLsbD (6 - 2 * j)) v.attrByte1)
  else if showsByte2 d.phase then
    some (pixelColour v.flashPhase (v.pixelByte2.getLsbD (7 - 2 * j)) v.attrByte2,
      pixelColour v.flashPhase (v.pixelByte2.getLsbD (6 - 2 * j)) v.attrByte2)
  else none

/-- `after` is `before` with the two pixels at index `o` written, where there are any. -/
def PixelsWritten (before after : List Byte) (o : Nat) (px : Option (Byte × Byte)) : Prop :=
  after.length = before.length ∧
    ∀ k < before.length, after[k]? =
      match px with
      | none => before[k]?
      | some (c0, c1) => if k = o then some c0 else if k = o + 1 then some c1 else before[k]?

/-- The four latches after the tact's fetch: `pixelByte1`, `attrByte1`, `pixelByte2`, `attrByte2` (R178 to R185). -/
def latchesAfter (h : HostWorld) (v : Video) (d : TactDescriptor) : Byte × Byte × Byte × Byte :=
  let p := h.mem.read d.pixelFetchAddress.toNat
  let a := h.mem.read d.attributeFetchAddress.toNat
  match d.phase with
  | .borderFetchPixel | .displayByte2FetchByte1 => (p, v.attrByte1, v.pixelByte2, v.attrByte2)
  | .borderFetchAttr | .displayByte2FetchAttr1 => (v.pixelByte1, a, v.pixelByte2, v.attrByte2)
  | .displayByte1FetchByte2 => (v.pixelByte1, v.attrByte1, p, v.attrByte2)
  | .displayByte1FetchAttr2 => (v.pixelByte1, v.attrByte1, v.pixelByte2, a)
  | _ => (v.pixelByte1, v.attrByte1, v.pixelByte2, v.attrByte2)

/-- The callbacks of one tact: the border colour before the fetch (20_memory R85). -/
def callsOf (d : TactDescriptor) : List Callback :=
  (if showsBorder d.phase then [.borderColour] else []) ++
    (if fetchesPixel d.phase then [.memRead d.pixelFetchAddress] else []) ++
    (if fetchesAttribute d.phase then [.memRead d.attributeFetchAddress] else [])

/-! ### The EAR timeline (42_tape_load R201), in tacts elapsed since the start of the block -/

/-- The eight bits of a byte, most significant first (20_memory R77). -/
def byteBits (b : Byte) : List Bool :=
  [b.getLsbD 7, b.getLsbD 6, b.getLsbD 5, b.getLsbD 4, b.getLsbD 3, b.getLsbD 2, b.getLsbD 1, b.getLsbD 0]

/-- The bits of a byte sequence in order. -/
def dataBits (bs : List Byte) : List Bool := bs.flatMap byteBits

/-- `w(m)`: the half-pulse width of a bit (R201). -/
def halfWidth (bit : Bool) : Nat := if bit then 1710 else 855

/-- The pilot count of a block's data (R202). -/
def pilotCount : List Byte → Nat
  | [] => 0
  | b :: _ => if b.getLsbD 7 then 3223 else 8063

/-- The tacts the bits take. -/
def bitsTime : List Bool → Nat
  | [] => 0
  | b :: bs => 2 * halfWidth b + bitsTime bs

/-- The tacts a whole block takes, its pause included (R201). -/
def blockTime (b : TapeBlock) : Nat :=
  pilotCount b.data * 2168 + 667 + 735 + bitsTime (dataBits b.data) + 947 + b.pauseAfterMs.toNat * 3500

/-- The level after the data: the terminating pulse is low, the pause and what follows are high (R201). -/
def tailLevel (e : Nat) : Bool := decide (947 ≤ e)

/-- The level `e` tacts into the data: each bit low for its half-pulse, then high for it (R201). -/
def bitsLevel : List Bool → Nat → Bool
  | [], e => tailLevel e
  | b :: bs, e =>
    if e < halfWidth b then false
    else if e < 2 * halfWidth b then true
    else bitsLevel bs (e - 2 * halfWidth b)

/-- The EAR level `e` tacts after the block's start (the table of R201). -/
def blockLevel (b : TapeBlock) (e : Nat) : Bool :=
  let pilot := pilotCount b.data * 2168
  if e < pilot then decide (e / 2168 % 2 = 0)
  else if e < pilot + 667 then false
  else if e < pilot + 667 + 735 then true
  else bitsLevel (dataBits b.data) (e - (pilot + 667 + 735))

/-- The EAR level of consecutive blocks, each starting where the one before it ended; 1 after the last (R214). -/
def tapeLevel : List TapeBlock → Nat → Bool
  | [], _ => true
  | b :: bs, e => if e < blockTime b then blockLevel b e else tapeLevel bs (e - blockTime b)

/-! ### Pulse trains for TAPE.MIC (43_tape_save R254, 30_encoding R132) -/

/-- The nominal pulse widths that save `bs` after `n` pilot pulses (R254). -/
def savePulses (n : Nat) (bs : List Byte) : List Nat :=
  List.replicate n 2168 ++ [667, 735] ++ (dataBits bs).flatMap (fun b => [halfWidth b, halfWidth b]) ++ [947]

/-- Feed MIC transitions of the given widths, each toggling the level; none where the machine stops. -/
def runPulses : List Nat → State → Option State
  | [], s => some s
  | w :: ws, s =>
    match exec (.tapeMic (s.tape.save.lastActivityTact + w) (!s.tape.save.micBitState)) s with
    | .next t => runPulses ws t
    | _ => none

/-- The instructions one after another; none where the machine stops. -/
def runAll : List Instr → State → Option State
  | [], s => some s
  | i :: is, s =>
    match exec i s with
    | .next t => runAll is t
    | _ => none

/-- The instructions one after another, with the callbacks of all of them in order; none where the machine stops. -/
def runCalls : List Instr → State → Option (State × List Callback)
  | [], s => some (s, [])
  | i :: is, s =>
    match exec i s with
    | .next t => (runCalls is t).map fun u => (u.1, t.calls ++ u.2)
    | _ => none

/-! ### Which unit an instruction belongs to (00_scope R2, 60_exceptions R450) -/

/-- The four units. -/
inductive Owner where
  | video | tape | floppy | disk
deriving DecidableEq, Repr

/-- The unit an instruction is an operation of. -/
def ownerOf : Instr → Owner
  | .vidReset | .vidBuild _ | .vidRender _ _ | .vidNewframe | .vidContend _ => .video
  | .tapeReset | .tapeSetmode _ _ | .tapeEnterload _ | .tapeLeaveload | .tapeEntersave _ | .tapeLeavesave
  | .tapeInitplay _ | .tapeEar _ | .tapeMic _ _ | .tapeFastload _ => .tape
  | .fdcReset | .fdcWrite _ | .fdcRead | .fdcStatus | .fdcSpecify _ _ | .fdcSenseDriveStatus _ | .fdcRecalibrate _
  | .fdcSenseInterruptStatus | .fdcSeek _ _ | .fdcReadId _ _ | .fdcReadData _ _ | .fdcFormatTrack _ _ _
  | .fdcWriteData _ _ | .fdcNone _ => .floppy
  | .dskCreate | .dskOpen _ | .dskRead _ _ _ _ | .dskWrite _ _ _ _ => .disk

/-- The two states agree on what an operation of the unit may depend on: the parameters, the unit itself, the host's data
where the unit calls back, the disk where the floppy unit calls the store. -/
def SameFor (o : Owner) (s t : State) : Prop :=
  s.params = t.params ∧
    match o with
    | .video => s.video = t.video ∧ s.host = t.host
    | .tape => s.tape = t.tape ∧ s.host = t.host
    | .floppy => s.fdc = t.fdc ∧ s.disk = t.disk
    | .disk => s.disk = t.disk

/-! ### The floppy unit after a command (45_fdc_protocol R308, R312, R324; 46_fdc_commands R340) -/

/-- The parameter registers after the bytes `bs` were written: register `i` holds byte `i`, the others what they
held (R308). -/
def paramsAfter (v : Vector Byte 8) (bs : List Byte) : Vector Byte 8 := Vector.ofFn fun i => bs.getD i.val v[i]

/-- The command byte and the parameter bytes `bs` received. -/
def received (f : FdcState) (cmd : FloppyCommand) (bs : List Byte) : FdcState :=
  { f with activeCommand := cmd, params := paramsAfter f.params bs, paramsReceived := bs.length }

/-- Drive and head selected by the HD/US byte: bits 1:0 and bit 2 (R340). -/
def selected (f : FdcState) (p0 : Byte) : FdcState :=
  { f with
    selectedDrive := p0.extractLsb' 0 2
    headPerDrive := driveSet f.headPerDrive (p0.extractLsb' 0 2) (p0.extractLsb' 2 1) }

/-- The selected drive's track and sector registers replaced. -/
def positioned (f : FdcState) (tr sc : Byte) : FdcState :=
  { f with
    trackPerDrive := driveSet f.trackPerDrive f.selectedDrive tr
    sectorPerDrive := driveSet f.sectorPerDrive f.selectedDrive sc }

/-- Over, with nothing to read (R324). -/
def finished (f : FdcState) : FdcState :=
  { f with acceptingCommand := true, executionStatus := false, paramsReceived := 0, mainStatusRegister := 0x80 }

/-- Data and result bytes wait to be read (R312). -/
def sending (f : FdcState) (data result : List Byte) : FdcState :=
  { f with
    acceptingCommand := false
    executionStatus := decide (data ≠ [])
    mainStatusRegister := if data = [] then 0xD0 else 0xF0
    pendingDataBytes := data
    pendingResultBytes := result
    dataCursor := 0
    resultCursor := 0 }

/-- ST0, ST1, ST2 written and the seven bytes of the standard result waiting behind `data` (R318). -/
def standard (f : FdcState) (st0 st1 st2 : Byte) (data : List Byte) (c h r n : Byte) : FdcState :=
  sending { f with st0 := st0, st1 := st1, st2 := st2 } data [st0, st1, st2, c, h, r, n]

/-- Abnormal termination (R342). -/
def abnormal (f : FdcState) (c h r n : Byte) : FdcState := standard f 0x40 0 0 [] c h r n

/-- The head of the selected drive as a byte. -/
def headByte (f : FdcState) : Byte := (driveGet f.headPerDrive f.selectedDrive).setWidth 8

/-- The track of the selected drive. -/
def trackByte (f : FdcState) : Byte := driveGet f.trackPerDrive f.selectedDrive

/-- The sector of the selected drive. -/
def sectorByte (f : FdcState) : Byte := driveGet f.sectorPerDrive f.selectedDrive

/-- ST0 of a success: the parameter's bits 7:3, the head in bit 2, the drive in bits 1:0 (R345). -/
def st0Success (high : BitVec 5) (f : FdcState) : Byte :=
  (high.setWidth 8 <<< 3) ||| (headByte f <<< 2) ||| f.selectedDrive.setWidth 8

/-- `L` of ReadData and WriteData (R343). -/
def lengthOf (n dtl : Byte) : Nat := if n = 0 then dtl.toNat else 512

/-- The byte offset of a sector in an image of 40 tracks and 9 sectors (47_disk_image R402). -/
def sectorOffset (head track sector : Nat) : Nat := 8 + head * 184320 + track * 4608 + (sector - 1) * 512

/-- The floppy unit waits for a command byte (R300, row AcceptingCommand). -/
def Idle (f : FdcState) : Prop := f.inPhase .acceptingCommand

/-- `t` is `s` with nothing changed but the floppy unit, the disk and the answer `r` without callbacks. -/
def OnlyFloppy (s t : State) (r : OpResult) : Prop :=
  t = { s with fdc := t.fdc, disk := t.disk, result := r, calls := [] }

/-- `t` is `s` with nothing changed but the tape unit, the events and the answer `r` without callbacks. -/
def OnlyTape (s t : State) (r : OpResult) : Prop :=
  t = { s with tape := t.tape, events := t.events, result := r, calls := [] }

/-- `t` is `s` with nothing changed but the video unit and the answer `done` with callbacks `t.calls`. -/
def OnlyVideo (s t : State) : Prop := t = { s with video := t.video, result := .done, calls := t.calls }

/-- `t` is `s` with the answer `r` and nothing else changed. -/
def OnlyAnswer (s t : State) (r : OpResult) : Prop := t = { s with result := r, calls := [] }

/-! ### The tape unit -/

/-- The playback state of block `b` started at tact `start` (42_tape_load R204). -/
def started (b : TapeBlock) (start : Nat) : Playback where
  phase := .pilot
  startTact := start
  byteIndex := 0
  bitMask := 0x80
  pilotEndTact := start + pilotCount b.data * 2168
  sync1EndTact := start + pilotCount b.data * 2168 + 667
  sync2EndTact := start + pilotCount b.data * 2168 + 667 + 735
  bitPulseLength := 0
  termSyncEndTact := 0
  pauseEndTact := 0
  bitStartTact := 0

/-- Some block of the image has no data byte (R204). -/
def HasEmptyBlock (image : List TapeBlock) : Prop := ∃ b ∈ image, b.data = []

/-- The mode after an operation (44_tape_mode R283). -/
def modeAfter (i : Instr) (s : State) : TapeMode :=
  let empty := s.tape.image.any (fun b => b.data.isEmpty)
  match i, s.tape.mode with
  | .tapeReset, _ => .passive
  | .tapeEnterload _, .passive => if empty then .passive else .load
  | .tapeEntersave _, .passive => .save
  | .tapeLeaveload, .load => .passive
  | .tapeLeavesave, .save => .passive
  | .tapeSetmode pc _, .passive =>
    if pc = s.params.loadHook then (if s.params.fastLoadEnabled || empty then .passive else .load)
    else if pc = s.params.saveHook then .save
    else .passive
  | .tapeSetmode pc _, .load => if s.tape.playerCompleted || pc == s.params.errorHook then .passive else .load
  | .tapeSetmode pc t, .save =>
    if pc = s.params.errorHook ∨ s.tape.save.lastActivityTact + 17500000 ≤ t then .passive else .save
  | _, m => m

/-- The notice of a transition (R271). -/
def noticeOf : TapeMode → TapeMode → List Event
  | .passive, .load => [.enteredLoad]
  | .load, .passive => [.leftLoad]
  | .passive, .save => [.enteredSave]
  | .save, .passive => [.leftSave]
  | _, _ => []

/-- The event is a transition notice (R271). -/
def isNotice : Event → Bool
  | .enteredLoad | .leftLoad | .enteredSave | .leftSave => true
  | _ => false

/-- The tape mode is the machine's to use: the image was not changed without TAPE.RESET (93 U7; log 12). -/
def TapeReady (s : State) : Prop := s.tape.imageStale = false

/-- A MIC call that is an accepted transition (43_tape_save R236). -/
def Transition (s : State) (tact : Nat) (value : Bool) : Prop :=
  TapeReady s ∧ s.tape.mode = .save ∧ value ≠ s.tape.save.micBitState ∧ s.tape.save.lastActivityTact ≤ tact

/-- The save state with the transition recorded, before `Step` (R236). -/
def transitioned (s : State) (tact : Nat) (value : Bool) : SaveState :=
  { s.tape.save with micBitState := value, lastActivityTact := tact }

/-- Abandoned (R240): the accumulators empty and the phase `None`. -/
def abandoned (v : SaveState) : SaveState :=
  { v with phase := .none, pilotPulseCount := 0, bitOffset := 0, currentByte := 0, prevPulse := .noPulse, dataBuffer := [] }

/-- The operation completes, leaving the save state `v` and emitting `es`, and changes nothing else. -/
def MicGives (s : State) (tact : Nat) (value : Bool) (v : SaveState) (es : List Event) : Prop :=
  exec (.tapeMic tact value) s =
    .next { s with tape := { s.tape with save := v }, events := s.events ++ es, result := .done, calls := [] }

/-- The half-pulse of a data bit (R242). -/
def halfOf (bit : Bool) : HalfPulse := if bit then .bit1 else .bit0

/-- A data half-pulse (R242). -/
def dataHalf (capacity : Nat) (bit : Bool) (v : SaveState) : SaveState :=
  if v.prevPulse = .noPulse then { v with prevPulse := halfOf bit }
  else if v.prevPulse = halfOf bit then
    let byte := BitVec.ofNat 8 (v.currentByte.toNat * 2 + bit.toNat)
    if v.bitOffset.toNat + 1 < 8 then
      { v with prevPulse := .noPulse, currentByte := byte, bitOffset := v.bitOffset + 1 }
    else if v.dataBuffer.length = capacity then abandoned v
    else { v with prevPulse := .noPulse, dataBuffer := v.dataBuffer ++ [byte], bitOffset := 0, currentByte := 0 }
  else abandoned v

/-- The exclusive or of a byte sequence (R285). -/
def xorBytes : List Byte → Byte
  | [] => 0
  | b :: bs => b ^^^ xorBytes bs

/-- The class of a pulse width by the window table (R232). -/
def pulseClassOf (w : Nat) : PulseClass :=
  if w ≤ 642 then .tooShort
  else if 643 ≤ w ∧ w ≤ 691 then .sync1
  else if 711 ≤ w ∧ w ≤ 759 then .sync2
  else if 831 ≤ w ∧ w ≤ 879 then .bit0
  else if 923 ≤ w ∧ w ≤ 971 then .termSync
  else if 1686 ≤ w ∧ w ≤ 1734 then .bit1
  else if 2144 ≤ w ∧ w ≤ 2192 then .pilot
  else if 2193 ≤ w then .tooLong
  else .unclassified

/-! ### The disk store (47_disk_image R402, R404) -/

/-- The offset of a sector in a disk's region (R402). -/
def offsetOf (d : Disk) (head track sector : Nat) : Nat :=
  8 + ((head * d.tracks.toNat + track) * d.sectorsPerTrack.toNat + (sector - 1)) * 512

/-- The error of a disk request, if any: the first check that fails (R404). -/
def diskError (disk : Option Disk) (head track sector length : Nat) : Option OpError :=
  match disk with
  | none => some .diskNotAttached
  | some d =>
    if 2 ≤ head then some (.diskDomainError .head)
    else if ¬ track < d.tracks.toNat then some (.diskDomainError .track)
    else if ¬ (1 ≤ sector ∧ sector ≤ d.sectorsPerTrack.toNat) then some (.diskDomainError .sector)
    else if ¬ (1 ≤ length ∧ length ≤ 512) then some (.diskDomainError .length)
    else none

/-- The error of opening an image, if any: the first check that fails (R396). -/
def openError (image : List Byte) : Option OpError :=
  if image.length < 8 then some .imageTruncated
  else if image.take 8 ≠ [0x56, 0x46, 0x44, 0x44, 0x46, 0x01, 0x28, 0x09] then some .imageIncompatible
  else if image.length < 368648 then some .imageTruncated
  else if 368648 < image.length then some .imageIncompatible
  else none

/-- `after` is `before` with `bs` stored from address `o` on. -/
def BytesStored (before after : Memory) (o : Nat) (bs : List Byte) : Prop :=
  ∀ a, after.read a = if o ≤ a ∧ a < o + bs.length then bs.getD (a - o) 0 else before.read a

/-- The `n` bytes of a region from address `o` on. -/
def bytesAt (m : Memory) (o n : Nat) : List Byte := (List.range n).map fun k => m.read (o + k)

/-! ### Errors (60_exceptions R420, R430) -/

/-- The operation raises the error: the rows of R420, each after the checks that R430 puts before it. -/
def raises (i : Instr) (s : State) : Option OpError :=
  let empty := s.tape.image.any (fun b => b.data.isEmpty)
  match i with
  | .vidBuild g => if g.valid then none else some .geometryInvalid
  | .tapeInitplay _ =>
    if s.tape.image.length ≤ s.tape.blockIndex then some .tapeNoBlock
    else if empty then some .tapeEmptyBlock
    else none
  | .tapeEnterload _ => if s.tape.mode = .passive ∧ empty = true then some .tapeEmptyBlock else none
  | .tapeSetmode pc _ =>
    if s.tape.mode = .passive ∧ pc = s.params.loadHook ∧ s.params.fastLoadEnabled = false ∧ empty = true
    then some .tapeEmptyBlock else none
  | .tapeEar t =>
    if s.tape.mode ≠ .load ∨ s.tape.playerCompleted = true then none
    else if s.tape.initialised = false then some .tapeNotInitialised
    else if t < s.tape.lastTact then some .tapeOrderViolation
    else none
  | .tapeMic t v =>
    if s.tape.mode = .save ∧ v ≠ s.tape.save.micBitState ∧ t < s.tape.save.lastActivityTact
    then some .tapeOrderViolation else none
  | .dskOpen image => openError image
  | .dskRead h t sec n => diskError s.disk h t sec n
  | .dskWrite h t sec data => diskError s.disk h t sec data.length
  | _ => none

/-! ### FDC helpers -/

/-- The floppy unit waiting for `len` data bytes (46_fdc_commands R366). -/
def receivingData (f : FdcState) (len : Nat) : FdcState :=
  { f with
    acceptingCommand := false
    executionStatus := true
    mainStatusRegister := 0xB0
    pendingDataBytes := List.replicate len 0
    dataCursor := 0
    dataLen := len }

/-- The drive's track or head lies outside the disk, or there is none (R356). -/
def OffDisk (f : FdcState) (disk : Option Disk) : Prop :=
  ∀ d, disk = some d →
    d.tracks.toNat ≤ (trackByte f).toNat ∨ (if d.doubleSided = 0 then 1 else 2) ≤ (headByte f).toNat

/-- A requested track or head is not where the drive is, or no byte is asked for (R343, R344). -/
def Mispositioned (f : FdcState) (p : RwParams) : Prop :=
  lengthOf p.n p.dtl = 0 ∨ p.c ≠ trackByte f ∨ p.h ≠ headByte f

end Sys2Proof.Spec
end

