-- ==== Sys2Proof/Certificates/Slice0/Obligations.lean ====
section
/-! DEFINITION. The statements about the machine, each with the rules of spec/ it rests on. OBLIGATIONS.json lists
them in this order. In every equation `result` and `calls` are what the operation returned (R100, column "returns") and the
callbacks it made (R85); that the state holds them is the model's own (log 6). A hypothesis `TapeReady` leaves out the tape
unit that 93 U7 calls stuck: what it does then is in StopsByName (log 12). -/

section Statements

open Sys2Proof Sys2Proof.Machine Sys2Proof.Spec

/-! ### Steps, words and instructions -/

/-- A step runs the decoded instruction (log 1, log 21): it is `exec` of the instruction at the front of the pending
invocation, with that instruction's bytes removed. -/
def Obligations.StepRunsDecodedInstruction : Prop :=
  ∀ (s : State) (f : Format) (bytes r : List Byte) (rest : List HostInput) (i : Instr),
    s.inputs = .invoke f bytes :: rest → decode f bytes = .ok (i, r) →
    step s = exec i { s with inputs := if r = [] then rest else .invoke f r :: rest }

/-- A step on the words of a well-formed instruction runs that instruction, whatever bytes follow. -/
def Obligations.StepRunsEncodedInstruction : Prop :=
  ∀ (s : State) (i : Instr) (r : List Byte) (rest : List HostInput),
    i.wellFormed = true → s.inputs = .invoke i.format (encode i ++ r) :: rest →
    step s = exec i { s with inputs := if r = [] then rest else .invoke i.format r :: rest }

/-- The other steps: nothing pending, the host's four actions, and bytes that are no invocation (R128(c), R426; log 1,
log 12, log 15): among them a byte that R100 assigns to no operation. -/
def Obligations.StepWithoutInstruction : Prop :=
  ∀ (s : State) (rest : List HostInput),
    (s.inputs = [] → step s = .next s) ∧
    (∀ a v, s.inputs = .act (.memWrite a v) :: rest →
      step s = .next { s with host := { s.host with mem := s.host.mem.write a.toNat v }, inputs := rest }) ∧
    (∀ v, s.inputs = .act (.setBorder v) :: rest →
      step s = .next { s with host := { s.host with border := v }, inputs := rest }) ∧
    (∀ c, s.inputs = .act (.setCpu c) :: rest →
      step s = .next { s with host := { s.host with cpu := c }, inputs := rest }) ∧
    (∀ image, s.inputs = .act (.setTape image) :: rest →
      step s = .next { s with
        tape := { s.tape with image := image, imageStale := decide (s.tape ≠ TapeUnit.reset s.tape.image) }
        inputs := rest }) ∧
    (∀ f bytes e, s.inputs = .invoke f bytes :: rest → decode f bytes = .error e →
      step s = .refused (.malformedInvocation e)) ∧
    (∀ b bs, 0x20 ≤ b.toNat ∨ b ∈ [0x05#8, 0x06#8, 0x07#8, 0x12#8, 0x13#8, 0x14#8, 0x15#8, 0x16#8, 0x17#8] →
      s.inputs = .invoke .op (b :: bs) :: rest →
      step s = .refused (.malformedInvocation (.unassignedSelector b)))

/-- Decoding the words of a well-formed instruction gives it back with every operand, and leaves the bytes behind. -/
def Obligations.DecodeEncodeRoundTrip : Prop :=
  ∀ (i : Instr) (r : List Byte), i.wellFormed = true → decode i.format (encode i ++ r) = .ok (i, r)

/-- Decoding reads only words: what the decoder accepts is a well-formed instruction of that format, and the bytes it
consumed are that instruction's words. -/
def Obligations.EncodeDecodeRoundTrip : Prop :=
  ∀ (f : Format) (bytes r : List Byte) (i : Instr), decode f bytes = .ok (i, r) →
    i.wellFormed = true ∧ i.format = f ∧ encode i ++ r = bytes

/-- Words written out from R100, R105 and R108 decode to the instructions they stand for. -/
def Obligations.DecodedWordsFromTables : Prop :=
  decode .op [0x03] = .ok (.vidNewframe, []) ∧
  decode .op [0x0F, 0x78, 0x08, 0, 0, 0, 0, 0, 0] = .ok (.tapeEar 2168, []) ∧
  decode .op [0x09, 0x6C, 0x05, 0xC8, 0, 0, 0, 0, 0, 0, 0] = .ok (.tapeSetmode 0x056C 200, []) ∧
  decode .op [0x19, 0x0F] = .ok (.fdcWrite 0x0F, []) ∧
  decode .op [0x1C] = .ok (.dskCreate, []) ∧
  decode .fdc [0x0F, 0x06, 0x0A] = .ok (.fdcSeek 0x06 0x0A, []) ∧
  decode .fdc [0x4A, 0x04] = .ok (.fdcReadId 1 0x04, []) ∧
  decode .fdc [0x4D, 0x00, 0x02, 0x09, 0x2A, 0xE5] = .ok (.fdcFormatTrack 1 0 ⟨0x00, 0x02, 0x09, 0x2A, 0xE5⟩, []) ∧
  decode .fdc [0x46, 0x04, 0x05, 0x01, 0x03, 0x02, 0x09, 0x2A, 0xFF] =
    .ok (.fdcReadData 2 ⟨0x04, 0x05, 0x01, 0x03, 0x02, 0x09, 0x2A, 0xFF⟩, []) ∧
  decode .fdc [0xFF] = .ok (.fdcNone 0xFF, [])

/-- The byte values each command takes, with its parameter count (R106, and R105's last column). -/
def Obligations.CommandByteValues : Prop :=
  ∀ b : Byte,
    (fdcDecode b = (.specify, 2) ↔ b = 0x03) ∧
    (fdcDecode b = (.senseDriveStatus, 1) ↔ b = 0x04) ∧
    (fdcDecode b = (.recalibrate, 1) ↔ b = 0x07) ∧
    (fdcDecode b = (.senseInterruptStatus, 0) ↔ b = 0x08) ∧
    (fdcDecode b = (.seek, 2) ↔ b = 0x0F) ∧
    (fdcDecode b = (.readId, 1) ↔ b ∈ [0x0A#8, 0x4A#8]) ∧
    (fdcDecode b = (.readData, 8) ↔ b ∈ [0x06#8, 0x26#8, 0x46#8, 0x66#8, 0x86#8, 0xA6#8, 0xC6#8, 0xE6#8]) ∧
    (fdcDecode b = (.formatTrack, 5) ↔ b ∈ [0x0D#8, 0x4D#8, 0x4F#8]) ∧
    (fdcDecode b = (.writeData, 8) ↔ b ∈ [0x05#8, 0x45#8, 0x85#8, 0xC5#8]) ∧
    (fdcDecode b = (.none, 0) ↔
      b ∉ [0x03#8, 0x04#8, 0x07#8, 0x08#8, 0x0F#8, 0x0A#8, 0x4A#8, 0x06#8, 0x26#8, 0x46#8, 0x66#8, 0x86#8, 0xA6#8, 0xC6#8,
        0xE6#8, 0x0D#8, 0x4D#8, 0x4F#8, 0x05#8, 0x45#8, 0x85#8, 0xC5#8])

/-! ### Reset -/

/-- What every element holds after the reset operations, from any state (R188, R272, R302), with VID.RESET by its
own definition through VID.BUILD; and that the tape and floppy resets change nothing else: the disk, the tape image, the
parameters and the host's data among it (R464). The model's own `imageStale` (log 12) is cleared by TAPE.RESET. -/
def Obligations.ResetOperationsComplete : Prop :=
  ∀ s : State,
    (s.params.geometry.valid = true →
      ∃ u, exec (.vidBuild s.params.geometry) s = .next u ∧
        exec .vidReset s = .next { u with video := { u.video with frameCount := 0, flashPhase := false } }) ∧
    exec .tapeReset s = .next { s with
      tape := {
        mode := .passive, image := s.tape.image, blockIndex := 0, playerCompleted := false, initialised := false
        lastTact := 0
        play := {
          phase := .pilot, startTact := 0, byteIndex := 0, bitMask := 0x80, pilotEndTact := 0, sync1EndTact := 0
          sync2EndTact := 0, bitPulseLength := 0, termSyncEndTact := 0, pauseEndTact := 0, bitStartTact := 0 }
        save := {
          phase := .none, pilotPulseCount := 0, bitOffset := 0, currentByte := 0, dataBuffer := [], prevPulse := .noPulse
          dataBlockCount := 0, lastActivityTact := 0, micBitState := true }
        imageStale := false }
      result := .done, calls := [] } ∧
    exec .fdcReset s = .next { s with
      fdc := {
        acceptingCommand := true, activeCommand := .none, paramsReceived := 0, params := Vector.replicate 8 0
        st0 := 0, st1 := 0, st2 := 0, st3 := 0, selectedDrive := 0
        headPerDrive := Vector.replicate 4 0, trackPerDrive := Vector.replicate 4 0
        sectorPerDrive := Vector.replicate 4 1, mainStatusRegister := 0x80
        pendingResultBytes := [], pendingDataBytes := [], resultCursor := 0, dataCursor := 0, executionStatus := false
        stepRateTime := 0, headUnloadTime := 0, headLoadTime := 0, nonDmaMode := false, dataLen := 0 }
      result := .done, calls := [] }

/-- The power-on state is what the three reset operations make of a block with no disk attached, whatever its video,
tape and floppy elements held (R460, R461), the tape image being the empty one of log 7. For a construction-time geometry
that is not valid, what VID.RESET and power-on build is the model's own choice (log 20): R188 assumes it valid. -/
def Obligations.PowerOnIsThreeResets : Prop :=
  ∀ (p : Params) (v : Video) (tu : TapeUnit) (f : FdcState), tu.image = [] →
    runAll [.vidReset, .tapeReset, .fdcReset] { State.powerOn p with video := v, tape := tu, fdc := f } =
      some (State.powerOn p) ∧
    (State.powerOn p).disk = none

/-! ### Invariants -/

/-- The power-on state meets the invariant for every choice of the parameters in their ranges, and so does the state
with the default parameters. -/
def Obligations.PowerOnMeetsInvariant : Prop :=
  (∀ p : Params, ParamsInv p → MachineInv (State.powerOn p)) ∧ MachineInv State.reset

/-- Every step keeps the invariant: canonical memories, the table of the geometry, palette indices in the buffer, the
tape cursors inside the image, the floppy protocol, the disk's header and geometry. -/
def Obligations.StepKeepsInvariant : Prop :=
  ∀ s t : State, MachineInv s → step s = .next t → MachineInv t

/-- The floppy invariants hold after every operation (R322 (1) to (7)). -/
def Obligations.FloppyInvariantKept : Prop :=
  ∀ (i : Instr) (s t : State), FdcInv s.fdc → exec i s = .next t →
    FdcInv t.fdc ∧
    (∃ ph, t.fdc.inPhase ph ∧ ∀ q, t.fdc.inPhase q → q = ph) ∧
    ((t.fdc.acceptingCommand = true ↔ t.fdc.mainStatusRegister = 0x80) ∧
      (t.fdc.acceptingCommand = true → t.fdc.paramsReceived = 0 ∧ t.fdc.executionStatus = false)) ∧
    (t.fdc.mainStatusRegister.getLsbD 6 = true ↔ t.fdc.resultCursor < t.fdc.pendingResultBytes.length) ∧
    t.fdc.mainStatusRegister.getLsbD 5 = t.fdc.executionStatus ∧
    (t.fdc.inPhase .receivingParameters → t.fdc.paramsReceived < t.fdc.activeCommand.paramCount) ∧
    (t.fdc.inPhase .receivingData →
      t.fdc.dataCursor < t.fdc.dataLen ∧ t.fdc.dataLen = t.fdc.pendingDataBytes.length ∧
        1 ≤ t.fdc.dataLen ∧ t.fdc.dataLen ≤ 512) ∧
    (t.fdc.inPhase .sendingData → t.fdc.dataCursor < t.fdc.pendingDataBytes.length)

/-! ### Errors and stops -/

/-- An operation that goes on reports an error exactly where R420 says it raises one, the first failing check deciding
(R430). -/
def Obligations.ErrorsByOperation : Prop :=
  ∀ (i : Instr) (s t : State) (e : OpError), exec i s = .next t → (t.result = .error e ↔ raises i s = some e)

/-- An operation that raises returns the error in place of its result and changes no state of the block (R422). -/
def Obligations.ErrorsChangeNothing : Prop :=
  ∀ (i : Instr) (s t : State) (e : OpError), exec i s = .next t → t.result = .error e →
    t = { s with result := .error e, calls := [] }

/-- In a state in good order every operation goes on: nothing stops but the tape unit whose image was changed without
TAPE.RESET (93 U7) and TAPE.FASTLOAD where the facility is absent. -/
def Obligations.NoStopInGoodOrder : Prop :=
  ∀ (i : Instr) (s : State), MachineInv s → (ownerOf i = .tape → i ≠ .tapeReset → TapeReady s) →
    (∀ tact, i = .tapeFastload tact → s.params.fastLoadEnabled = true) → Goes (exec i s)

/-- Where the tape unit stops by name: every tape operation but TAPE.RESET after the image was changed (93 U7; log 12),
and TAPE.FASTLOAD where `FAST_LOAD_ENABLED` is false (R285, R8; log 14). -/
def Obligations.StopsByName : Prop :=
  ∀ (i : Instr) (s : State) (tact : Nat),
    (s.params.fastLoadEnabled = false → exec (.tapeFastload tact) s = .refused .fastLoadAbsent) ∧
    (¬ TapeReady s → ownerOf i = .tape → i ≠ .tapeReset →
      (∀ tact, i = .tapeFastload tact → s.params.fastLoadEnabled = true) → exec i s = .fault .tapeImageChanged)

/-! ### Units -/

/-- The units share no state (R450): an operation changes its own unit only; the floppy unit also changes the disk store
it calls, and only the fast-load facility changes the host's data. -/
def Obligations.UnitsAreIsolated : Prop :=
  ∀ (i : Instr) (s t : State), exec i s = .next t →
    t.params = s.params ∧ t.inputs = s.inputs ∧
    (ownerOf i ≠ .video → t.video = s.video) ∧
    (ownerOf i ≠ .tape → t.tape = s.tape) ∧
    (ownerOf i ≠ .floppy → t.fdc = s.fdc) ∧
    (ownerOf i ≠ .floppy → ownerOf i ≠ .disk → t.disk = s.disk) ∧
    (s.params.fastLoadEnabled = false ∨ ownerOf i ≠ .tape → t.host = s.host) ∧
    ∃ es, t.events = s.events ++ es

/-- What a unit does depends on its own state alone, the parameters, the host's data where it calls back, and the disk
where it calls the store (R450): two states that agree there give the same result, callbacks and new state there. -/
def Obligations.UnitsObserveOnlyThemselves : Prop :=
  ∀ (i : Instr) (s s' t : State), SameFor (ownerOf i) s s' → exec i s = .next t →
    ∃ t', exec i s' = .next t' ∧ SameFor (ownerOf i) t t' ∧ t'.result = t.result ∧ t'.calls = t.calls ∧
      ∃ es, t.events = s.events ++ es ∧ t'.events = s'.events ++ es

/-- The tape mode changes only by the causes of R283's table, with the notice of the transition and no other (R270,
R271). -/
def Obligations.TapeModeTransitions : Prop :=
  ∀ (i : Instr) (s t : State), exec i s = .next t →
    t.tape.mode = modeAfter i s ∧
    ∃ es, t.events = s.events ++ es ∧
      es.filter isNotice = if i = .tapeReset then [] else noticeOf s.tape.mode t.tape.mode

/-! ### Video -/

/-- VID.BUILD completes on a valid geometry and leaves one descriptor per tact of the frame, each field as R144, R145
and R148 give it, a black buffer, clear latches, and the frame counter and flash phase as they were (R142). A
coordinate that does not fit its field is the model's free value (log 10). On an invalid geometry it raises (R149). -/
def Obligations.VidBuildBuildsTable : Prop :=
  ∀ (g : Geometry) (s : State),
    (g.valid = false → exec (.vidBuild g) s = .next { s with result := .error .geometryInvalid, calls := [] }) ∧
    (g.valid = true → ∃ tt, tt.length = g.frameT ∧
      exec (.vidBuild g) s = .next { s with
        video := {
          geometry := g, tt := tt, pb := List.replicate (g.screenWidth * g.screenLines) 0
          pixelByte1 := 0, attrByte1 := 0, pixelByte2 := 0, attrByte2 := 0
          frameCount := s.video.frameCount, flashPhase := s.video.flashPhase }
        result := .done, calls := [] } ∧
      ∀ line t, line < g.rasterLines → t < g.lineT →
        tt[line * g.lineT + t]? = some {
          phase := phaseAt g line t
          contentionDelay := BitVec.ofNat 3 (contentionAt g line t)
          pixelFetchAddress :=
            if fetchesPixel (phaseAt g line t) then
              BitVec.ofNat 16 (pixelByteAddress g (line - g.firstDisplayLine) ((t + 2 - g.borderLeftT) / 4))
            else 0
          attributeFetchAddress :=
            if fetchesAttribute (phaseAt g line t) then
              BitVec.ofNat 16 (attributeAddress g (line - g.firstDisplayLine) ((t + 1 - g.borderLeftT) / 4))
            else 0
          x := if Spec.visible g line t then Geometry.coord (2 * t) else 0
          y := if Spec.visible g line t then Geometry.coord (line - g.firstVisibleLine) else 0 })

/-- The table covers every tact of the frame, and an entry has an address only in the field its phase uses (R154). -/
def Obligations.TableCoversEveryTact : Prop :=
  ∀ (v : Video), VideoInv v → ∀ i < v.geometry.frameT, ∃ d, v.tt[i]? = some d ∧
    (fetchesPixel d.phase = true → d.attributeFetchAddress = 0 ∧ v.geometry.screenBase ≤ d.pixelFetchAddress.toNat) ∧
    (fetchesAttribute d.phase = true → d.pixelFetchAddress = 0 ∧ v.geometry.attrBase ≤ d.attributeFetchAddress.toNat) ∧
    (fetchesPixel d.phase = false → fetchesAttribute d.phase = false →
      d.pixelFetchAddress = 0 ∧ d.attributeFetchAddress = 0)

/-- A tact has a phase other than `None` exactly where it is visible, and its pixels then lie inside the buffer at
column `2 * t` and the row of its line (R144), where the raster fits 16-bit coordinates. -/
def Obligations.VisibleTactsHavePixels : Prop :=
  ∀ (v : Video), VideoInv v → v.geometry.screenWidth ≤ 65536 → v.geometry.screenLines ≤ 65536 →
    ∀ line t, line < v.geometry.rasterLines → t < v.geometry.lineT →
      ∃ d, v.tt[line * v.geometry.lineT + t]? = some d ∧
        (d.phase ≠ .none ↔ Spec.visible v.geometry line t = true) ∧
        (d.phase = .none → d.x = 0 ∧ d.y = 0) ∧
        (d.phase ≠ .none →
          d.x.toNat = 2 * t ∧ d.y.toNat + v.geometry.firstVisibleLine = line ∧
            d.y.toNat * v.geometry.screenWidth + d.x.toNat + 1 < v.pb.length)

/-- The pipeline: byte column `c` of a display line is displayed for four tacts from latch pair 1 or 2 in turn; its pixel
byte is fetched into that pair two tacts before the first of them, its attribute one tact before (R145). -/
def Obligations.PipelineLatency : Prop :=
  ∀ (v : Video), VideoInv v → ∀ r c, r < v.geometry.displayLines → c < v.geometry.displayT / 4 →
    let start := (v.geometry.firstDisplayLine + r) * v.geometry.lineT + v.geometry.borderLeftT + 4 * c
    (∀ k < 4, ∃ d, v.tt[start + k]? = some d ∧ showsByte1 d.phase = decide (c % 2 = 0) ∧
      showsByte2 d.phase = decide (c % 2 = 1)) ∧
    (∃ d, v.tt[start - 2]? = some d ∧ d.pixelFetchAddress = BitVec.ofNat 16 (pixelByteAddress v.geometry r c) ∧
      (if c % 2 = 0 then d.phase = .borderFetchPixel ∨ d.phase = .displayByte2FetchByte1
       else d.phase = .displayByte1FetchByte2)) ∧
    (∃ d, v.tt[start - 1]? = some d ∧ d.attributeFetchAddress = BitVec.ofNat 16 (attributeAddress v.geometry r c) ∧
      (if c % 2 = 0 then d.phase = .borderFetchAttr ∨ d.phase = .displayByte2FetchAttr1
       else d.phase = .displayByte1FetchAttr2))

/-- VID.CONTEND completes for every tact and returns the delay of R148 at the tact reduced modulo the frame (R150),
changing nothing. -/
def Obligations.ContentionDelayReturned : Prop :=
  ∀ (s : State) (tact : Nat), VideoInv s.video →
    let g := s.video.geometry
    let i := tact % g.frameT
    exec (.vidContend tact) s = .next { s with
      result := .delay (BitVec.ofNat 3 (contentionAt g (i / g.lineT) (i % g.lineT))), calls := [] }

/-- The table of PRESET_48K (R156): 69888 entries with the phases of the summary table, and the delays of R148. -/
def Obligations.Preset48KTable : Prop :=
  (buildTable Geometry.preset48K).length = 69888 ∧
  ∀ line t, line < 312 → t < 224 → ∃ d, (buildTable Geometry.preset48K)[line * 224 + t]? = some d ∧
    d.phase =
      (if line < 16 ∨ 304 ≤ line ∨ 176 ≤ t then .none
       else if line < 64 ∨ 256 ≤ line then .border
       else if t < 22 ∨ 152 ≤ t then .border
       else if t = 22 then .borderFetchPixel
       else if t = 23 then .borderFetchAttr
       else if t = 150 ∨ t = 151 then .displayByte2
       else [VideoPhase.displayByte1, .displayByte1, .displayByte1FetchByte2, .displayByte1FetchAttr2, .displayByte2,
         .displayByte2, .displayByte2FetchByte1, .displayByte2FetchAttr1].getD ((t - 24) % 8) .none) ∧
    d.contentionDelay =
      (if 64 ≤ line ∧ line < 256 ∧ 23 ≤ t ∧ t < 151 then [6#3, 5, 4, 3, 2, 1, 0, 0].getD ((t - 23) % 8) 0 else 0)

/-- VID.RENDER of a range is VID.RENDER of its tacts one at a time, both ends included, in ascending order; an empty
range renders nothing (R174). It changes the video unit only. -/
def Obligations.RenderRangeIsTactByTact : Prop :=
  ∀ (s : State) (fromTact toTact : Nat), ∃ t u cs,
    exec (.vidRender fromTact toTact) s = .next t ∧
    t = { s with video := u.video, result := .done, calls := cs } ∧
    runCalls ((List.range' fromTact (toTact + 1 - fromTact)).map fun tact => .vidRender tact tact) s = some (u, cs)

/-- What one tact does, by its phase (R175 to R185): which two pixels it writes and in which colours, which latch it
loads, and its callbacks; the tact is reduced modulo the frame. -/
def Obligations.RenderTactByPhase : Prop :=
  ∀ (s : State) (tact : Nat) (d : TactDescriptor),
    s.video.tt[tact % s.video.geometry.frameT]? = some d →
    ∃ pb, exec (.vidRender tact tact) s = .next { s with
        video := { s.video with
          pb := pb
          pixelByte1 := (latchesAfter s.host s.video d).1
          attrByte1 := (latchesAfter s.host s.video d).2.1
          pixelByte2 := (latchesAfter s.host s.video d).2.2.1
          attrByte2 := (latchesAfter s.host s.video d).2.2.2 }
        result := .done, calls := callsOf d } ∧
      PixelsWritten s.video.pb pb (d.y.toNat * s.video.geometry.screenWidth + d.x.toNat)
        (pixelsOf s.host s.video (tact % s.video.geometry.frameT) d)

/-- The two lookup tables, the index being 256 times the pixel bit plus the attribute (R172), and the colour chosen
between them by the flash phase, a palette index (R173). -/
def Obligations.ColourTables : Prop :=
  ∀ a : Byte,
    flashOffColours (0#1 ++ a) = paper a ∧
    flashOffColours (1#1 ++ a) = ink a ∧
    flashOnColours (0#1 ++ a) = (if a.getLsbD 7 then ink a else paper a) ∧
    flashOnColours (1#1 ++ a) = (if a.getLsbD 7 then paper a else ink a) ∧
    ∀ b : Bool,
      colour true b a = flashOnColours (BitVec.ofBool b ++ a) ∧ colour false b a = flashOffColours (BitVec.ofBool b ++ a) ∧
      ∀ flash : Bool, (colour flash b a).toNat ≤ 15

/-- Rendering a tact again, with host memory, border colour and flash phase unchanged, changes no pixel and no latch
(R190). -/
def Obligations.RenderIdempotent : Prop :=
  ∀ (s t u u' : State) (tact : Nat), exec (.vidRender tact tact) s = .next t →
    u.video = t.video → u.host.mem = s.host.mem → u.host.border = s.host.border →
    exec (.vidRender tact tact) u = .next u' → u'.video = t.video

/-- HEADLINE. Rendering a display line from its first fetch to its last display tact shows the line of screen memory:
pixel `k` of byte column `c` of display row `r` has the colour that bit `7 - k` of the row's pixel byte and the cell's
attribute give under the flash phase (R145 to R147, R171 to R185). -/
def Obligations.RenderedLineShowsScreenMemory : Prop :=
  ∀ (s : State) (r : Nat), VideoInv s.video →
    let g := s.video.geometry
    g.screenWidth ≤ 65536 → g.screenLines ≤ 65536 → r < g.displayLines →
    let first := (g.firstDisplayLine + r) * g.lineT + g.borderLeftT
    ∃ t, exec (.vidRender (first - 2) (first + g.displayT - 1)) s = .next t ∧
      ∀ c < g.displayT / 4, ∀ k < 8,
        t.video.pb[(g.borderTopLines + r) * g.screenWidth + 2 * g.borderLeftT + 8 * c + k]? =
          some (pixelColour s.video.flashPhase ((s.host.mem.read (pixelByteAddress g r c)).getLsbD (7 - k))
            (s.host.mem.read (attributeAddress g r c)))

/-- VID.NEWFRAME completes, counts the frame, inverts the flash phase when the count becomes a multiple of the flash
period, and changes nothing else (R186). A flash period of 0, which R186 does not speak of, never inverts it: the model's
own choice (log 16). -/
def Obligations.NewframeCountsFrames : Prop :=
  ∀ s : State, exec .vidNewframe s = .next { s with
    video := { s.video with
      frameCount := s.video.frameCount + 1
      flashPhase :=
        if s.params.flashToggleFrames ∣ s.video.frameCount + 1 then !s.video.flashPhase else s.video.flashPhase }
    result := .done, calls := [] }

/-- The flash phase after `n` frames: off for one flash period, on for the next, and so on (R186's corner case). -/
def Obligations.FlashPhasePeriod : Prop :=
  ∀ (s : State) (n : Nat), 0 < s.params.flashToggleFrames → s.video.frameCount = 0 → s.video.flashPhase = false →
    ∃ t, runAll (List.replicate n .vidNewframe) s = some t ∧ t.video.frameCount = n ∧
      (t.video.flashPhase = true ↔ n / s.params.flashToggleFrames % 2 = 1)

/-! ### Tape: playing -/

/-- TAPE.INITPLAY starts the current block at its tact (R204, R202), and raises where there is none or where the tape
has a block without data, changing nothing. -/
def Obligations.InitplayStartsBlock : Prop :=
  ∀ (s : State) (start : Nat), TapeReady s →
    (∀ b, s.tape.image[s.tape.blockIndex]? = some b → ¬ HasEmptyBlock s.tape.image →
      exec (.tapeInitplay start) s = .next { s with
        tape := { s.tape with
          playerCompleted := false, initialised := true, lastTact := start, play := started b start }
        result := .done, calls := [] }) ∧
    (s.tape.image.length ≤ s.tape.blockIndex →
      exec (.tapeInitplay start) s = .next { s with result := .error .tapeNoBlock, calls := [] }) ∧
    (s.tape.blockIndex < s.tape.image.length → HasEmptyBlock s.tape.image →
      exec (.tapeInitplay start) s = .next { s with result := .error .tapeEmptyBlock, calls := [] })

/-- The calls of TAPE.EAR and TAPE.MIC that change nothing: EAR outside LOAD mode and after the tape's end returns 1
(R215), EAR before a block was started and out of tact order raises (R217, R216), MIC outside SAVE mode and without a
level change is ignored, MIC out of tact order raises (R236). -/
def Obligations.TapeCallsWithoutEffect : Prop :=
  ∀ (s : State) (tact : Nat) (value : Bool), TapeReady s →
    (s.tape.mode ≠ .load ∨ s.tape.playerCompleted = true →
      exec (.tapeEar tact) s = .next { s with result := .bit true, calls := [] }) ∧
    (s.tape.mode = .load → s.tape.playerCompleted = false → s.tape.initialised = false →
      exec (.tapeEar tact) s = .next { s with result := .error .tapeNotInitialised, calls := [] }) ∧
    (s.tape.mode = .load → s.tape.playerCompleted = false → s.tape.initialised = true → tact < s.tape.lastTact →
      exec (.tapeEar tact) s = .next { s with result := .error .tapeOrderViolation, calls := [] }) ∧
    (s.tape.mode ≠ .save ∨ value = s.tape.save.micBitState →
      exec (.tapeMic tact value) s = .next { s with result := .done, calls := [] }) ∧
    (s.tape.mode = .save → value ≠ s.tape.save.micBitState → tact < s.tape.save.lastActivityTact →
      exec (.tapeMic tact value) s = .next { s with result := .error .tapeOrderViolation, calls := [] })

/-- TAPE.EAR may be repeated at the same tact: the same level again, and no further change (R216). -/
def Obligations.EarRepeatsAtSameTact : Prop :=
  ∀ (s t : State) (tact : Nat), exec (.tapeEar tact) s = .next t → exec (.tapeEar tact) t = .next t

/-- TAPE.EAR in LOAD mode completes with a level (R206): it changes the playback state, the block index and the
completion flag only, never backwards, records the tact, and completes the tape exactly past its last block. -/
def Obligations.EarCompletes : Prop :=
  ∀ (s : State) (tact : Nat), TapeInv s.params.saveBufferCapacity s.tape → TapeReady s → s.tape.mode = .load →
    s.tape.playerCompleted = false → s.tape.initialised = true → s.tape.lastTact ≤ tact →
    ∃ level play k completed,
      exec (.tapeEar tact) s = .next { s with
        tape := { s.tape with play := play, blockIndex := k, playerCompleted := completed, lastTact := tact }
        result := .bit level, calls := [] } ∧
      s.tape.blockIndex ≤ k ∧ k ≤ s.tape.image.length ∧ (completed = true ↔ k = s.tape.image.length) ∧
      (completed = true → level = true)

/-- HEADLINE. However often the host polls, the EAR level at a tact is that of the timeline of R201 over the blocks from
the one that was started, each block starting where the one before it ended (R208, R210, R214). -/
def Obligations.EarFollowsTimeline : Prop :=
  ∀ (s : State) (start tact : Nat) (polls : List Nat), TapeReady s → s.tape.mode = .load →
    s.tape.blockIndex < s.tape.image.length → ¬ HasEmptyBlock s.tape.image →
    List.Pairwise (· ≤ ·) (start :: (polls ++ [tact])) →
    ∃ t, runAll (.tapeInitplay start :: ((polls ++ [tact]).map .tapeEar)) s = some t ∧
      t.result = .bit (tapeLevel (s.tape.image.drop s.tape.blockIndex) (tact - start))

/-- The pilot alternates with period 2 * 2168, starting high (R218). -/
def Obligations.PilotAlternates : Prop :=
  ∀ (s : State) (b : TapeBlock) (start tact : Nat), TapeReady s → s.tape.mode = .load →
    s.tape.image[s.tape.blockIndex]? = some b → ¬ HasEmptyBlock s.tape.image →
    start ≤ tact → tact < start + pilotCount b.data * 2168 →
    ∃ t, runAll [.tapeInitplay start, .tapeEar tact] s = some t ∧
      t.result = .bit (decide ((tact - start) % 4336 < 2168))

/-! ### Tape: saving -/

/-- The pulse classes by their windows, both ends included (R232), and the class of a width between windows (R233). -/
def Obligations.PulseClassWindows : Prop :=
  ∀ w : Nat,
    (classify w = .tooShort ↔ w < 643) ∧
    (classify w = .sync1 ↔ 643 ≤ w ∧ w ≤ 691) ∧
    (classify w = .sync2 ↔ 711 ≤ w ∧ w ≤ 759) ∧
    (classify w = .bit0 ↔ 831 ≤ w ∧ w ≤ 879) ∧
    (classify w = .termSync ↔ 923 ≤ w ∧ w ≤ 971) ∧
    (classify w = .bit1 ↔ 1686 ≤ w ∧ w ≤ 1734) ∧
    (classify w = .pilot ↔ 2144 ≤ w ∧ w ≤ 2192) ∧
    (classify w = .tooLong ↔ 2192 < w) ∧
    (classify w = .unclassified ↔
      692 ≤ w ∧ w ≤ 710 ∨ 760 ≤ w ∧ w ≤ 830 ∨ 880 ≤ w ∧ w ≤ 922 ∨ 972 ≤ w ∧ w ≤ 1685 ∨ 1735 ≤ w ∧ w ≤ 2143)

/-- An accepted MIC transition records its level and tact and takes the step of R240's table for the class of its
width (R236), with the data half-pulses of R242, the end of a block of R244 and the forced `Error` phase of R250. -/
def Obligations.MicStepTable : Prop :=
  ∀ (s : State) (tact : Nat) (value : Bool), Transition s tact value →
    let v := transitioned s tact value
    let c := pulseClassOf (tact - s.tape.save.lastActivityTact)
    match v.phase with
    | .none => MicGives s tact value (if c = .pilot then { v with phase := .pilot, pilotPulseCount := 1 } else v) []
    | .pilot =>
      MicGives s tact value
        (if c = .pilot then { v with pilotPulseCount := v.pilotPulseCount + 1 }
         else if c = .sync1 ∧ 3000 ≤ v.pilotPulseCount then { v with phase := .sync1 }
         else abandoned v) []
    | .sync1 => MicGives s tact value (if c = .sync2 then { v with phase := .sync2 } else abandoned v) []
    | .sync2 =>
      MicGives s tact value
        (if c = .bit0 ∨ c = .bit1 then
          { v with phase := .data, dataBuffer := [], bitOffset := 0, currentByte := 0, prevPulse := halfOf (c == .bit1) }
         else abandoned v) []
    | .data =>
      MicGives s tact value
        (if c = .bit0 ∨ c = .bit1 then dataHalf s.params.saveBufferCapacity (c == .bit1) v
         else if c = .termSync ∧ v.dataBuffer ≠ [] then { abandoned v with dataBlockCount := v.dataBlockCount + 1 }
         else abandoned v)
        (if c = .termSync ∧ v.dataBuffer ≠ [] then
          .blockSaved ⟨v.dataBuffer, s.params.savePauseMs⟩ ::
            (if v.dataBlockCount = 0 ∧ v.dataBuffer.length = 19 then [.nameSaved ((v.dataBuffer.drop 2).take 10)] else [])
         else [])
    | .error => MicGives s tact value v []

/-- HEADLINE. A byte sequence saved with exactly the nominal pulse widths, after at least 3000 pilot pulses, comes out as
the block that the sink receives, with the name where it is the session's first block and 19 bytes long (R254, R244). -/
def Obligations.SaveRoundTrip : Prop :=
  ∀ (s : State) (tact : Nat) (n : Nat) (bs : List Byte), TapeReady s → s.tape.mode = .passive → 3000 ≤ n →
    bs ≠ [] → bs.length ≤ s.params.saveBufferCapacity →
    ∃ t u, exec (.tapeEntersave tact) s = .next t ∧ runPulses (savePulses n bs) t = some u ∧
      u.tape.mode = .save ∧ u.tape.save.phase = .none ∧ u.tape.save.dataBlockCount = 1 ∧
      u.events = s.events ++ [.enteredSave, .blockSaved ⟨bs, s.params.savePauseMs⟩] ++
        (if bs.length = 19 then [.nameSaved ((bs.drop 2).take 10)] else [])

/-! ### Tape: modes and fast load -/

/-- TAPE.ENTERLOAD (R276): from `Passive` it restarts a finished tape, starts the current block at its tact and emits
the notice; an empty tape is entered as completed; elsewhere it is ignored; a block without data is an error. -/
def Obligations.EnterloadStartsTape : Prop :=
  ∀ (s : State) (tact : Nat), TapeReady s →
    (s.tape.mode ≠ .passive → exec (.tapeEnterload tact) s = .next { s with result := .done, calls := [] }) ∧
    (s.tape.mode = .passive → HasEmptyBlock s.tape.image →
      exec (.tapeEnterload tact) s = .next { s with result := .error .tapeEmptyBlock, calls := [] }) ∧
    (s.tape.mode = .passive → s.tape.image = [] →
      exec (.tapeEnterload tact) s = .next { s with
        tape := { s.tape with mode := .load, blockIndex := 0, playerCompleted := true, initialised := false }
        events := s.events ++ [.enteredLoad], result := .done, calls := [] }) ∧
    (s.tape.mode = .passive → ¬ HasEmptyBlock s.tape.image →
      let k := if s.tape.blockIndex < s.tape.image.length then s.tape.blockIndex else 0
      ∀ b, s.tape.image[k]? = some b →
        exec (.tapeEnterload tact) s = .next { s with
          tape := { s.tape with
            mode := .load, blockIndex := k, playerCompleted := false, initialised := true, lastTact := tact
            play := started b tact }
          events := s.events ++ [.enteredLoad], result := .done, calls := [] })

/-- TAPE.LEAVELOAD, TAPE.ENTERSAVE and TAPE.LEAVESAVE (R278, R280, R282): each acts in its one mode, with its notice,
and is ignored in the others; entering SAVE clears every save-side accumulator. -/
def Obligations.LeaveAndEntersave : Prop :=
  ∀ (s : State) (tact : Nat), TapeReady s →
    (s.tape.mode = .load →
      exec .tapeLeaveload s = .next { s with
        tape := { s.tape with mode := .passive }, events := s.events ++ [.leftLoad], result := .done, calls := [] }) ∧
    (s.tape.mode ≠ .load → exec .tapeLeaveload s = .next { s with result := .done, calls := [] }) ∧
    (s.tape.mode = .passive →
      exec (.tapeEntersave tact) s = .next { s with
        tape := { s.tape with
          mode := .save
          save := {
            phase := .none, pilotPulseCount := 0, bitOffset := 0, currentByte := 0, dataBuffer := []
            prevPulse := .noPulse, dataBlockCount := 0, lastActivityTact := tact, micBitState := true } }
        events := s.events ++ [.enteredSave], result := .done, calls := [] }) ∧
    (s.tape.mode ≠ .passive → exec (.tapeEntersave tact) s = .next { s with result := .done, calls := [] }) ∧
    (s.tape.mode = .save →
      exec .tapeLeavesave s = .next { s with
        tape := { s.tape with mode := .passive }, events := s.events ++ [.leftSave], result := .done, calls := [] }) ∧
    (s.tape.mode ≠ .save → exec .tapeLeavesave s = .next { s with result := .done, calls := [] })

/-- TAPE.SETMODE (R274, R275): only the tests of the current mode are made, and each leads to the direct operation of
its transition; where none holds the call changes nothing. -/
def Obligations.SetmodeActsByMode : Prop :=
  ∀ (s : State) (pc : Addr) (tact : Nat), TapeReady s →
    (s.tape.mode = .passive → pc = s.params.loadHook → s.params.fastLoadEnabled = false →
      exec (.tapeSetmode pc tact) s = exec (.tapeEnterload tact) s) ∧
    (s.tape.mode = .passive → pc = s.params.loadHook → s.params.fastLoadEnabled = true →
      exec (.tapeSetmode pc tact) s = exec (.tapeFastload tact) s) ∧
    (s.tape.mode = .passive → pc ≠ s.params.loadHook → pc = s.params.saveHook →
      exec (.tapeSetmode pc tact) s = exec (.tapeEntersave tact) s) ∧
    (s.tape.mode = .passive → pc ≠ s.params.loadHook → pc ≠ s.params.saveHook →
      exec (.tapeSetmode pc tact) s = .next { s with result := .done, calls := [] }) ∧
    (s.tape.mode = .load → s.tape.playerCompleted = true ∨ pc = s.params.errorHook →
      exec (.tapeSetmode pc tact) s = .next { s with
        tape := { s.tape with mode := .passive }, events := s.events ++ [.leftLoad], result := .done, calls := [] }) ∧
    (s.tape.mode = .load → s.tape.playerCompleted = false → pc ≠ s.params.errorHook →
      exec (.tapeSetmode pc tact) s = .next { s with result := .done, calls := [] }) ∧
    (s.tape.mode = .save → pc = s.params.errorHook ∨ s.tape.save.lastActivityTact + 17500000 ≤ tact →
      exec (.tapeSetmode pc tact) s = .next { s with
        tape := { s.tape with mode := .passive }, events := s.events ++ [.leftSave], result := .done, calls := [] }) ∧
    (s.tape.mode = .save → pc ≠ s.params.errorHook → tact < s.tape.save.lastActivityTact + 17500000 →
      exec (.tapeSetmode pc tact) s = .next { s with result := .done, calls := [] })

/-- TAPE.FASTLOAD where the facility is enabled (R285, R287): no block, nothing happens; else the tape advances one
block, and a block of the wrong type redirects the pc, while one of the expected type is copied to IX upwards, IX and DE
move by the bytes copied, and carry and zero report the XOR of flag, body and checksum. -/
def Obligations.FastloadCopiesBlock : Prop :=
  ∀ (s : State) (tact : Nat), s.params.fastLoadEnabled = true → TapeReady s →
    let p := s.params
    let cpu := s.host.cpu
    (s.tape.image.length ≤ s.tape.blockIndex →
      exec (.tapeFastload tact) s = .next { s with result := .done, calls := [] }) ∧
    ∀ b, s.tape.image[s.tape.blockIndex]? = some b →
      let tape := { s.tape with
        blockIndex := s.tape.blockIndex + 1
        initialised := false
        playerCompleted := s.tape.playerCompleted || decide (s.tape.blockIndex + 1 = s.tape.image.length) }
      let k := min cpu.de.toNat (b.data.length - 1)
      (b.data.head? ≠ some (cpu.get8 p.fastLoadTypeReg) →
        exec (.tapeFastload tact) s = .next { s with
          tape := tape
          host := { s.host with cpu := { cpu with carry := false, zero := false, pc := p.loadMismatch } }
          result := .done
          calls := [.regGet (.reg8 p.fastLoadTypeReg), .setFlags false false, .setPc p.loadMismatch] }) ∧
      (b.data.head? = some (cpu.get8 p.fastLoadTypeReg) →
        let whole := decide (cpu.de.toNat + 2 ≤ b.data.length)
        let carry := whole && xorBytes (b.data.take (cpu.de.toNat + 2)) == 0
        let zero := whole && xorBytes (b.data.take (cpu.de.toNat + 2)) == 1
        let ix := cpu.ix + BitVec.ofNat 16 k
        let de := BitVec.ofNat 16 (cpu.de.toNat - k)
        ∃ mem, exec (.tapeFastload tact) s = .next { s with
            tape := tape
            host := { s.host with
              mem := mem, cpu := { cpu with ix := ix, de := de, carry := carry, zero := zero, pc := p.loadResume } }
            result := .done
            calls := [.regGet (.reg8 p.fastLoadTypeReg), .regGet .de, .regGet .ix] ++
              (List.range k).map (fun j => .memWrite (cpu.ix + BitVec.ofNat 16 j) (b.data.getD (1 + j) 0)) ++
              [.regSet .ix ix, .regSet .de de, .setFlags carry zero, .setPc p.loadResume] } ∧
          (∀ a : Addr, mem.read a.toNat =
            if (a - cpu.ix).toNat < k then b.data.getD (1 + (a - cpu.ix).toNat) 0 else s.host.mem.read a.toNat) ∧
          ∀ a, 65536 ≤ a → mem.read a = s.host.mem.read a)

/-! ### Floppy: the byte protocol -/

/-- FDC.WRITE by the phase it finds (R304, R305, R308): while DIO is 1 the byte is ignored; a data byte is stored, the
last one ending WriteData; a command byte is decoded, executed at once where it has no parameters, absorbed where it is
none of the nine, and otherwise awaits its parameters; a parameter byte is stored, the last one executing the command. -/
def Obligations.FdcWriteByPhase : Prop :=
  ∀ (s : State) (b : Byte),
    let gives := fun u : Floppy => exec (.fdcWrite b) s = .next { s with
      fdc := u.1, disk := u.2, result := .done, calls := [] }
    (s.fdc.dio = true → gives (s.fdc, s.disk)) ∧
    (s.fdc.inPhase .receivingData →
      let f := { s.fdc with
        pendingDataBytes := s.fdc.pendingDataBytes.set s.fdc.dataCursor b, dataCursor := s.fdc.dataCursor + 1 }
      (f.dataCursor = f.dataLen → gives (writeDataFinish s.params f s.disk)) ∧
      (f.dataCursor ≠ f.dataLen → gives (f, s.disk))) ∧
    (s.fdc.inPhase .acceptingCommand →
      let f := { s.fdc with activeCommand := (fdcDecode b).1, paramsReceived := 0 }
      ((fdcDecode b).1 = .none → gives (f, s.disk)) ∧
      ((fdcDecode b).1 ≠ .none → (fdcDecode b).2 = 0 → gives (executeCommand s.params f s.disk)) ∧
      ((fdcDecode b).2 ≠ 0 → gives ({ f with acceptingCommand := false, mainStatusRegister := 0x90 }, s.disk))) ∧
    (s.fdc.inPhase .receivingParameters → ∀ k : Fin 8, s.fdc.paramsReceived = k.val →
      let f := { s.fdc with params := s.fdc.params.set k.val b k.isLt, paramsReceived := k.val + 1 }
      (k.val + 1 = s.fdc.activeCommand.paramCount → gives (executeCommand s.params f s.disk)) ∧
      (k.val + 1 ≠ s.fdc.activeCommand.paramCount → gives (f, s.disk)))

/-- FDC.READ by the phase it finds (R314), and FDC.STATUS (R316): with DIO 0 a read gives 0xFF and changes nothing; data
bytes come first, the last one logged and followed by the result bytes; the last result byte ends the command (R324). A
status read gives the main status register and changes nothing. -/
def Obligations.FdcReadByPhase : Prop :=
  ∀ (s : State),
    let f := s.fdc
    (exec .fdcStatus s = .next { s with result := .byte f.mainStatusRegister, calls := [] }) ∧
    (f.dio = false → exec .fdcRead s = .next { s with result := .byte 0xFF, calls := [] }) ∧
    (f.inPhase .sendingData → ∀ v, f.pendingDataBytes[f.dataCursor]? = some v →
      (f.dataCursor + 1 < f.pendingDataBytes.length →
        exec .fdcRead s = .next { s with
          fdc := { f with dataCursor := f.dataCursor + 1 }, result := .byte v, calls := [] }) ∧
      (f.dataCursor + 1 = f.pendingDataBytes.length →
        exec .fdcRead s = .next { s with
          fdc := { f with dataCursor := f.dataCursor + 1, executionStatus := false, mainStatusRegister := 0xD0 }
          events := s.events ++ [.fdcDataLog f.pendingDataBytes], result := .byte v, calls := [] })) ∧
    (f.inPhase .sendingResult → ∀ v, f.pendingResultBytes[f.resultCursor]? = some v →
      (f.resultCursor + 1 < f.pendingResultBytes.length →
        exec .fdcRead s = .next { s with
          fdc := { f with resultCursor := f.resultCursor + 1 }, result := .byte v, calls := [] }) ∧
      (f.resultCursor + 1 = f.pendingResultBytes.length →
        exec .fdcRead s = .next { s with
          fdc := finished { f with resultCursor := f.resultCursor + 1 }, result := .byte v, calls := [] }))

/-- What a command left to be read is read byte by byte, the data before the result, and the last byte leaves the
controller accepting commands (R314, R113). -/
def Obligations.ReadsDrainDataThenResult : Prop :=
  ∀ (s : State) (f : FdcState) (data result : List Byte), s.fdc = sending f data result → result ≠ [] →
    ∀ (k : Nat) (v : Byte), (data ++ result)[k]? = some v →
      ∃ t, runAll (List.replicate (k + 1) .fdcRead) s = some t ∧ t.result = .byte v ∧
        (Idle t.fdc ↔ k + 1 = data.length + result.length)

/-- An FDC command is its bytes: the instruction does what FDC.WRITE of its command byte and its parameter bytes, one
after another, does, in every phase (R130, R132; log 4). -/
def Obligations.FdcCommandsAreWrittenBytes : Prop :=
  ∀ (i : Instr) (s : State), i.format = .fdc →
    ∃ t, exec i s = .next t ∧ runAll ((encode i).map .fdcWrite) s = some t

/-! ### Floppy: the commands, issued where a command byte is awaited -/

/-- Specify, Recalibrate, Seek and None complete without a result (R346, R350, R354, R370). -/
def Obligations.CommandsWithoutResult : Prop :=
  ∀ (s : State) (p0 p1 b : Byte), Idle s.fdc →
    exec (.fdcSpecify p0 p1) s = .next { s with
      fdc := finished { received s.fdc .specify [p0, p1] with
        stepRateTime := BitVec.ofNat 4 (p0.toNat / 16)
        headUnloadTime := BitVec.ofNat 4 (p0.toNat % 16)
        headLoadTime := BitVec.ofNat 7 (p1.toNat / 2)
        nonDmaMode := decide (p1.toNat % 2 = 1) }
      result := .done, calls := [] } ∧
    exec (.fdcRecalibrate p0) s = .next { s with
      fdc := finished (positioned (selected (received s.fdc .recalibrate [p0]) p0) 0 1)
      result := .done, calls := [] } ∧
    exec (.fdcSeek p0 p1) s = .next { s with
      fdc := finished (positioned (selected (received s.fdc .seek [p0, p1]) p0) (BitVec.ofNat 8 (min p1.toNat 79)) 1)
      result := .done, calls := [] } ∧
    ((Instr.fdcNone b).wellFormed = true →
      exec (.fdcNone b) s = .next { s with
        fdc := { s.fdc with activeCommand := .none, paramsReceived := 0 }, result := .done, calls := [] })

/-- SenseDriveStatus answers ST3, SenseInterruptStatus ST0 and the current track (R349, R352). -/
def Obligations.SenseCommands : Prop :=
  ∀ (s : State) (p0 : Byte), Idle s.fdc →
    (let f := selected (received s.fdc .senseDriveStatus [p0]) p0
     let st3 := s.params.fdcSt3Flags ||| (if trackByte f = 0 then 0x10#8 else 0) ||| (headByte f <<< 2) |||
       f.selectedDrive.setWidth 8
     exec (.fdcSenseDriveStatus p0) s = .next { s with
       fdc := sending { f with st3 := st3 } [] [st3], result := .done, calls := [] }) ∧
    (let f := received s.fdc .senseInterruptStatus []
     let st0 := st0Success s.params.fdcSisSt0High f
     exec .fdcSenseInterruptStatus s = .next { s with
       fdc := sending { f with st0 := st0 } [] [st0, trackByte f], result := .done, calls := [] })

/-- ReadId names the sector the drive is positioned at, or ends abnormally where the position is off the disk (R356). -/
def Obligations.ReadIdNamesPosition : Prop :=
  ∀ (s : State) (b6 : BitVec 1) (p0 : Byte), Idle s.fdc →
    let f := selected (received s.fdc .readId [p0]) p0
    (OffDisk f s.disk →
      exec (.fdcReadId b6 p0) s = .next { s with
        fdc := abnormal f (trackByte f) (headByte f) (sectorByte f) 2, result := .done, calls := [] }) ∧
    (¬ OffDisk f s.disk → ∀ x0 s1 s2,
      rwStatus s.params (driveGet f.headPerDrive f.selectedDrive) (sectorByte f) = (x0, s1, s2) →
      exec (.fdcReadId b6 p0) s = .next { s with
        fdc := standard f (st0Success x0 f) s1 s2 [] (trackByte f) (headByte f) (sectorByte f) 2
        result := .done, calls := [] })

/-- ReadData sends the first `L` bytes of the addressed sector and then the standard result, or ends abnormally without
data (R358, R343, R344, R342). -/
def Obligations.ReadDataSendsSector : Prop :=
  ∀ (s : State) (hi : BitVec 3) (p : RwParams), Idle s.fdc →
    let f := selected (received s.fdc .readData p.toBytes) p.hdUs
    let len := lengthOf p.n p.dtl
    let error := diskError s.disk (headByte f).toNat p.c.toNat p.r.toNat len
    (Mispositioned f p ∨ error ≠ none →
      exec (.fdcReadData hi p) s = .next { s with
        fdc := abnormal f p.c p.h p.r p.n, result := .done, calls := [] }) ∧
    (¬ Mispositioned f p → error = none → ∀ d x0 s1 s2, s.disk = some d →
      rwStatus s.params (driveGet f.headPerDrive f.selectedDrive) p.r = (x0, s1, s2) →
      exec (.fdcReadData hi p) s = .next { s with
        fdc := standard { f with sectorPerDrive := driveSet f.sectorPerDrive f.selectedDrive p.r } (st0Success x0 f) s1 s2
          (bytesAt d.region (offsetOf d (headByte f).toNat p.c.toNat p.r.toNat) len) p.c p.h p.r p.n
        result := .done, calls := [] })

/-- FormatTrack fills the declared size of each of the sectors 1 to SC of the current track and changes no other byte, or
ends abnormally and writes nothing (R362, R112). -/
def Obligations.FormatTrackFillsSectors : Prop :=
  ∀ (s : State) (b6 b1 : BitVec 1) (p : FormatParams), Idle s.fdc → (Instr.fdcFormatTrack b6 b1 p).wellFormed = true →
    let f := selected (received s.fdc .formatTrack p.toBytes) p.hdUs
    let refused := OffDisk f s.disk ∨ 2 < p.n.toNat ∨ p.sc = 0 ∨ ∃ d, s.disk = some d ∧ d.sectorsPerTrack.toNat < p.sc.toNat
    (refused →
      exec (.fdcFormatTrack b6 b1 p) s = .next { s with
        fdc := abnormal f (trackByte f) (headByte f) p.sc p.n, result := .done, calls := [] }) ∧
    (¬ refused → ∀ d x0 s1 s2, s.disk = some d →
      rwStatus s.params (driveGet f.headPerDrive f.selectedDrive) p.sc = (x0, s1, s2) →
      ∃ region,
        exec (.fdcFormatTrack b6 b1 p) s = .next { s with
          fdc := standard f (st0Success x0 f) s1 s2 [] (trackByte f) (headByte f) p.sc p.n
          disk := some { d with region := region }, result := .done, calls := [] } ∧
        let first := offsetOf d (headByte f).toNat (trackByte f).toNat 1
        ∀ a, region.read a =
          if first ≤ a ∧ a < first + p.sc.toNat * 512 ∧ (a - first) % 512 < 128 * 2 ^ p.n.toNat then p.d
          else d.region.read a)

/-- WriteData validates everything before it accepts a data byte (R366); the byte that completes its data writes the
sector and leaves the standard result, or ends abnormally where the disk no longer takes the write (R367). -/
def Obligations.WriteDataWritesSector : Prop :=
  ∀ (s : State),
    (∀ (hi : BitVec 2) (p : RwParams), Idle s.fdc →
      let f := selected (received s.fdc .writeData p.toBytes) p.hdUs
      let len := lengthOf p.n p.dtl
      let error := diskError s.disk (headByte f).toNat p.c.toNat p.r.toNat len
      (Mispositioned f p ∨ error ≠ none →
        exec (.fdcWriteData hi p) s = .next { s with
          fdc := abnormal f p.c p.h p.r p.n, result := .done, calls := [] }) ∧
      (¬ Mispositioned f p → error = none →
        exec (.fdcWriteData hi p) s = .next { s with
          fdc := receivingData f len, result := .done, calls := [] })) ∧
    (∀ b : Byte, s.fdc.inPhase .receivingData → s.fdc.dataCursor + 1 = s.fdc.dataLen →
      let p := s.fdc.rwParams
      let buffer := s.fdc.pendingDataBytes.set s.fdc.dataCursor b
      let f := { s.fdc with pendingDataBytes := buffer, dataCursor := s.fdc.dataCursor + 1 }
      let error := diskError s.disk (headByte f).toNat p.c.toNat p.r.toNat buffer.length
      (error ≠ none →
        exec (.fdcWrite b) s = .next { s with fdc := abnormal f p.c p.h p.r p.n, result := .done, calls := [] }) ∧
      (error = none → ∀ d x0 s1 s2, s.disk = some d →
        rwStatus s.params (driveGet f.headPerDrive f.selectedDrive) p.r = (x0, s1, s2) →
        ∃ region,
          exec (.fdcWrite b) s = .next { s with
            fdc := standard { f with sectorPerDrive := driveSet f.sectorPerDrive f.selectedDrive p.r } (st0Success x0 f)
              s1 s2 [] p.c p.h p.r p.n
            disk := some { d with region := region }, result := .done, calls := [] } ∧
          BytesStored d.region region (offsetOf d (headByte f).toNat p.c.toNat p.r.toNat) buffer))

/-- HEADLINE. A sector written through the controller is read back through it: WriteData, its data bytes, the seven
result bytes, then ReadData of the same sector leaves exactly those bytes to be read (R358, R366, R367). -/
def Obligations.SectorRoundTripThroughController : Prop :=
  ∀ (s : State) (d : Disk) (hi : BitVec 2) (hi' : BitVec 3) (p : RwParams) (data : List Byte),
    Idle s.fdc → s.disk = some d → DiskInv d → p.c.toNat < 40 → 1 ≤ p.r.toNat → p.r.toNat ≤ 9 →
    p.c = driveGet s.fdc.trackPerDrive (usOf p.hdUs) → p.h.toNat = p.hdUs.toNat / 4 % 2 →
    data ≠ [] → data.length = lengthOf p.n p.dtl →
    ∃ t, runAll ([.fdcWriteData hi p] ++ data.map .fdcWrite ++ List.replicate 7 .fdcRead ++ [.fdcReadData hi' p]) s =
        some t ∧
      t.fdc.inPhase .sendingData ∧ t.fdc.pendingDataBytes = data ∧ t.fdc.dataCursor = 0

/-! ### Disk store -/

/-- DSK.CREATE attaches an image with the header and zero-filled sectors; DSK.OPEN attaches the image it is given, or
raises the error of the first check that fails and leaves the disk as it was (R394, R396). -/
def Obligations.DiskAttaches : Prop :=
  ∀ (s : State) (image : List Byte),
    (∃ region, exec .dskCreate s = .next { s with
        disk := some { doubleSided := 1, tracks := 40, sectorsPerTrack := 9, region := region }
        result := .done, calls := [] } ∧
      Memory.wf region = true ∧
      ∀ a, region.read a = [0x56#8, 0x46, 0x44, 0x44, 0x46, 0x01, 0x28, 0x09].getD a 0) ∧
    (∀ e, openError image = some e →
      exec (.dskOpen image) s = .next { s with result := .error e, calls := [] }) ∧
    (openError image = none →
      ∃ region, exec (.dskOpen image) s = .next { s with
          disk := some { doubleSided := 1, tracks := 40, sectorsPerTrack := 9, region := region }
          result := .done, calls := [] } ∧
        Memory.wf region = true ∧ ∀ a, region.read a = image.getD a 0)

/-- DSK.READ returns the bytes from the sector's offset on and changes nothing; DSK.WRITE stores its bytes there and
changes no other; each raises the error of the first check of R404 that fails, changing nothing (R398, R400, R402). -/
def Obligations.DiskReadsAndWrites : Prop :=
  ∀ (s : State) (head track sector length : Nat) (data : List Byte),
    (∀ e, diskError s.disk head track sector length = some e →
      exec (.dskRead head track sector length) s = .next { s with result := .error e, calls := [] }) ∧
    (∀ e, diskError s.disk head track sector data.length = some e →
      exec (.dskWrite head track sector data) s = .next { s with result := .error e, calls := [] }) ∧
    ∀ d, s.disk = some d →
      (diskError s.disk head track sector length = none →
        exec (.dskRead head track sector length) s = .next { s with
          result := .bytes (bytesAt d.region (offsetOf d head track sector) length), calls := [] }) ∧
      (diskError s.disk head track sector data.length = none →
        ∃ region, exec (.dskWrite head track sector data) s = .next { s with
            disk := some { d with region := region }, result := .done, calls := [] } ∧
          BytesStored d.region region (offsetOf d head track sector) data)

/-- HEADLINE. Over the full geometry, what is written to a sector is read back, no byte of another sector or of the
header changes, the offset is R402's, and the four out-of-range requests raise (R408). -/
def Obligations.DiskRoundTrip : Prop :=
  ∀ (s : State) (d : Disk) (head track sector : Nat) (data : List Byte), s.disk = some d → DiskInv d →
    head ≤ 1 → track < 40 → 1 ≤ sector → sector ≤ 9 → 1 ≤ data.length → data.length ≤ 512 →
    (∃ t u, exec (.dskWrite head track sector data) s = .next t ∧
      exec (.dskRead head track sector data.length) t = .next u ∧ u.result = .bytes data ∧
      (∀ head' track' sector' n, head' ≤ 1 → track' < 40 → 1 ≤ sector' → sector' ≤ 9 → 1 ≤ n → n ≤ 512 →
        (head', track', sector') ≠ (head, track, sector) →
        ∃ before after, exec (.dskRead head' track' sector' n) s = .next before ∧
          exec (.dskRead head' track' sector' n) t = .next after ∧ after.result = before.result) ∧
      ∃ d', t.disk = some d' ∧ ∀ a, d'.region.read a =
        if sectorOffset head track sector ≤ a ∧ a < sectorOffset head track sector + data.length
        then data.getD (a - sectorOffset head track sector) 0 else d.region.read a) ∧
    (∀ i field, (i, field) ∈ [(Instr.dskRead head 40 sector data.length, DiskField.track),
        (.dskRead head track 0 data.length, .sector), (.dskRead head track 10 data.length, .sector),
        (.dskRead 2 track sector data.length, .head), (.dskWrite head 40 sector data, .track),
        (.dskWrite head track 0 data, .sector), (.dskWrite head track 10 data, .sector),
        (.dskWrite 2 track sector data, .head)] →
      exec i s = .next { s with result := .error (.diskDomainError field), calls := [] })

end Statements
end

