-- ==== Sys2Proof/Laws/Decode.lean ====
section
/-! SUPPORT. One reading lemma for each reader of the decoder over what the encoder writes, and the other way round: what a
reader accepts is what the encoder writes. -/

namespace Sys2Proof

/-! ### Reading what was written -/

theorem readNat_natBytes (k n : Nat) (r : List Byte) (h : n < 256 ^ k) : readNat k (natBytes k n ++ r) = .ok (n, r) := by
  induction k generalizing n with
  | zero => simp only [Nat.pow_zero] at h; simp [natBytes, readNat]; omega
  | succ k ih =>
    have : n / 256 < 256 ^ k := by rw [Nat.pow_succ] at h; omega
    simp only [natBytes, List.cons_append, readNat, ih _ this, BitVec.toNat_ofNat]
    congr 2; omega

theorem isU64_iff {n : Nat} : isU64 n = true ↔ n < 256 ^ 8 := by
  simp only [isU64, u64Limit]; norm_num

@[simp] theorem readU64_u64Bytes (n : Nat) (r : List Byte) (h : isU64 n = true) : readU64 (u64Bytes n ++ r) = .ok (n, r) :=
  readNat_natBytes 8 n r (isU64_iff.mp h)

@[simp] theorem readU16_u16Bytes (a : Addr) (r : List Byte) : readU16 (u16Bytes a ++ r) = .ok (a, r) := by
  have : a.extractLsb' 8 8 ++ a.extractLsb' 0 8 = a := by
    ext i hi; simp; grind
  simp [readU16, u16Bytes, this]

@[simp] theorem readBool_boolByte (v : Bool) (r : List Byte) : readBool (boolByte v :: r) = .ok (v, r) := by
  cases v <;> simp [readBool, boolByte]

@[simp] theorem readExactly_append (bs r : List Byte) : readExactly bs.length (bs ++ r) = .ok (bs, r) := by
  induction bs with
  | nil => rfl
  | cons b bs ih => simp [readExactly, ih]

@[simp] theorem readBytes_countedBytes (bs r : List Byte) (h : isU64 bs.length = true) :
    readBytes (countedBytes bs ++ r) = .ok (bs, r) := by
  simp only [readBytes, countedBytes, List.append_assoc, readU64_u64Bytes _ _ h, bind, Except.bind, readExactly_append]

theorem readU64s_flatMap (ns : List Nat) (r : List Byte) (h : ns.all isU64 = true) :
    readU64s ns.length (ns.flatMap u64Bytes ++ r) = .ok (ns, r) := by
  induction ns with
  | nil => rfl
  | cons n ns ih =>
    simp only [List.all_cons, Bool.and_eq_true] at h
    simp only [List.flatMap_cons, List.append_assoc, List.length_cons, readU64s, readU64_u64Bytes _ _ h.1, bind, Except.bind,
      ih h.2]

theorem readPattern_bytes (ns : List Nat) (r : List Byte) (hl : isU64 ns.length = true) (h : ns.all isU64 = true) :
    readPattern (u64Bytes ns.length ++ (ns.flatMap u64Bytes ++ r)) = .ok (ns, r) := by
  simp only [readPattern, readU64_u64Bytes _ _ hl, bind, Except.bind, readU64s_flatMap _ _ h]

theorem Geometry.wellFormed_iff (g : Geometry) : g.wellFormed = true ↔
    g.numbers.all isU64 = true ∧ isU64 g.contentionPattern.length = true ∧ g.contentionPattern.all isU64 = true := by
  simp only [Geometry.wellFormed, Geometry.numbers, List.all_cons, List.all_nil, Bool.and_eq_true, Bool.and_true]
  grind

@[simp] theorem Geometry.ofNumbers_numbers (g : Geometry) : Geometry.ofNumbers g.contentionPattern g.numbers = some g := rfl

theorem Geometry.ofNumbers_some {ns pattern : List Nat} {g : Geometry} (h : Geometry.ofNumbers pattern ns = some g) :
    g.numbers = ns ∧ g.contentionPattern = pattern := by
  unfold Geometry.ofNumbers at h
  split at h
  · cases h; exact ⟨rfl, rfl⟩
  · simp at h

theorem readGeometry_bytes (g : Geometry) (r : List Byte) (h : g.wellFormed = true) :
    readGeometry (g.bytes ++ r) = .ok (g, r) := by
  obtain ⟨h1, h2, h3⟩ := g.wellFormed_iff.mp h
  have := readU64s_flatMap g.numbers (u64Bytes g.contentionPattern.length ++ (g.contentionPattern.flatMap u64Bytes ++ r)) h1
  rw [show g.numbers.length = 16 from rfl] at this
  simp only [readGeometry, Geometry.bytes, List.append_assoc, bind, Except.bind, this, readPattern_bytes _ _ h2 h3,
    Geometry.ofNumbers_numbers]

/-! ### Writing what was read -/

theorem length_natBytes (k n : Nat) : (natBytes k n).length = k := by
  induction k generalizing n with
  | zero => rfl
  | succ k ih => simp [natBytes, ih]

theorem readNat_ok {k n : Nat} {bs r : List Byte} (h : readNat k bs = .ok (n, r)) :
    n < 256 ^ k ∧ natBytes k n ++ r = bs := by
  induction k generalizing n bs with
  | zero => simp only [readNat, Except.ok.injEq, Prod.mk.injEq] at h; simp [natBytes, ← h.1, h.2]
  | succ k ih =>
    cases bs with
    | nil => simp [readNat] at h
    | cons b bs =>
      simp only [readNat] at h
      split at h
      · rename_i m r' hm
        simp only [Except.ok.injEq, Prod.mk.injEq] at h
        obtain ⟨rfl, rfl⟩ := h
        have := ih hm
        have hb := b.isLt
        refine ⟨by rw [Nat.pow_succ]; omega, ?_⟩
        have h1 : BitVec.ofNat 8 (b.toNat + 256 * m) = b := by apply BitVec.eq_of_toNat_eq; simp; omega
        have h2 : (b.toNat + 256 * m) / 256 = m := by omega
        simp [natBytes, h1, h2, this.2]
      · simp at h

theorem readU64_ok {n : Nat} {bs r : List Byte} (h : readU64 bs = .ok (n, r)) : isU64 n = true ∧ u64Bytes n ++ r = bs :=
  ⟨isU64_iff.mpr (readNat_ok h).1, (readNat_ok h).2⟩

theorem readByte_ok {b : Byte} {bs r : List Byte} (h : readByte bs = .ok (b, r)) : b :: r = bs := by
  cases bs <;> simp_all [readByte]

theorem readU16_ok {a : Addr} {bs r : List Byte} (h : readU16 bs = .ok (a, r)) : u16Bytes a ++ r = bs := by
  unfold readU16 at h
  split at h
  · rename_i lo hi bs
    simp only [Except.ok.injEq, Prod.mk.injEq] at h
    obtain ⟨rfl, rfl⟩ := h
    have h1 : (hi ++ lo).extractLsb' 0 8 = lo := by ext i h; simp; grind
    have h2 : (hi ++ lo).extractLsb' 8 8 = hi := by ext i h; simp; grind
    simp [u16Bytes, h1, h2]
  · simp at h

theorem readBool_ok {v : Bool} {bs r : List Byte} (h : readBool bs = .ok (v, r)) : boolByte v :: r = bs := by
  unfold readBool at h
  split at h
  · simp at h
  · split at h
    · grind [boolByte]
    · split at h <;> grind [boolByte]

theorem readExactly_ok {n : Nat} {xs bs r : List Byte} (h : readExactly n bs = .ok (xs, r)) :
    xs.length = n ∧ xs ++ r = bs := by
  induction n generalizing bs xs with
  | zero => simp only [readExactly, Except.ok.injEq, Prod.mk.injEq] at h; simp [← h.1, h.2]
  | succ n ih =>
    cases bs with
    | nil => simp [readExactly] at h
    | cons b bs =>
      simp only [readExactly] at h
      split at h
      · rename_i m r' hm
        simp only [Except.ok.injEq, Prod.mk.injEq] at h
        obtain ⟨rfl, rfl⟩ := h
        simp [ih hm]
      · simp at h

theorem readBytes_ok {xs bs r : List Byte} (h : readBytes bs = .ok (xs, r)) :
    isU64 xs.length = true ∧ countedBytes xs ++ r = bs := by
  simp only [readBytes, bind, Except.bind] at h
  split at h
  · simp at h
  · rename_i u hu
    have h1 := readU64_ok (n := u.1) (r := u.2) hu
    have h2 := readExactly_ok h
    rw [← h2.1] at h1
    exact ⟨h1.1, by simp [countedBytes, h2.2, h1.2]⟩

theorem readU64s_ok {k : Nat} {ns : List Nat} {bs r : List Byte} (h : readU64s k bs = .ok (ns, r)) :
    ns.length = k ∧ ns.all isU64 = true ∧ ns.flatMap u64Bytes ++ r = bs := by
  induction k generalizing ns bs with
  | zero => simp only [readU64s, Except.ok.injEq, Prod.mk.injEq] at h; simp [← h.1, h.2]
  | succ k ih =>
    simp only [readU64s, bind, Except.bind] at h
    split at h
    · simp at h
    · rename_i u hu
      split at h
      · simp at h
      · rename_i w hw
        simp only [Except.ok.injEq, Prod.mk.injEq] at h
        obtain ⟨rfl, rfl⟩ := h
        have h1 := readU64_ok (n := u.1) (r := u.2) hu
        have h2 := ih (ns := w.1) hw
        simp_all

theorem readPattern_ok {ns : List Nat} {bs r : List Byte} (h : readPattern bs = .ok (ns, r)) :
    isU64 ns.length = true ∧ ns.all isU64 = true ∧ u64Bytes ns.length ++ (ns.flatMap u64Bytes ++ r) = bs := by
  simp only [readPattern, bind, Except.bind] at h
  split at h
  · simp at h
  · rename_i u hu
    have h1 := readU64_ok (n := u.1) (r := u.2) hu
    have h2 := readU64s_ok h
    rw [← h2.1] at h1
    exact ⟨h1.1, h2.2.1, by rw [h2.2.2, h1.2]⟩

theorem readGeometry_ok {g : Geometry} {bs r : List Byte} (h : readGeometry bs = .ok (g, r)) :
    g.wellFormed = true ∧ g.bytes ++ r = bs := by
  simp only [readGeometry, bind, Except.bind] at h
  split at h
  · simp at h
  · rename_i u hu
    split at h
    · simp at h
    · rename_i w hw
      split at h
      · rename_i g' hg
        simp only [Except.ok.injEq, Prod.mk.injEq] at h
        obtain ⟨rfl, rfl⟩ := h
        have h1 := readU64s_ok (ns := u.1) (r := u.2) hu
        have h2 := readPattern_ok (ns := w.1) (r := w.2) hw
        obtain ⟨e1, e2⟩ := Geometry.ofNumbers_some hg
        refine ⟨g'.wellFormed_iff.mpr (by rw [e1, e2]; exact ⟨h1.2.1, h2.1, h2.2.1⟩), ?_⟩
        simp only [Geometry.bytes, e1, e2, List.append_assoc, h2.2.2, h1.2.2]
      · simp at h

theorem readRwParams_ok {p : RwParams} {bs r : List Byte} (h : readRwParams bs = .ok (p, r)) : p.toBytes ++ r = bs := by
  unfold readRwParams at h
  split at h
  · simp only [Except.ok.injEq, Prod.mk.injEq] at h; obtain ⟨rfl, rfl⟩ := h; rfl
  · simp at h

theorem readFormatParams_ok {p : FormatParams} {bs r : List Byte} (h : readFormatParams bs = .ok (p, r)) :
    p.toBytes ++ r = bs := by
  unfold readFormatParams at h
  split at h
  · simp only [Except.ok.injEq, Prod.mk.injEq] at h; obtain ⟨rfl, rfl⟩ := h; rfl
  · simp at h

/-! ### Command bytes -/

/-- A command byte's decode and its ignored bits determine it (R105). -/
theorem fdcDecode_byte : ∀ b : Byte,
    ((fdcDecode b).1 = .specify → b = 0x03) ∧
    ((fdcDecode b).1 = .senseDriveStatus → b = 0x04) ∧
    ((fdcDecode b).1 = .recalibrate → b = 0x07) ∧
    ((fdcDecode b).1 = .senseInterruptStatus → b = 0x08) ∧
    ((fdcDecode b).1 = .seek → b = 0x0F) ∧
    ((fdcDecode b).1 = .readId → readIdByte (b.extractLsb' 6 1) = b) ∧
    ((fdcDecode b).1 = .readData → readDataByte (b.extractLsb' 5 3) = b) ∧
    ((fdcDecode b).1 = .formatTrack → formatTrackByte (b.extractLsb' 6 1) (b.extractLsb' 1 1) = b ∧
      (!(b.extractLsb' 6 1 == 0 && b.extractLsb' 1 1 == 1)) = true) ∧
    ((fdcDecode b).1 = .writeData → writeDataByte (b.extractLsb' 6 2) = b) ∧
    ((fdcDecode b).1 = .none → matchesNoFdcRow b = true) := by decide +kernel

theorem fdcDecode_readIdByte : ∀ b6, fdcDecode (readIdByte b6) = (.readId, 1) := by decide
theorem fdcDecode_readDataByte : ∀ hi, fdcDecode (readDataByte hi) = (.readData, 8) := by decide
theorem fdcDecode_formatTrackByte : ∀ b6 b1 : BitVec 1, ¬(b6 = 0 ∧ b1 = 1) →
    fdcDecode (formatTrackByte b6 b1) = (.formatTrack, 5) := by decide
theorem fdcDecode_writeDataByte : ∀ hi, fdcDecode (writeDataByte hi) = (.writeData, 8) := by decide
theorem fdcDecode_none : ∀ b, matchesNoFdcRow b = true → fdcDecode b = (.none, 0) := by decide +kernel

/-- The parameter count of the decode table is the command's (R105, R308). -/
theorem fdcDecode_count : ∀ b, (fdcDecode b).2 = (fdcDecode b).1.paramCount := by decide +kernel

end Sys2Proof
end

