-- ==== Sys2Proof/Laws/Memory.lean ====
section
/-! SUPPORT. The sparse memory: reading after writing, and the canonical form every operation keeps. -/

namespace Sys2Proof.Machine.Memory

open Sys2Proof

/-! ### Reading -/

theorem read_erase (m : Memory) (a b : Nat) : read (erase a m) b = if b = a then unlisted else read m b := by
  induction m with
  | nil => simp [erase, read]
  | cons c m ih => obtain ⟨k, x⟩ := c; simp only [erase, read]; split <;> simp only [read, ih] <;> grind

theorem not_listed_erase (m : Memory) (a : Nat) : ∀ c ∈ erase a m, c.1 ≠ a := by
  induction m with
  | nil => simp [erase]
  | cons c m ih => obtain ⟨k, x⟩ := c; simp only [erase]; split <;> grind

theorem read_insert {m : Memory} {a : Nat} (h : ∀ c ∈ m, c.1 ≠ a) (b : Nat) (v : Byte) :
    read (insert a v m) b = if b = a then v else read m b := by
  induction m with
  | nil => simp only [insert, read, eq_comm]
  | cons c m ih =>
    obtain ⟨k, x⟩ := c
    have hk : k ≠ a := h (k, x) (by simp)
    simp only [insert]
    split <;> simp only [read, ih (fun c hc => h c (by simp [hc]))] <;> grind

/-- Read after write (R17): the address written reads as the value, every other address as before. -/
theorem read_write (m : Memory) (a b : Nat) (v : Byte) : read (write m a v) b = if b = a then v else read m b := by
  unfold write
  split
  · rename_i h; simp only [read_erase, h]
  · rw [read_insert (not_listed_erase m a), read_erase]; grind

@[simp] theorem read_write_self (m : Memory) (a : Nat) (v : Byte) : read (write m a v) a = v := by simp [read_write]

theorem read_write_other (m : Memory) {a b : Nat} (v : Byte) (h : b ≠ a) : read (write m a v) b = read m b := by
  simp [read_write, h]

/-- What `writeBytes` leaves at every address. -/
theorem read_writeBytes (m : Memory) (a b : Nat) (vs : List Byte) :
    read (writeBytes m a vs) b = if h : a ≤ b ∧ b < a + vs.length then vs[b - a]'(by omega) else read m b := by
  induction vs generalizing m a with
  | nil => simp only [writeBytes, List.length_nil]; rw [dif_neg (by omega)]
  | cons v vs ih =>
    rw [writeBytes, ih]
    simp only [read_write, List.length_cons]
    by_cases h1 : b = a
    · subst h1
      rw [dif_neg (by omega), dif_pos (by omega)]; simp
    · by_cases h2 : a + 1 ≤ b ∧ b < a + 1 + vs.length
      · rw [dif_pos h2, dif_pos (by omega)]
        have : b - a = (b - (a + 1)) + 1 := by omega
        simp [this]
      · rw [dif_neg h2, dif_neg (by omega), if_neg h1]

theorem read_writeBytes_outside (m : Memory) {a b : Nat} (vs : List Byte) (h : b < a ∨ a + vs.length ≤ b) :
    read (writeBytes m a vs) b = read m b := by
  rw [read_writeBytes, dif_neg (by omega)]

@[simp] theorem length_readBytes (m : Memory) (a n : Nat) : (readBytes m a n).length = n := by
  induction n generalizing a with
  | zero => rfl
  | succ n ih => simp [readBytes, ih]

theorem getElem_readBytes (m : Memory) (a n i : Nat) (h : i < (readBytes m a n).length) :
    (readBytes m a n)[i] = read m (a + i) := by
  induction n generalizing a i with
  | zero => simp [readBytes] at h
  | succ n ih =>
    cases i with
    | zero => simp [readBytes]
    | succ i => simp [readBytes, ih]; congr 1; omega

/-- A write of bytes read back whole. -/
theorem readBytes_writeBytes_self (m : Memory) (a : Nat) (vs : List Byte) :
    readBytes (writeBytes m a vs) a vs.length = vs := by
  apply List.ext_getElem (by simp)
  intro i h1 h2
  rw [getElem_readBytes, read_writeBytes, dif_pos (by omega)]
  congr 1; omega

/-- A write of bytes elsewhere is not seen. -/
theorem readBytes_writeBytes_outside (m : Memory) {a b n : Nat} (vs : List Byte) (h : b + n ≤ a ∨ a + vs.length ≤ b) :
    readBytes (writeBytes m a vs) b n = readBytes m b n := by
  apply List.ext_getElem (by simp)
  intro i h1 h2
  simp only [length_readBytes] at h1
  rw [getElem_readBytes, getElem_readBytes, read_writeBytes_outside _ _ (by omega)]

/-! ### The canonical form -/

theorem risesFrom_mono {a b : Nat} {m : Memory} (h : risesFrom b m = true) (hab : a ≤ b) : risesFrom a m = true := by
  cases m with
  | nil => rfl
  | cons c m => obtain ⟨k, x⟩ := c; simp only [risesFrom, Bool.and_eq_true, decide_eq_true_eq] at h ⊢; grind

theorem risesFrom_erase {a : Nat} {m : Memory} (b : Nat) (h : risesFrom a m = true) : risesFrom a (erase b m) = true := by
  induction m generalizing a with
  | nil => rfl
  | cons c m ih =>
    obtain ⟨k, x⟩ := c
    simp only [risesFrom, Bool.and_eq_true, decide_eq_true_eq] at h
    simp only [erase]
    split
    · exact risesFrom_mono (ih h.2) (by omega)
    · simp only [risesFrom, Bool.and_eq_true, decide_eq_true_eq]; exact ⟨h.1, ih h.2⟩

theorem risesFrom_insert {a b : Nat} {v : Byte} {m : Memory} (hv : v ≠ unlisted) (hab : a ≤ b)
    (hb : ∀ c ∈ m, c.1 ≠ b) (h : risesFrom a m = true) : risesFrom a (insert b v m) = true := by
  induction m generalizing a with
  | nil => simp [insert, risesFrom, hab, hv]
  | cons c m ih =>
    obtain ⟨k, x⟩ := c
    have hk : k ≠ b := hb (k, x) (by simp)
    simp only [risesFrom, Bool.and_eq_true, decide_eq_true_eq] at h
    simp only [insert]
    split
    · simp only [risesFrom, Bool.and_eq_true, decide_eq_true_eq]
      exact ⟨⟨hab, by simpa using hv⟩, ⟨by omega, h.1.2⟩, h.2⟩
    · simp only [risesFrom, Bool.and_eq_true, decide_eq_true_eq]
      exact ⟨h.1, ih (by omega) (fun c hc => hb c (by simp [hc])) h.2⟩

/-- A write keeps the canonical form. -/
theorem wf_write {m : Memory} (a : Nat) (v : Byte) (h : wf m = true) : wf (write m a v) = true := by
  unfold write wf at *
  split
  · exact risesFrom_erase a h
  · exact risesFrom_insert ‹_› (Nat.zero_le a) (not_listed_erase m a) (risesFrom_erase a h)

theorem wf_writeBytes {m : Memory} (a : Nat) (vs : List Byte) (h : wf m = true) : wf (writeBytes m a vs) = true := by
  induction vs generalizing m a with
  | nil => exact h
  | cons v vs ih => exact ih (a + 1) (wf_write a v h)

theorem risesFrom_ofBytes (a : Nat) (vs : List Byte) : risesFrom a (ofBytes a vs) = true := by
  induction vs generalizing a with
  | nil => rfl
  | cons v vs ih =>
    simp only [ofBytes]
    split
    · exact risesFrom_mono (ih (a + 1)) (by omega)
    · simp [risesFrom, *]

theorem wf_ofBytes (vs : List Byte) : wf (ofBytes 0 vs) = true := risesFrom_ofBytes 0 vs

/-- What `ofBytes` holds at every address. -/
theorem read_ofBytes (a b : Nat) (vs : List Byte) :
    read (ofBytes a vs) b = if h : a ≤ b ∧ b < a + vs.length then vs[b - a]'(by omega) else unlisted := by
  induction vs generalizing a with
  | nil => simp only [ofBytes, List.length_nil, read]; rw [dif_neg (by omega)]
  | cons v vs ih =>
    simp only [List.length_cons]
    have step : read (ofBytes a (v :: vs)) b = if b = a then v else read (ofBytes (a + 1) vs) b := by
      simp only [ofBytes]
      split
      · rename_i hv
        split
        · rename_i hb; subst hb; rw [ih, dif_neg (by omega), hv]
        · rfl
      · simp only [read, eq_comm]
    rw [step]
    by_cases h1 : b = a
    · subst h1; rw [if_pos rfl, dif_pos (by omega)]; simp
    · rw [if_neg h1, ih]
      by_cases h2 : a + 1 ≤ b ∧ b < a + 1 + vs.length
      · rw [dif_pos h2, dif_pos (by omega)]
        have : b - a = (b - (a + 1)) + 1 := by omega
        simp [this]
      · rw [dif_neg h2, dif_neg (by omega)]

/-- Two canonical memories that read alike are equal. -/
theorem risesFrom_ext {a : Nat} {m n : Memory} (hm : risesFrom a m = true) (hn : risesFrom a n = true)
    (h : ∀ b, read m b = read n b) : m = n := by
  have low : ∀ {c : Nat} {l : Memory} {b : Nat}, risesFrom c l = true → b < c → read l b = unlisted := by
    intro c l
    induction l generalizing c with
    | nil => intros; rfl
    | cons x l ih =>
      intro b hl hb
      obtain ⟨k, v⟩ := x
      simp only [risesFrom, Bool.and_eq_true, decide_eq_true_eq] at hl
      rw [read, if_neg (by omega)]
      exact ih hl.2 (by omega)
  induction m generalizing a n with
  | nil =>
    cases n with
    | nil => rfl
    | cons y n =>
      obtain ⟨k, v⟩ := y
      simp only [risesFrom, Bool.and_eq_true, decide_eq_true_eq] at hn
      have := h k; simp [read] at this; simp_all
  | cons x m ih =>
    obtain ⟨k, v⟩ := x
    simp only [risesFrom, Bool.and_eq_true, decide_eq_true_eq] at hm
    cases n with
    | nil => have := h k; simp [read] at this; simp_all
    | cons y n =>
      obtain ⟨j, w⟩ := y
      simp only [risesFrom, Bool.and_eq_true, decide_eq_true_eq] at hn
      have hk := h k
      have hj := h j
      have hkj : k = j := by
        rcases Nat.lt_trichotomy k j with hlt | heq | hgt
        · simp only [read, if_true] at hk
          rw [if_neg (by omega), low hn.2 (by omega)] at hk
          simp [hk] at hm
        · exact heq
        · simp only [read, if_true] at hj
          rw [if_neg (by omega), low hm.2 (by omega)] at hj
          simp [← hj] at hn
      subst hkj
      simp only [read, if_true] at hk
      subst hk
      refine congrArg _ (ih hm.2 hn.2 fun b => ?_)
      by_cases hb : b = k
      · subst hb; rw [low hm.2 (by omega), low hn.2 (by omega)]
      · have := h b; simpa [read, Ne.symm hb] using this

/-- Canonical memories with equal contents are equal data. -/
theorem wf_ext {m n : Memory} (hm : wf m = true) (hn : wf n = true) (h : ∀ b, read m b = read n b) : m = n :=
  risesFrom_ext hm hn h

/-! ### Bounds of the listed addresses -/

theorem within_iff {n : Nat} {m : Memory} : within n m = true ↔ ∀ c ∈ m, c.1 < n := by simp [within]

theorem mem_erase {a : Nat} {m : Memory} {c : Host.Cell} (h : c ∈ erase a m) : c ∈ m := by
  induction m with
  | nil => exact h
  | cons d m ih => obtain ⟨k, x⟩ := d; simp only [erase] at h; split at h <;> grind

theorem mem_insert {a : Nat} {v : Byte} {m : Memory} {c : Host.Cell} (h : c ∈ insert a v m) : c = (a, v) ∨ c ∈ m := by
  induction m with
  | nil => simpa [insert] using h
  | cons d m ih => obtain ⟨k, x⟩ := d; simp only [insert] at h; split at h <;> grind

theorem within_write {n : Nat} {m : Memory} {a : Nat} (v : Byte) (h : within n m = true) (ha : a < n) :
    within n (write m a v) = true := by
  rw [within_iff] at *
  intro c hc
  unfold write at hc
  split at hc
  · exact h c (mem_erase hc)
  · rcases mem_insert hc with rfl | hc
    · exact ha
    · exact h c (mem_erase hc)

theorem within_writeBytes {n : Nat} {m : Memory} {a : Nat} (vs : List Byte) (h : within n m = true)
    (ha : a + vs.length ≤ n) : within n (writeBytes m a vs) = true := by
  induction vs generalizing m a with
  | nil => exact h
  | cons v vs ih =>
    simp only [List.length_cons] at ha
    exact ih (within_write v h (by omega)) (by omega)

theorem within_ofBytes (a : Nat) (vs : List Byte) : within (a + vs.length) (ofBytes a vs) = true := by
  rw [within_iff]
  induction vs generalizing a with
  | nil => simp [ofBytes]
  | cons v vs ih =>
    have := ih (a + 1)
    simp only [List.length_cons]
    simp only [ofBytes]
    split <;> grind

end Sys2Proof.Machine.Memory
end

