-- ==== Sys2Proof/Laws/Disk.lean ====
section
/-! SUPPORT. The disk store: what its checks, its offset and its region accesses are, in the terms of the statements. -/

namespace Sys2Proof.Machine

open Sys2Proof Sys2Proof.Spec

/-- The check of a request is R404's first failing check. -/
theorem diskCheck_spec (disk : Option Disk) (h t sec n : Nat) :
    diskCheck disk h t sec n =
      match diskError disk h t sec n with
      | some e => .error e
      | none => match disk with | none => .error .diskNotAttached | some d => .ok d := by
  unfold diskCheck diskError
  cases disk with
  | none => rfl
  | some d => dsimp only; grind

theorem diskCheck_error {disk : Option Disk} {h t sec n : Nat} {e : OpError} (he : diskError disk h t sec n = some e) :
    diskCheck disk h t sec n = .error e := by
  rw [diskCheck_spec, he]
theorem diskCheck_ok {d : Disk} {h t sec n : Nat} (he : diskError (some d) h t sec n = none) :
    diskCheck (some d) h t sec n = .ok d := by
  rw [diskCheck_spec, he]

/-- The source's offset formula is R402's. -/
theorem offset_eq (d : Disk) (h t s : Nat) : d.offset h t s = offsetOf d h t s := by
  unfold Disk.offset offsetOf headerSize sectorSize; ring

theorem readBytes_eq (m : Memory) (o n : Nat) : m.readBytes o n = bytesAt m o n := by
  apply List.ext_getElem
  · simp [bytesAt]
  · intro i h1 h2; rw [Memory.getElem_readBytes]; simp [bytesAt]

theorem writeBytes_stored (m : Memory) (o : Nat) (bs : List Byte) : BytesStored m (m.writeBytes o bs) o bs := by
  intro a; rw [Memory.read_writeBytes]
  split
  · rename_i h; rw [List.getD_eq_getElem?_getD, List.getElem?_eq_getElem (by omega)]; rfl
  · rfl

/-- Opening an image is R396's first failing check. -/
theorem openImage_spec (image : List Byte) :
    openImage image = match openError image with | some e => .error e | none => .ok (Disk.ofImage image) := by
  have hh : image.take 8 = [0x56, 0x46, 0x44, 0x44, 0x46, 0x01, 0x28, 0x09] ↔
      image.take 5 = diskSignature ∧ (image.drop 5).take 3 = [0x01, 0x28, 0x09] := by
    have : image.take 8 = image.take 5 ++ (image.drop 5).take 3 := by
      rw [show (8:Nat) = 5 + 3 by rfl, List.take_add]
    rw [this]
    constructor
    · intro h
      have h5 : (image.take 5).length = 5 := by
        have := congrArg List.length h; simp at this ⊢; omega
      exact List.append_inj (t₁ := List.take 3 (List.drop 5 image)) (s₂ := diskSignature) (t₂ := [0x01, 0x28, 0x09]) h
        (by simp [diskSignature] at h5 ⊢; omega)
    · rintro ⟨h1, h2⟩; rw [h1, h2]; rfl
  unfold openImage openError diskImageSize
  by_cases h1 : image.length < 8 <;> simp only [h1, if_true, if_false]
  simp only [ne_eq, hh]
  by_cases h2 : image.take 5 = diskSignature <;>
    by_cases h3 : (image.drop 5).take 3 = ([0x01, 0x28, 0x09] : List Byte) <;>
    simp only [h2, h3, not_true_eq_false, not_false_eq_true, if_true, if_false, and_true, and_false]
  split <;> try rfl
  split <;> rfl

end Sys2Proof.Machine
end

