-- ==== Sys2Proof/Laws/Floppy.lean ====
section
/-! SUPPORT. The floppy unit: FDC.WRITE and FDC.READ by the phase they find, a command's bytes as one execution, and how
each command ends, in the terms of the statements. -/

namespace Sys2Proof.Machine

open Sys2Proof Sys2Proof.Spec

/-! ### Fields (R109, R110, R341) -/

theorem hd_eq (f : FdcState) : f.hd.setWidth 8 = headByte f := rfl
theorem tr_eq (f : FdcState) : f.tr = trackByte f := rfl
theorem sc_eq (f : FdcState) : f.sc = sectorByte f := rfl

theorem headByte_toNat (f : FdcState) : (headByte f).toNat = f.hd.toNat := by
  unfold headByte FdcState.hd
  rw [BitVec.toNat_setWidth]
  exact Nat.mod_eq_of_lt (by have := (driveGet f.headPerDrive f.selectedDrive).isLt; omega)

theorem selectDriveHead_eq (f : FdcState) (p0 : Byte) : f.selectDriveHead p0 = selected f p0 := rfl

theorem positioned_eq (f : FdcState) (tr sc : Byte) : (f.setTrack tr).setSector sc = positioned f tr sc := rfl

theorem setSector_eq (f : FdcState) (sc : Byte) :
    f.setSector sc = { f with sectorPerDrive := driveSet f.sectorPerDrive f.selectedDrive sc } := rfl

theorem st0Of_eq (high : BitVec 5) (f : FdcState) : st0Of high f.hd f.selectedDrive = st0Success high f := by
  unfold st0Success headByte FdcState.hd st0Of
  have : ∀ (h : BitVec 5) (a : BitVec 1) (d : BitVec 2),
      (h ++ a ++ d : Byte) = (h.setWidth 8 <<< 3) ||| (a.setWidth 8 <<< 2) ||| d.setWidth 8 := by decide +kernel
  exact this _ _ _

theorem headDriveBits_eq (f : FdcState) :
    headDriveBits f.hd f.selectedDrive = (headByte f <<< 2) ||| f.selectedDrive.setWidth 8 := by
  unfold headDriveBits headByte FdcState.hd
  have : ∀ (a : BitVec 1) (d : BitVec 2), (0#5 ++ a ++ d : Byte) = (a.setWidth 8 <<< 2) ||| d.setWidth 8 := by decide
  exact this _ _

theorem specify_fields (p0 p1 : Byte) :
    srtOf p0 = BitVec.ofNat 4 (p0.toNat / 16) ∧ hutOf p0 = BitVec.ofNat 4 (p0.toNat % 16) ∧
      hltOf p1 = BitVec.ofNat 7 (p1.toNat / 2) ∧ ndOf p1 = decide (p1.toNat % 2 = 1) := by
  have : ∀ b : Byte, srtOf b = BitVec.ofNat 4 (b.toNat / 16) ∧ hutOf b = BitVec.ofNat 4 (b.toNat % 16) ∧
      hltOf b = BitVec.ofNat 7 (b.toNat / 2) ∧ ndOf b = decide (b.toNat % 2 = 1) := by decide +kernel
  exact ⟨(this p0).1, (this p0).2.1, (this p1).2.2.1, (this p1).2.2.2⟩

/-- Seek clamps its target to track 79 (R354). -/
theorem seekTrack_eq (ncn : Byte) : seekTrack ncn = BitVec.ofNat 8 (min ncn.toNat 79) := by
  have : ∀ b : Byte, seekTrack b = BitVec.ofNat 8 (min b.toNat 79) := by decide +kernel
  exact this ncn

/-! ### How a command ends -/

theorem finishNoResult_eq (f : FdcState) : f.finishNoResult = finished f := rfl

theorem sendResult_eq (f : FdcState) (data result : List Byte) : f.sendResult data result = sending f data result := by
  cases data <;> simp [FdcState.sendResult, sending, msrDataOut, msrResult]

theorem abnormal_eq (f : FdcState) (c h r n : Byte) : f.abnormal c h r n = abnormal f c h r n := by
  simp [FdcState.abnormal, abnormal, standard, sendResult_eq, st0Abnormal]

theorem standardResult_eq {p : Params} {f : FdcState} {sector : Byte} {x0 : BitVec 5} {s1 s2 : Byte}
    (h : rwStatus p (driveGet f.headPerDrive f.selectedDrive) sector = (x0, s1, s2)) (data : List Byte)
    (c hd r n : Byte) :
    f.standardResult p sector data c hd r n = standard f (st0Success x0 f) s1 s2 data c hd r n := by
  have h' : rwStatus p f.hd sector = (x0, s1, s2) := h
  simp [FdcState.standardResult, standard, sendResult_eq, h', st0Of_eq]

/-- What a command leaves is over or waits to be read, whatever the protocol registers held before. -/
theorem finished_await (f : FdcState) (a e : Bool) (m : Byte) (n : Nat) :
    finished { f with acceptingCommand := a, executionStatus := e, mainStatusRegister := m, paramsReceived := n } =
      finished f := rfl

theorem sending_await (f : FdcState) (a e : Bool) (m : Byte) (data result : List Byte) :
    sending { f with acceptingCommand := a, executionStatus := e, mainStatusRegister := m } data result =
      sending f data result := rfl

/-! ### FDC.WRITE by phase (R304) -/

theorem dio_eq (f : FdcState) : f.dio = f.mainStatusRegister.getLsbD 6 := rfl

/-- The phase decides the three tests of FDC.WRITE and FDC.READ. -/
theorem inPhase_iff (f : FdcState) (ph : FdcPhase) :
    f.inPhase ph ↔ f.acceptingCommand = ph.row.1 ∧ f.executionStatus = ph.row.2.1 ∧ f.mainStatusRegister = ph.row.2.2.2 := by
  unfold FdcState.inPhase FdcState.dio
  cases ph <;> simp only [FdcPhase.row, Prod.mk.injEq] <;> constructor <;> (intro h; grind)

theorem writeByte_dio {p : Params} {b : Byte} {f : FdcState} {d : Option Disk} (h : f.dio = true) :
    writeByte p b (f, d) = (f, d) := by simp [writeByte, h]

theorem writeByte_data {p : Params} {b : Byte} {f : FdcState} {d : Option Disk} (h : f.inPhase .receivingData) :
    writeByte p b (f, d) = receiveData p b (f, d) := by
  rw [inPhase_iff] at h; simp [writeByte, FdcState.dio, h.2.1, h.2.2, FdcPhase.row]

theorem writeByte_idle {p : Params} {b : Byte} {f : FdcState} {d : Option Disk} (h : f.inPhase .acceptingCommand) :
    writeByte p b (f, d) = acceptCommandByte p b (f, d) := by
  rw [inPhase_iff] at h; simp [writeByte, FdcState.dio, h.1, h.2.1, h.2.2, FdcPhase.row]

theorem writeByte_params {p : Params} {b : Byte} {f : FdcState} {d : Option Disk} (h : f.inPhase .receivingParameters) :
    writeByte p b (f, d) = receiveParam p b (f, d) := by
  rw [inPhase_iff] at h; simp [writeByte, FdcState.dio, h.1, h.2.1, h.2.2, FdcPhase.row]

/-! ### A command's bytes as one execution (R132, R304, R308) -/

/-- A command byte and the parameter bytes `bs` received, more awaited. -/
def awaiting (f : FdcState) (cmd : FloppyCommand) (bs : List Byte) : FdcState :=
  { received f cmd bs with acceptingCommand := false, mainStatusRegister := 0x90 }

theorem setParam_paramsAfter (v : Vector Byte 8) (bs : List Byte) (b : Byte) :
    (paramsAfter v bs).setIfInBounds bs.length b = paramsAfter v (bs ++ [b]) := by
  apply Vector.ext
  intro i hi
  simp only [paramsAfter, Vector.getElem_setIfInBounds, Vector.getElem_ofFn]
  by_cases h1 : bs.length = i
  · subst h1; simp
  · rw [if_neg h1]
    simp only [List.getD_eq_getElem?_getD]
    by_cases h2 : i < bs.length
    · rw [List.getElem?_append_left h2]
    · rw [List.getElem?_append_right (by omega), List.getElem?_eq_none (by omega), List.getElem?_eq_none (by simp; omega)]

theorem paramsAfter_nil (v : Vector Byte 8) : paramsAfter v [] = v := by
  apply Vector.ext; intro i hi; simp [paramsAfter]

/-- The parameter bytes written one after another, the last of them executing the command. -/
theorem writeAll_awaiting (p : Params) (f : FdcState) (d : Option Disk) (cmd : FloppyCommand)
    (hx : f.executionStatus = false) (rest : List Byte) :
    ∀ pre : List Byte, rest ≠ [] → pre.length + rest.length = cmd.paramCount → cmd.paramCount ≤ 8 →
      writeAll p rest (awaiting f cmd pre, d) = executeCommand p (awaiting f cmd (pre ++ rest)) d := by
  induction rest with
  | nil => intro pre h; exact absurd rfl h
  | cons b rest ih =>
    intro pre _ hlen h8
    simp only [List.length_cons] at hlen
    have hph : (awaiting f cmd pre).inPhase .receivingParameters := by
      rw [inPhase_iff]; exact ⟨rfl, hx, rfl⟩
    have hset := setParam_paramsAfter f.params pre b
    rw [writeAll, writeByte_params hph]
    have hstep : ({ (awaiting f cmd pre).setParam (awaiting f cmd pre).paramsReceived b with
        paramsReceived := (awaiting f cmd pre).paramsReceived + 1 } : FdcState) = awaiting f cmd (pre ++ [b]) := by
      simp only [awaiting, received, FdcState.setParam, hset, List.length_append, List.length_singleton]
    unfold receiveParam
    simp only [hstep]
    have hc : (awaiting f cmd pre).paramsReceived = pre.length := rfl
    have ha : ((awaiting f cmd pre).setParam (awaiting f cmd pre).paramsReceived b).activeCommand = cmd := rfl
    rw [ha, hc]
    cases rest with
    | nil => rw [if_pos (by simpa using hlen)]; rfl
    | cons c rest =>
      simp only [List.length_cons] at hlen
      rw [if_neg (by omega), ih (pre ++ [b]) (by simp) (by simp; omega) h8]
      simp

/-- A command and all its parameters, written where a command byte is awaited. -/
theorem writeAll_command {p : Params} {f : FdcState} {d : Option Disk} {cb : Byte} {cmd : FloppyCommand} {ps : List Byte}
    (hf : f.inPhase .acceptingCommand) (hcb : fdcDecode cb = (cmd, ps.length)) (hcmd : cmd.paramCount = ps.length)
    (hn : cmd ≠ .none) (hps : ps ≠ []) (h8 : ps.length ≤ 8) :
    writeAll p (cb :: ps) (f, d) = executeCommand p (awaiting f cmd ps) d := by
  have hx : f.executionStatus = false := ((inPhase_iff _ _).1 hf).2.1
  have h0 : ps.length ≠ 0 := by simpa using hps
  have hw : awaiting f cmd [] =
      { f with activeCommand := cmd, paramsReceived := 0, acceptingCommand := false, mainStatusRegister := 0x90 } := by
    simp [awaiting, received, paramsAfter_nil]
  rw [writeAll, writeByte_idle hf]
  unfold acceptCommandByte
  simp only [hcb, if_neg hn, if_neg h0]
  have := writeAll_awaiting p f d cmd hx ps [] hps (by simpa using hcmd.symm) (by omega)
  rw [hw] at this
  simpa [msrParams] using this

/-! ### The commands that reach the disk (R356 to R367), from any parameters -/

theorem positionOffDisk_iff (f : FdcState) (disk : Option Disk) : positionOffDisk f disk = true ↔ OffDisk f disk := by
  unfold positionOffDisk OffDisk
  cases disk with
  | none => simp
  | some d =>
    rw [Bool.or_eq_true, decide_eq_true_eq, decide_eq_true_eq]
    simp [headByte_toNat, Disk.sides, tr_eq]

theorem mispositioned_iff (f : FdcState) (p : RwParams) :
    (dataLengthOf p.n p.dtl = 0 ∨ f.positionOk p.c p.h = false) ↔ Mispositioned f p := by
  have h : f.positionOk p.c p.h = false ↔ p.c ≠ trackByte f ∨ p.h ≠ headByte f := by
    simp only [FdcState.positionOk, hd_eq, tr_eq]
    by_cases h1 : p.c = trackByte f <;> by_cases h2 : p.h = headByte f <;> simp [h1, h2]
  rw [h]; rfl

theorem rwParams_awaiting (f : FdcState) (cmd : FloppyCommand) (p : RwParams) :
    (awaiting f cmd p.toBytes).rwParams = p := by
  simp [FdcState.rwParams, FdcState.param, awaiting, received, paramsAfter, RwParams.toBytes]

theorem formatParams_awaiting (f : FdcState) (cmd : FloppyCommand) (p : FormatParams) :
    (awaiting f cmd p.toBytes).formatParams = p := by
  simp [FdcState.formatParams, FdcState.param, awaiting, received, paramsAfter, FormatParams.toBytes]

/-- ReadData where a check fails (R358). -/
theorem runReadData_abnormal {p : Params} {f g : FdcState} {disk : Option Disk} {q : RwParams} (hq : f.rwParams = q)
    (hg : selected f q.hdUs = g)
    (h : Mispositioned g q ∨ diskError disk (headByte g).toNat q.c.toNat q.r.toNat (lengthOf q.n q.dtl) ≠ none) :
    runReadData p f disk = abnormal g q.c q.h q.r q.n := by
  unfold runReadData
  simp only [hq, selectDriveHead_eq, hg]
  by_cases hm : Mispositioned g q
  · rw [if_pos ((mispositioned_iff g q).2 hm), abnormal_eq]
  · obtain ⟨e, he⟩ := Option.ne_none_iff_exists'.1 (h.resolve_left hm)
    rw [if_neg (fun hh => hm ((mispositioned_iff g q).1 hh))]
    rw [headByte_toNat] at he
    have hr : diskRead disk g.hd.toNat q.c.toNat q.r.toNat (dataLengthOf q.n q.dtl) = .error e := by
      have hc : diskCheck disk g.hd.toNat q.c.toNat q.r.toNat (dataLengthOf q.n q.dtl) = .error e := diskCheck_error he
      rw [diskRead, hc]
    rw [hr]; exact abnormal_eq _ _ _ _ _

/-- ReadData where every check passes (R358). -/
theorem runReadData_ok {p : Params} {f g : FdcState} {d : Disk} {q : RwParams} {x0 : BitVec 5} {s1 s2 : Byte}
    (hq : f.rwParams = q) (hg : selected f q.hdUs = g) (hm : ¬ Mispositioned g q)
    (he : diskError (some d) (headByte g).toNat q.c.toNat q.r.toNat (lengthOf q.n q.dtl) = none)
    (hs : rwStatus p (driveGet g.headPerDrive g.selectedDrive) q.r = (x0, s1, s2)) :
    runReadData p f (some d) =
      standard { g with sectorPerDrive := driveSet g.sectorPerDrive g.selectedDrive q.r } (st0Success x0 g) s1 s2
        (bytesAt d.region (offsetOf d (headByte g).toNat q.c.toNat q.r.toNat) (lengthOf q.n q.dtl)) q.c q.h q.r q.n := by
  unfold runReadData
  simp only [hq, selectDriveHead_eq, hg]
  rw [if_neg (fun hh => hm ((mispositioned_iff g q).1 hh))]
  rw [headByte_toNat] at he ⊢
  have hc : diskCheck (some d) g.hd.toNat q.c.toNat q.r.toNat (dataLengthOf q.n q.dtl) = .ok d := diskCheck_ok he
  simp only [diskRead, hc]
  rw [standardResult_eq (f := g.setSector q.r) hs, readBytes_eq, offset_eq]
  rfl

/-- WriteData's start where a check fails (R366). -/
theorem runWriteData_abnormal {f g : FdcState} {disk : Option Disk} {q : RwParams} (hq : f.rwParams = q)
    (hg : selected f q.hdUs = g)
    (h : Mispositioned g q ∨ diskError disk (headByte g).toNat q.c.toNat q.r.toNat (lengthOf q.n q.dtl) ≠ none) :
    runWriteData f disk = abnormal g q.c q.h q.r q.n := by
  unfold runWriteData
  simp only [hq, selectDriveHead_eq, hg]
  by_cases hm : Mispositioned g q
  · rw [if_pos ((mispositioned_iff g q).2 hm), abnormal_eq]
  · obtain ⟨e, he⟩ := Option.ne_none_iff_exists'.1 (h.resolve_left hm)
    rw [if_neg (fun hh => hm ((mispositioned_iff g q).1 hh))]
    rw [headByte_toNat] at he
    have hc : diskCheck disk g.hd.toNat q.c.toNat q.r.toNat (dataLengthOf q.n q.dtl) = .error e := diskCheck_error he
    rw [hc]; exact abnormal_eq _ _ _ _ _

/-- WriteData's start where every check passes (R366): the data bytes are awaited. -/
theorem runWriteData_ok {f g : FdcState} {disk : Option Disk} {q : RwParams} (hq : f.rwParams = q)
    (hg : selected f q.hdUs = g) (hm : ¬ Mispositioned g q)
    (he : diskError disk (headByte g).toNat q.c.toNat q.r.toNat (lengthOf q.n q.dtl) = none) :
    runWriteData f disk = g.beginReceiveData (lengthOf q.n q.dtl) := by
  unfold runWriteData
  simp only [hq, selectDriveHead_eq, hg]
  rw [if_neg (fun hh => hm ((mispositioned_iff g q).1 hh))]
  rw [headByte_toNat] at he
  cases disk with
  | none => simp [diskError] at he
  | some d =>
    have hc : diskCheck (some d) g.hd.toNat q.c.toNat q.r.toNat (dataLengthOf q.n q.dtl) = .ok d := diskCheck_ok he
    simp only [hc]; rfl

/-- WriteData's end where the store no longer takes the write (R367, R342). -/
theorem writeDataFinish_abnormal {p : Params} {f : FdcState} {disk : Option Disk}
    (h : diskError disk (headByte f).toNat f.rwParams.c.toNat f.rwParams.r.toNat f.pendingDataBytes.length ≠ none) :
    writeDataFinish p f disk = (abnormal f f.rwParams.c f.rwParams.h f.rwParams.r f.rwParams.n, disk) := by
  obtain ⟨e, he⟩ := Option.ne_none_iff_exists'.1 h
  rw [headByte_toNat] at he
  simp only [writeDataFinish, diskWrite, diskCheck_error he, abnormal_eq]

/-- WriteData's end where the store takes the write (R367). -/
theorem writeDataFinish_ok {p : Params} {f : FdcState} {d : Disk} {x0 : BitVec 5} {s1 s2 : Byte}
    (h : diskError (some d) (headByte f).toNat f.rwParams.c.toNat f.rwParams.r.toNat f.pendingDataBytes.length = none)
    (hs : rwStatus p (driveGet f.headPerDrive f.selectedDrive) f.rwParams.r = (x0, s1, s2)) :
    writeDataFinish p f (some d) =
      (standard { f with sectorPerDrive := driveSet f.sectorPerDrive f.selectedDrive f.rwParams.r } (st0Success x0 f)
          s1 s2 [] f.rwParams.c f.rwParams.h f.rwParams.r f.rwParams.n,
        some { d with
          region :=
            d.region.writeBytes (offsetOf d (headByte f).toNat f.rwParams.c.toNat f.rwParams.r.toNat)
              f.pendingDataBytes }) := by
  rw [headByte_toNat] at h ⊢
  simp only [writeDataFinish, diskWrite, diskCheck_ok h]
  rw [standardResult_eq (f := f.setSector f.rwParams.r) hs, offset_eq]
  rfl

/-- ReadId where the position is off the disk (R356). -/
theorem runReadId_abnormal {p : Params} {f g : FdcState} {disk : Option Disk} (hg : selected f (f.param 0) = g)
    (h : OffDisk g disk) : runReadId p f disk = abnormal g (trackByte g) (headByte g) (sectorByte g) 2 := by
  unfold runReadId
  simp only [selectDriveHead_eq, hg, hd_eq, tr_eq, sc_eq]
  rw [if_pos ((positionOffDisk_iff g disk).2 h), abnormal_eq]

/-- ReadId where the position is on the disk (R356). -/
theorem runReadId_ok {p : Params} {f g : FdcState} {disk : Option Disk} {x0 : BitVec 5} {s1 s2 : Byte}
    (hg : selected f (f.param 0) = g) (h : ¬ OffDisk g disk)
    (hs : rwStatus p (driveGet g.headPerDrive g.selectedDrive) (sectorByte g) = (x0, s1, s2)) :
    runReadId p f disk = standard g (st0Success x0 g) s1 s2 [] (trackByte g) (headByte g) (sectorByte g) 2 := by
  unfold runReadId
  simp only [selectDriveHead_eq, hg, hd_eq, tr_eq, sc_eq]
  rw [if_neg (fun hh => h ((positionOffDisk_iff g disk).1 hh)), standardResult_eq hs]

/-- FormatTrack's loop over sectors the disk has: all are written, and nothing else is (R362). -/
theorem formatSectors_ok (head track : Nat) (fill : Byte) (len : Nat) (h1 : 1 ≤ len) (h2 : len ≤ 512) (n : Nat) :
    ∀ (s : Nat) (d : Disk), head ≤ 1 → track < d.tracks.toNat → 1 ≤ s → s + n ≤ d.sectorsPerTrack.toNat + 1 →
      ∃ region,
        formatSectors head track (List.replicate len fill) n s (some d) = .ok (some { d with region := region }) ∧
        ∀ a, region.read a =
          if offsetOf d head track s ≤ a ∧ a < offsetOf d head track s + n * 512 ∧
              (a - offsetOf d head track s) % 512 < len then fill
          else d.region.read a := by
  induction n with
  | zero => intro s d _ _ _ _; refine ⟨d.region, rfl, fun a => ?_⟩; rw [if_neg (by omega)]
  | succ n ih =>
    intro s d hh ht hs hn
    let d1 : Disk := { d with region := d.region.writeBytes (offsetOf d head track s) (List.replicate len fill) }
    have hc : diskWrite (some d) head track s (List.replicate len fill) = .ok d1 := by
      have he : diskCheck (some d) head track s (List.replicate len fill).length = .ok d := by
        apply diskCheck_ok
        simp only [diskError, List.length_replicate]
        rw [if_neg (by omega), if_neg (by omega), if_neg (by omega), if_neg (by omega)]
      unfold diskWrite
      rw [he]; simp only [offset_eq]; rfl
    obtain ⟨region, hr, hread⟩ := ih (s + 1) d1 hh ht (by omega) (by show s + 1 + n ≤ d.sectorsPerTrack.toNat + 1; omega)
    refine ⟨region, by rw [formatSectors, hc]; exact hr, fun a => ?_⟩
    have hoff : offsetOf d1 head track (s + 1) = offsetOf d head track s + 512 := by
      show 8 + ((head * d.tracks.toNat + track) * d.sectorsPerTrack.toNat + (s + 1 - 1)) * 512 = _
      rw [offsetOf, show s + 1 - 1 = (s - 1) + 1 by omega]; ring
    have hst : d1.region.read a = _ := writeBytes_stored _ _ _ a
    rw [hread, hoff, hst]
    generalize offsetOf d head track s = o
    by_cases c1 : o + 512 ≤ a ∧ a < o + 512 + n * 512 ∧ (a - (o + 512)) % 512 < len
    · rw [if_pos c1, if_pos (by omega)]
    · rw [if_neg c1]
      simp only [List.length_replicate]
      by_cases c2 : o ≤ a ∧ a < o + len
      · rw [if_pos c2, if_pos (by omega), List.getD_eq_getElem?_getD, List.getElem?_replicate, if_pos (by omega)]; rfl
      · rw [if_neg c2, if_neg (by omega)]

end Sys2Proof.Machine
end

