-- ==== Sys2Proof/Laws/PerInstr.lean ====
section
/-! SUPPORT. Per instruction: the first byte an instruction is encoded in has the fixed bits of its row of
spec/opcode_table.json (30_encoding R100, R105). -/

namespace Sys2Proof.Laws.EncodeHead

open Sys2Proof

/-- The mask and the match of the instruction's row of the table. -/
def row : Instr → Byte × Byte
  | .vidReset => (0x1F, 0x00)
  | .vidBuild _ => (0x1F, 0x01)
  | .vidRender _ _ => (0x1F, 0x02)
  | .vidNewframe => (0x1F, 0x03)
  | .vidContend _ => (0x1F, 0x04)
  | .tapeReset => (0x1F, 0x08)
  | .tapeSetmode _ _ => (0x1F, 0x09)
  | .tapeEnterload _ => (0x1F, 0x0A)
  | .tapeLeaveload => (0x1F, 0x0B)
  | .tapeEntersave _ => (0x1F, 0x0C)
  | .tapeLeavesave => (0x1F, 0x0D)
  | .tapeInitplay _ => (0x1F, 0x0E)
  | .tapeEar _ => (0x1F, 0x0F)
  | .tapeMic _ _ => (0x1F, 0x10)
  | .tapeFastload _ => (0x1F, 0x11)
  | .fdcReset => (0x1F, 0x18)
  | .fdcWrite _ => (0x1F, 0x19)
  | .fdcRead => (0x1F, 0x1A)
  | .fdcStatus => (0x1F, 0x1B)
  | .dskCreate => (0x1F, 0x1C)
  | .dskOpen _ => (0x1F, 0x1D)
  | .dskRead _ _ _ _ => (0x1F, 0x1E)
  | .dskWrite _ _ _ _ => (0x1F, 0x1F)
  | .fdcSpecify _ _ => (0xFF, 0x03)
  | .fdcSenseDriveStatus _ => (0xFF, 0x04)
  | .fdcRecalibrate _ => (0xFF, 0x07)
  | .fdcSenseInterruptStatus => (0xFF, 0x08)
  | .fdcSeek _ _ => (0xFF, 0x0F)
  | .fdcReadId _ _ => (0xBF, 0x0A)
  | .fdcReadData _ _ => (0x1F, 0x06)
  | .fdcFormatTrack _ _ _ => (0xBD, 0x0D)
  | .fdcWriteData _ _ => (0x3F, 0x05)
  | .fdcNone _ => (0x00, 0x00)

/-- The encoding begins with a byte that has its row's fixed bits; a host operation's byte has nothing above its five
selector bits. -/
def Statement (i : Instr) : Prop :=
  i.wellFormed = true → ∃ b r, encode i = b :: r ∧ b &&& (row i).1 = (row i).2 ∧ (i.format = .op → b.toNat < 32)

theorem vidReset : Statement .vidReset :=
  fun _ => ⟨_, _, rfl, by simp [row], by simp⟩

theorem vidBuild (g : Geometry) : Statement (.vidBuild g) :=
  fun _ => ⟨_, _, rfl, by simp [row], by simp⟩

theorem vidRender (a : Nat) (b : Nat) : Statement (.vidRender a b) :=
  fun _ => ⟨_, _, rfl, by simp [row], by simp⟩

theorem vidNewframe : Statement .vidNewframe :=
  fun _ => ⟨_, _, rfl, by simp [row], by simp⟩

theorem vidContend (t : Nat) : Statement (.vidContend t) :=
  fun _ => ⟨_, _, rfl, by simp [row], by simp⟩

theorem tapeReset : Statement .tapeReset :=
  fun _ => ⟨_, _, rfl, by simp [row], by simp⟩

theorem tapeSetmode (pc : Addr) (t : Nat) : Statement (.tapeSetmode pc t) :=
  fun _ => ⟨_, _, rfl, by simp [row], by simp⟩

theorem tapeEnterload (t : Nat) : Statement (.tapeEnterload t) :=
  fun _ => ⟨_, _, rfl, by simp [row], by simp⟩

theorem tapeLeaveload : Statement .tapeLeaveload :=
  fun _ => ⟨_, _, rfl, by simp [row], by simp⟩

theorem tapeEntersave (t : Nat) : Statement (.tapeEntersave t) :=
  fun _ => ⟨_, _, rfl, by simp [row], by simp⟩

theorem tapeLeavesave : Statement .tapeLeavesave :=
  fun _ => ⟨_, _, rfl, by simp [row], by simp⟩

theorem tapeInitplay (t : Nat) : Statement (.tapeInitplay t) :=
  fun _ => ⟨_, _, rfl, by simp [row], by simp⟩

theorem tapeEar (t : Nat) : Statement (.tapeEar t) :=
  fun _ => ⟨_, _, rfl, by simp [row], by simp⟩

theorem tapeMic (t : Nat) (v : Bool) : Statement (.tapeMic t v) :=
  fun _ => ⟨_, _, rfl, by simp [row], by simp⟩

theorem tapeFastload (t : Nat) : Statement (.tapeFastload t) :=
  fun _ => ⟨_, _, rfl, by simp [row], by simp⟩

theorem fdcReset : Statement .fdcReset :=
  fun _ => ⟨_, _, rfl, by simp [row], by simp⟩

theorem fdcWrite (b : Byte) : Statement (.fdcWrite b) :=
  fun _ => ⟨_, _, rfl, by simp [row], by simp⟩

theorem fdcRead : Statement .fdcRead :=
  fun _ => ⟨_, _, rfl, by simp [row], by simp⟩

theorem fdcStatus : Statement .fdcStatus :=
  fun _ => ⟨_, _, rfl, by simp [row], by simp⟩

theorem dskCreate : Statement .dskCreate :=
  fun _ => ⟨_, _, rfl, by simp [row], by simp⟩

theorem dskOpen (image : List Byte) : Statement (.dskOpen image) :=
  fun _ => ⟨_, _, rfl, by simp [row], by simp⟩

theorem dskRead (h : Nat) (t : Nat) (s : Nat) (n : Nat) : Statement (.dskRead h t s n) :=
  fun _ => ⟨_, _, rfl, by simp [row], by simp⟩

theorem dskWrite (h : Nat) (t : Nat) (s : Nat) (data : List Byte) : Statement (.dskWrite h t s data) :=
  fun _ => ⟨_, _, rfl, by simp [row], by simp⟩

theorem fdcSpecify (p0 : Byte) (p1 : Byte) : Statement (.fdcSpecify p0 p1) :=
  fun _ => ⟨_, _, rfl, by simp [row], nofun⟩

theorem fdcSenseDriveStatus (p0 : Byte) : Statement (.fdcSenseDriveStatus p0) :=
  fun _ => ⟨_, _, rfl, by simp [row], nofun⟩

theorem fdcRecalibrate (p0 : Byte) : Statement (.fdcRecalibrate p0) :=
  fun _ => ⟨_, _, rfl, by simp [row], nofun⟩

theorem fdcSenseInterruptStatus : Statement .fdcSenseInterruptStatus :=
  fun _ => ⟨_, _, rfl, by simp [row], nofun⟩

theorem fdcSeek (p0 : Byte) (p1 : Byte) : Statement (.fdcSeek p0 p1) :=
  fun _ => ⟨_, _, rfl, by simp [row], nofun⟩

theorem fdcReadId (b6 : BitVec 1) (p0 : Byte) : Statement (.fdcReadId b6 p0) :=
  fun _ => ⟨_, _, rfl, (by decide : ∀ x, readIdByte x &&& 0xBF = 0x0A) b6, nofun⟩

theorem fdcReadData (hi : BitVec 3) (p : RwParams) : Statement (.fdcReadData hi p) :=
  fun _ => ⟨_, _, rfl, (by decide : ∀ x, readDataByte x &&& 0x1F = 0x06) hi, nofun⟩

theorem fdcFormatTrack (b6 : BitVec 1) (b1 : BitVec 1) (p : FormatParams) : Statement (.fdcFormatTrack b6 b1 p) :=
  fun _ => ⟨_, _, rfl, (by decide : ∀ x y, formatTrackByte x y &&& 0xBD = 0x0D) b6 b1, nofun⟩

theorem fdcWriteData (hi : BitVec 2) (p : RwParams) : Statement (.fdcWriteData hi p) :=
  fun _ => ⟨_, _, rfl, (by decide : ∀ x, writeDataByte x &&& 0x3F = 0x05) hi, nofun⟩

theorem fdcNone (b : Byte) : Statement (.fdcNone b) :=
  fun _ => ⟨_, _, rfl, by simp [row], nofun⟩

end Sys2Proof.Laws.EncodeHead
end

