-- ==== Sys2Proof/Laws/State.lean ====
section
/-! SUPPORT. One lemma per field per named update of the state, so that no proof unfolds a record update. -/

namespace Sys2Proof.Machine.State

variable (s : State)

/-! ### `setVideo` -/

@[simp] theorem setVideo_video (v : Video) : (s.setVideo v).video = v := rfl
@[simp] theorem setVideo_tape (v : Video) : (s.setVideo v).tape = s.tape := rfl
@[simp] theorem setVideo_fdc (v : Video) : (s.setVideo v).fdc = s.fdc := rfl
@[simp] theorem setVideo_disk (v : Video) : (s.setVideo v).disk = s.disk := rfl
@[simp] theorem setVideo_params (v : Video) : (s.setVideo v).params = s.params := rfl
@[simp] theorem setVideo_host (v : Video) : (s.setVideo v).host = s.host := rfl
@[simp] theorem setVideo_result (v : Video) : (s.setVideo v).result = s.result := rfl
@[simp] theorem setVideo_calls (v : Video) : (s.setVideo v).calls = s.calls := rfl
@[simp] theorem setVideo_events (v : Video) : (s.setVideo v).events = s.events := rfl
@[simp] theorem setVideo_inputs (v : Video) : (s.setVideo v).inputs = s.inputs := rfl

/-! ### `setTape` -/

@[simp] theorem setTape_video (t : TapeUnit) : (s.setTape t).video = s.video := rfl
@[simp] theorem setTape_tape (t : TapeUnit) : (s.setTape t).tape = t := rfl
@[simp] theorem setTape_fdc (t : TapeUnit) : (s.setTape t).fdc = s.fdc := rfl
@[simp] theorem setTape_disk (t : TapeUnit) : (s.setTape t).disk = s.disk := rfl
@[simp] theorem setTape_params (t : TapeUnit) : (s.setTape t).params = s.params := rfl
@[simp] theorem setTape_host (t : TapeUnit) : (s.setTape t).host = s.host := rfl
@[simp] theorem setTape_result (t : TapeUnit) : (s.setTape t).result = s.result := rfl
@[simp] theorem setTape_calls (t : TapeUnit) : (s.setTape t).calls = s.calls := rfl
@[simp] theorem setTape_events (t : TapeUnit) : (s.setTape t).events = s.events := rfl
@[simp] theorem setTape_inputs (t : TapeUnit) : (s.setTape t).inputs = s.inputs := rfl

/-! ### `setFloppy` -/

@[simp] theorem setFloppy_video (u : FdcState × Option Disk) : (s.setFloppy u).video = s.video := rfl
@[simp] theorem setFloppy_tape (u : FdcState × Option Disk) : (s.setFloppy u).tape = s.tape := rfl
@[simp] theorem setFloppy_fdc (u : FdcState × Option Disk) : (s.setFloppy u).fdc = u.1 := rfl
@[simp] theorem setFloppy_disk (u : FdcState × Option Disk) : (s.setFloppy u).disk = u.2 := rfl
@[simp] theorem setFloppy_params (u : FdcState × Option Disk) : (s.setFloppy u).params = s.params := rfl
@[simp] theorem setFloppy_host (u : FdcState × Option Disk) : (s.setFloppy u).host = s.host := rfl
@[simp] theorem setFloppy_result (u : FdcState × Option Disk) : (s.setFloppy u).result = s.result := rfl
@[simp] theorem setFloppy_calls (u : FdcState × Option Disk) : (s.setFloppy u).calls = s.calls := rfl
@[simp] theorem setFloppy_events (u : FdcState × Option Disk) : (s.setFloppy u).events = s.events := rfl
@[simp] theorem setFloppy_inputs (u : FdcState × Option Disk) : (s.setFloppy u).inputs = s.inputs := rfl

/-! ### `setDisk` -/

@[simp] theorem setDisk_video (d : Option Disk) : (s.setDisk d).video = s.video := rfl
@[simp] theorem setDisk_tape (d : Option Disk) : (s.setDisk d).tape = s.tape := rfl
@[simp] theorem setDisk_fdc (d : Option Disk) : (s.setDisk d).fdc = s.fdc := rfl
@[simp] theorem setDisk_disk (d : Option Disk) : (s.setDisk d).disk = d := rfl
@[simp] theorem setDisk_params (d : Option Disk) : (s.setDisk d).params = s.params := rfl
@[simp] theorem setDisk_host (d : Option Disk) : (s.setDisk d).host = s.host := rfl
@[simp] theorem setDisk_result (d : Option Disk) : (s.setDisk d).result = s.result := rfl
@[simp] theorem setDisk_calls (d : Option Disk) : (s.setDisk d).calls = s.calls := rfl
@[simp] theorem setDisk_events (d : Option Disk) : (s.setDisk d).events = s.events := rfl
@[simp] theorem setDisk_inputs (d : Option Disk) : (s.setDisk d).inputs = s.inputs := rfl

/-! ### `setHost` -/

@[simp] theorem setHost_video (h : HostWorld) : (s.setHost h).video = s.video := rfl
@[simp] theorem setHost_tape (h : HostWorld) : (s.setHost h).tape = s.tape := rfl
@[simp] theorem setHost_fdc (h : HostWorld) : (s.setHost h).fdc = s.fdc := rfl
@[simp] theorem setHost_disk (h : HostWorld) : (s.setHost h).disk = s.disk := rfl
@[simp] theorem setHost_params (h : HostWorld) : (s.setHost h).params = s.params := rfl
@[simp] theorem setHost_host (h : HostWorld) : (s.setHost h).host = h := rfl
@[simp] theorem setHost_result (h : HostWorld) : (s.setHost h).result = s.result := rfl
@[simp] theorem setHost_calls (h : HostWorld) : (s.setHost h).calls = s.calls := rfl
@[simp] theorem setHost_events (h : HostWorld) : (s.setHost h).events = s.events := rfl
@[simp] theorem setHost_inputs (h : HostWorld) : (s.setHost h).inputs = s.inputs := rfl

/-! ### `setInputs` -/

@[simp] theorem setInputs_video (is : List HostInput) : (s.setInputs is).video = s.video := rfl
@[simp] theorem setInputs_tape (is : List HostInput) : (s.setInputs is).tape = s.tape := rfl
@[simp] theorem setInputs_fdc (is : List HostInput) : (s.setInputs is).fdc = s.fdc := rfl
@[simp] theorem setInputs_disk (is : List HostInput) : (s.setInputs is).disk = s.disk := rfl
@[simp] theorem setInputs_params (is : List HostInput) : (s.setInputs is).params = s.params := rfl
@[simp] theorem setInputs_host (is : List HostInput) : (s.setInputs is).host = s.host := rfl
@[simp] theorem setInputs_result (is : List HostInput) : (s.setInputs is).result = s.result := rfl
@[simp] theorem setInputs_calls (is : List HostInput) : (s.setInputs is).calls = s.calls := rfl
@[simp] theorem setInputs_events (is : List HostInput) : (s.setInputs is).events = s.events := rfl
@[simp] theorem setInputs_inputs (is : List HostInput) : (s.setInputs is).inputs = is := rfl

/-! ### `emit` -/

@[simp] theorem emit_video (es : List Event) : (s.emit es).video = s.video := rfl
@[simp] theorem emit_tape (es : List Event) : (s.emit es).tape = s.tape := rfl
@[simp] theorem emit_fdc (es : List Event) : (s.emit es).fdc = s.fdc := rfl
@[simp] theorem emit_disk (es : List Event) : (s.emit es).disk = s.disk := rfl
@[simp] theorem emit_params (es : List Event) : (s.emit es).params = s.params := rfl
@[simp] theorem emit_host (es : List Event) : (s.emit es).host = s.host := rfl
@[simp] theorem emit_result (es : List Event) : (s.emit es).result = s.result := rfl
@[simp] theorem emit_calls (es : List Event) : (s.emit es).calls = s.calls := rfl
@[simp] theorem emit_events (es : List Event) : (s.emit es).events = s.events ++ es := rfl
@[simp] theorem emit_inputs (es : List Event) : (s.emit es).inputs = s.inputs := rfl

/-! ### `answer` -/

@[simp] theorem answer_video (r : OpResult) (cs : List Callback) : (s.answer r cs).video = s.video := rfl
@[simp] theorem answer_tape (r : OpResult) (cs : List Callback) : (s.answer r cs).tape = s.tape := rfl
@[simp] theorem answer_fdc (r : OpResult) (cs : List Callback) : (s.answer r cs).fdc = s.fdc := rfl
@[simp] theorem answer_disk (r : OpResult) (cs : List Callback) : (s.answer r cs).disk = s.disk := rfl
@[simp] theorem answer_params (r : OpResult) (cs : List Callback) : (s.answer r cs).params = s.params := rfl
@[simp] theorem answer_host (r : OpResult) (cs : List Callback) : (s.answer r cs).host = s.host := rfl
@[simp] theorem answer_result (r : OpResult) (cs : List Callback) : (s.answer r cs).result = r := rfl
@[simp] theorem answer_calls (r : OpResult) (cs : List Callback) : (s.answer r cs).calls = cs := rfl
@[simp] theorem answer_events (r : OpResult) (cs : List Callback) : (s.answer r cs).events = s.events := rfl
@[simp] theorem answer_inputs (r : OpResult) (cs : List Callback) : (s.answer r cs).inputs = s.inputs := rfl

/-! ### Updates one after another -/

@[simp] theorem emit_nil : s.emit [] = s := by simp [emit]
@[simp] theorem setTape_self : s.setTape s.tape = s := rfl
@[simp] theorem setVideo_self : s.setVideo s.video = s := rfl
@[simp] theorem setFloppy_self : s.setFloppy (s.fdc, s.disk) = s := rfl

end Sys2Proof.Machine.State
end

