-- ==== Sys2Proof/Laws/Tape.lean ====
section
/-! SUPPORT. The tape unit: starting a block, the phases of the LOAD generator as functions of the elapsed time, and
what one call of each shared operation can do. -/

namespace Sys2Proof.Machine

open Sys2Proof Sys2Proof.Spec

/-! ### Shared operations -/

@[simp] theorem guardTape_ready {s : State} (h : TapeReady s) (k : Answer) : guardTape s k = k := by
  simp [guardTape, show s.tape.imageStale = false from h]

theorem guardTape_next {s t : State} {k : Answer} (h : guardTape s k = .next t) : TapeReady s ∧ k = .next t := by
  unfold guardTape at h
  split at h
  · cases h
  · exact ⟨Bool.eq_false_iff.mpr ‹_›, h⟩

theorem hasEmptyBlock_iff (t : TapeUnit) : t.hasEmptyBlock = true ↔ HasEmptyBlock t.image := by
  simp [TapeUnit.hasEmptyBlock, HasEmptyBlock, List.any_eq_true]

theorem hasEmptyBlock_eq_false (t : TapeUnit) : t.hasEmptyBlock = false ↔ ¬ HasEmptyBlock t.image := by
  rw [← hasEmptyBlock_iff]; simp

/-- `InitBlock` on a current block with data (R204). -/
theorem initBlock_some {t : TapeUnit} {b : TapeBlock} (start : Nat) (h : t.image[t.blockIndex]? = some b)
    (hd : b.data ≠ []) :
    t.initBlock start = .ok { t with play := started b start, lastTact := start, initialised := true } := by
  obtain ⟨data, pause⟩ := b
  cases data with
  | nil => exact absurd rfl hd
  | cons first rest => simp [TapeUnit.initBlock, h, Playback.begin, started, pilotCountOf, pilotCount, dataPilotCount,
      headerPilotCount, pilotPl, sync1Pl, sync2Pl]

/-- What `InitBlock` answers when it answers (R204). -/
theorem initBlock_ok {t t' : TapeUnit} {start : Nat} (h : t.initBlock start = .ok t') :
    ∃ b, t.image[t.blockIndex]? = some b ∧ b.data ≠ [] ∧
      t' = { t with play := started b start, lastTact := start, initialised := true } := by
  have h0 := h
  unfold TapeUnit.initBlock at h
  split at h
  · cases h
  · rename_i b hb
    split at h
    · cases h
    · rename_i first rest hd
      have hne : b.data ≠ [] := by rw [hd]; simp
      rw [initBlock_some start hb hne] at h0
      exact ⟨b, hb, hne, (Except.ok.inj h0).symm⟩

/-- TAPE.EAR where it plays (R206): the walk over the blocks decides. -/
theorem execTapeEar_playing {s : State} {tact : Nat} (hr : TapeReady s) (hm : s.tape.mode = .load)
    (hc : s.tape.playerCompleted = false) (hi : s.tape.initialised = true) (ht : s.tape.lastTact ≤ tact) :
    execTapeEar tact s =
      match earBlocks tact s.tape.remaining { s.tape with lastTact := tact } with
      | .error f => .fault f
      | .ok (t, level) => complete (.bit level) (s.setTape t) := by
  unfold execTapeEar
  rw [guardTape_ready hr, if_neg (by simp [hm]), if_neg (by simp [hc]), if_neg (by simp [hi]), if_neg (by omega)]
  try rfl

/-! ### Elapsed time (R201) -/

theorem bitsTime_append (xs ys : List Bool) : bitsTime (xs ++ ys) = bitsTime xs + bitsTime ys := by
  induction xs with
  | nil => simp [bitsTime]
  | cons x xs ih => simp [bitsTime, ih]; omega

/-- The half-pulse length of a bit under a one-bit mask (R208) is the width of R201. -/
theorem pulseLen_eq (byte : Byte) {k : Nat} (h : k < 8) :
    pulseLen byte (0x80#8 >>> k) = halfWidth (byte.getLsbD (7 - k)) := by
  have : ∀ b : Byte, ∀ k < 8, pulseLen b (0x80#8 >>> k) = halfWidth (b.getLsbD (7 - k)) := by decide +kernel
  exact this byte k h

end Sys2Proof.Machine
end

