-- ==== Sys2Proof/Laws/TapeMode.lean ====
section
/-! SUPPORT. Everything one tape operation can do when it goes on: one lemma per shared transition and per meaning. -/

namespace Sys2Proof.Machine

open Sys2Proof Sys2Proof.Spec

theorem complete_next {r : OpResult} {s t : State} : complete r s = .next t ↔ t = s.answer r [] := by
  simp [complete, completeWith, eq_comm]

theorem completeWith_next {r : OpResult} {cs : List Callback} {s t : State} :
    completeWith r cs s = .next t ↔ t = s.answer r cs := by
  simp [completeWith, eq_comm]

theorem raise_next {e : OpError} {s t : State} : raise e s = .next t ↔ t = s.answer (.error e) [] := complete_next

/-- The tape unit in LOAD mode with the block at `k` started (R276). -/
def TapeUnit.loaded (t : TapeUnit) (k : Nat) (b : TapeBlock) (tact : Nat) : TapeUnit :=
  { t with
    mode := .load, blockIndex := k, playerCompleted := false, initialised := true, lastTact := tact
    play := started b tact }

/-- `EnterLoad` (R276). -/
theorem enterLoad_cases {tact : Nat} {s t : State} (h : enterLoad tact s = .next t) :
    (s.tape.mode ≠ .passive ∧ t = s.answer .done []) ∨
    (s.tape.mode = .passive ∧ s.tape.hasEmptyBlock = true ∧ t = s.answer (.error .tapeEmptyBlock) []) ∨
    (s.tape.mode = .passive ∧ s.tape.image = [] ∧
      t = ((s.setTape { s.tape with mode := .load, blockIndex := 0, playerCompleted := true, initialised := false }).emit
        [.enteredLoad]).answer .done []) ∨
    (s.tape.mode = .passive ∧ s.tape.hasEmptyBlock = false ∧ ∃ k b, k = s.tape.restartFinished.blockIndex ∧
      s.tape.image[k]? = some b ∧ b.data ≠ [] ∧
      t = ((s.setTape (s.tape.loaded k b tact)).emit [.enteredLoad]).answer .done []) := by
  unfold enterLoad at h
  split at h
  · exact .inl ⟨‹_›, complete_next.1 h⟩
  · have hp : s.tape.mode = .passive := by simpa using ‹¬ s.tape.mode ≠ .passive›
    split at h
    · exact .inr (.inl ⟨hp, ‹_›, raise_next.1 h⟩)
    · have he : s.tape.hasEmptyBlock = false := by simpa using ‹¬ s.tape.hasEmptyBlock = true›
      dsimp only at h
      split at h
      · rename_i hi
        have hi : s.tape.image = [] := hi
        refine .inr (.inr (.inl ⟨hp, hi, ?_⟩))
        rw [complete_next.1 h]
        simp [TapeUnit.restartFinished, hi]
      · split at h
        · cases h
        · rename_i t' ht
          obtain ⟨b, hb, hd, rfl⟩ := initBlock_ok ht
          exact .inr (.inr (.inr ⟨hp, he, _, b, rfl, hb, hd, complete_next.1 h⟩))

/-- `LeaveLoad` (R278). -/
theorem leaveLoad_cases {s t : State} (h : leaveLoad s = .next t) :
    (s.tape.mode = .load ∧ t = ((s.setTape { s.tape with mode := .passive }).emit [.leftLoad]).answer .done []) ∨
    (s.tape.mode ≠ .load ∧ t = s.answer .done []) := by
  unfold leaveLoad at h
  split at h
  · exact .inl ⟨‹_›, complete_next.1 h⟩
  · exact .inr ⟨‹_›, complete_next.1 h⟩

/-- `EnterSave` (R280). -/
theorem enterSave_cases {tact : Nat} {s t : State} (h : enterSave tact s = .next t) :
    (s.tape.mode = .passive ∧
      t = ((s.setTape { s.tape with mode := .save, save := { SaveState.reset with lastActivityTact := tact } }).emit
        [.enteredSave]).answer .done []) ∨
    (s.tape.mode ≠ .passive ∧ t = s.answer .done []) := by
  unfold enterSave at h
  split at h
  · exact .inr ⟨‹_›, complete_next.1 h⟩
  · exact .inl ⟨by simpa using ‹¬ s.tape.mode ≠ .passive›, complete_next.1 h⟩

/-- `LeaveSave` (R282). -/
theorem leaveSave_cases {s t : State} (h : leaveSave s = .next t) :
    (s.tape.mode = .save ∧ t = ((s.setTape { s.tape with mode := .passive }).emit [.leftSave]).answer .done []) ∨
    (s.tape.mode ≠ .save ∧ t = s.answer .done []) := by
  unfold leaveSave at h
  split at h
  · exact .inl ⟨‹_›, complete_next.1 h⟩
  · exact .inr ⟨‹_›, complete_next.1 h⟩

/-- `FastLoad` (R285): nothing where no block is left, else the tape advances and the host's data may change. -/
theorem fastLoad_cases {s t : State} (h : fastLoad s = .next t) :
    (s.tape.image.length ≤ s.tape.blockIndex ∧ t = s.answer .done []) ∨
    ∃ b cs, s.tape.image[s.tape.blockIndex]? = some b ∧
      t = ((s.setTape s.tape.advance).setHost
        (if b.data.head? = some (s.host.cpu.get8 s.params.fastLoadTypeReg) then fastLoadCopy s.params b.data s.host
         else fastLoadMismatch s.params s.host)).answer .done cs := by
  unfold fastLoad at h
  split at h
  · exact .inl ⟨by simpa using ‹s.tape.image[s.tape.blockIndex]? = none›, complete_next.1 h⟩
  · rename_i b hb
    dsimp only at h
    split at h
    · rename_i hd
      exact .inr ⟨b, _, hb, by rw [if_pos hd]; exact completeWith_next.1 h⟩
    · rename_i hd
      exact .inr ⟨b, _, hb, by rw [if_neg hd]; exact completeWith_next.1 h⟩

/-- TAPE.SETMODE (R274): the direct operation of its transition, or nothing. -/
theorem execTapeSetmode_cases {pc : Addr} {tact : Nat} {s t : State} (h : execTapeSetmode pc tact s = .next t) :
    TapeReady s ∧
    ((s.tape.mode = .passive ∧ pc = s.params.loadHook ∧ s.params.fastLoadEnabled = true ∧ fastLoad s = .next t) ∨
    (s.tape.mode = .passive ∧ pc = s.params.loadHook ∧ s.params.fastLoadEnabled = false ∧ enterLoad tact s = .next t) ∨
    (s.tape.mode = .passive ∧ pc ≠ s.params.loadHook ∧ pc = s.params.saveHook ∧ enterSave tact s = .next t) ∨
    (s.tape.mode = .load ∧ (s.tape.playerCompleted = true ∨ pc = s.params.errorHook) ∧ leaveLoad s = .next t) ∨
    (s.tape.mode = .save ∧ (pc = s.params.errorHook ∨ s.tape.save.lastActivityTact + 17500000 ≤ tact) ∧
      leaveSave s = .next t) ∨
    (((s.tape.mode = .passive ∧ pc ≠ s.params.loadHook ∧ pc ≠ s.params.saveHook) ∨
      (s.tape.mode = .load ∧ s.tape.playerCompleted = false ∧ pc ≠ s.params.errorHook) ∨
      (s.tape.mode = .save ∧ pc ≠ s.params.errorHook ∧ tact < s.tape.save.lastActivityTact + 17500000)) ∧
      t = s.answer .done [])) := by
  obtain ⟨hr, h⟩ := guardTape_next h
  refine ⟨hr, ?_⟩
  split at h
  · rename_i hm
    split at h
    · split at h
      · exact .inl ⟨hm, ‹_›, ‹_›, h⟩
      · exact .inr (.inl ⟨hm, ‹_›, by simpa using ‹¬ s.params.fastLoadEnabled = true›, h⟩)
    · split at h
      · exact .inr (.inr (.inl ⟨hm, ‹_›, ‹_›, h⟩))
      · exact .inr (.inr (.inr (.inr (.inr ⟨.inl ⟨hm, ‹_›, ‹_›⟩, complete_next.1 h⟩))))
  · rename_i hm
    split at h
    · exact .inr (.inr (.inr (.inl ⟨hm, ‹_›, h⟩)))
    · rename_i hx
      rw [not_or] at hx
      exact .inr (.inr (.inr (.inr (.inr ⟨.inr (.inl ⟨hm, by simpa using hx.1, hx.2⟩), complete_next.1 h⟩))))
  · rename_i hm
    split at h
    · exact .inr (.inr (.inr (.inr (.inl ⟨hm, ‹_›, h⟩))))
    · rename_i hx
      rw [not_or] at hx
      exact .inr (.inr (.inr (.inr (.inr ⟨.inr (.inr ⟨hm, hx.1, Nat.not_le.1 hx.2⟩), complete_next.1 h⟩))))

/-- TAPE.INITPLAY (R204). -/
theorem execTapeInitplay_cases {start : Nat} {s t : State} (h : execTapeInitplay start s = .next t) :
    TapeReady s ∧
    ((s.tape.image.length ≤ s.tape.blockIndex ∧ t = s.answer (.error .tapeNoBlock) []) ∨
    (s.tape.blockIndex < s.tape.image.length ∧ s.tape.hasEmptyBlock = true ∧
      t = s.answer (.error .tapeEmptyBlock) []) ∨
    (s.tape.hasEmptyBlock = false ∧ ∃ b, s.tape.image[s.tape.blockIndex]? = some b ∧ b.data ≠ [] ∧
      t = (s.setTape { s.tape with
        playerCompleted := false, initialised := true, lastTact := start, play := started b start }).answer .done [])) := by
  obtain ⟨hr, h⟩ := guardTape_next h
  refine ⟨hr, ?_⟩
  split at h
  · exact .inl ⟨‹_›, raise_next.1 h⟩
  · split at h
    · exact .inr (.inl ⟨by omega, ‹_›, raise_next.1 h⟩)
    · split at h
      · cases h
      · rename_i t' ht
        obtain ⟨b, hb, hd, rfl⟩ := initBlock_ok ht
        exact .inr (.inr ⟨by simpa using ‹¬ s.tape.hasEmptyBlock = true›, b, hb, hd, complete_next.1 h⟩)

/-- TAPE.EAR (R206, R215 to R217). -/
theorem execTapeEar_cases {tact : Nat} {s t : State} (h : execTapeEar tact s = .next t) :
    TapeReady s ∧
    (((s.tape.mode ≠ .load ∨ s.tape.playerCompleted = true) ∧ t = s.answer (.bit true) []) ∨
    (s.tape.mode = .load ∧ s.tape.playerCompleted = false ∧ s.tape.initialised = false ∧
      t = s.answer (.error .tapeNotInitialised) []) ∨
    (s.tape.mode = .load ∧ s.tape.playerCompleted = false ∧ s.tape.initialised = true ∧ tact < s.tape.lastTact ∧
      t = s.answer (.error .tapeOrderViolation) []) ∨
    (s.tape.mode = .load ∧ s.tape.playerCompleted = false ∧ s.tape.initialised = true ∧ s.tape.lastTact ≤ tact ∧
      ∃ t' level, earBlocks tact s.tape.remaining { s.tape with lastTact := tact } = .ok (t', level) ∧
        t = (s.setTape t').answer (.bit level) [])) := by
  obtain ⟨hr, h⟩ := guardTape_next h
  refine ⟨hr, ?_⟩
  split at h
  · exact .inl ⟨.inl ‹_›, complete_next.1 h⟩
  · have hm : s.tape.mode = .load := by simpa using ‹¬ s.tape.mode ≠ .load›
    split at h
    · exact .inl ⟨.inr ‹_›, complete_next.1 h⟩
    · have hc : s.tape.playerCompleted = false := by simpa using ‹¬ s.tape.playerCompleted = true›
      split at h
      · rename_i hi; exact .inr (.inl ⟨hm, hc, by simpa using hi, raise_next.1 h⟩)
      · have hi : s.tape.initialised = true := by simpa using ‹¬ (!s.tape.initialised) = true›
        split at h
        · exact .inr (.inr (.inl ⟨hm, hc, hi, ‹_›, raise_next.1 h⟩))
        · split at h
          · cases h
          · rename_i t' level he
            exact .inr (.inr (.inr ⟨hm, hc, hi, by omega, t', level, he, complete_next.1 h⟩))

/-- TAPE.MIC (R236). -/
theorem execTapeMic_cases {tact : Nat} {value : Bool} {s t : State} (h : execTapeMic tact value s = .next t) :
    TapeReady s ∧
    (((s.tape.mode ≠ .save ∨ value = s.tape.save.micBitState) ∧ t = s.answer .done []) ∨
    (s.tape.mode = .save ∧ value ≠ s.tape.save.micBitState ∧ tact < s.tape.save.lastActivityTact ∧
      t = s.answer (.error .tapeOrderViolation) []) ∨
    (s.tape.mode = .save ∧ value ≠ s.tape.save.micBitState ∧ s.tape.save.lastActivityTact ≤ tact ∧
      ∃ v es, s.tape.save.transition s.params tact value = (v, es) ∧
        t = ((s.setTape { s.tape with save := v }).emit es).answer .done [])) := by
  obtain ⟨hr, h⟩ := guardTape_next h
  refine ⟨hr, ?_⟩
  split at h
  · exact .inl ⟨.inl ‹_›, complete_next.1 h⟩
  · have hm : s.tape.mode = .save := by simpa using ‹¬ s.tape.mode ≠ .save›
    split at h
    · exact .inl ⟨.inr ‹_›, complete_next.1 h⟩
    · split at h
      · exact .inr (.inl ⟨hm, ‹_›, ‹_›, raise_next.1 h⟩)
      · exact .inr (.inr ⟨hm, ‹_›, by omega, _, _, rfl, complete_next.1 h⟩)

/-- TAPE.FASTLOAD (R285). -/
theorem execTapeFastload_cases {tact : Nat} {s t : State} (h : execTapeFastload tact s = .next t) :
    s.params.fastLoadEnabled = true ∧ TapeReady s ∧ fastLoad s = .next t := by
  unfold execTapeFastload at h
  split at h
  · exact ⟨‹_›, guardTape_next h⟩
  · cases h

/-! ### The walk over the blocks (R206) -/

/-- What the walk changes: the playback state, the block index and the completion flag, where the tact was recorded and
a block was started. -/
theorem earBlocks_frame {tact : Nat} {bs : List TapeBlock} :
    ∀ {t t' : TapeUnit} {level : Bool}, t.lastTact = tact → t.initialised = true →
      earBlocks tact bs t = .ok (t', level) →
      t' = { t with play := t'.play, blockIndex := t'.blockIndex, playerCompleted := t'.playerCompleted } := by
  induction bs with
  | nil => intro t t' level _ _ h; cases h
  | cons b bs ih =>
    intro t t' level hl hi h
    unfold earBlocks at h
    split at h
    · cases h
    · split at h
      · cases h; rfl
      · dsimp only at h
        split at h
        · cases h; rfl
        · split at h
          · cases h
          · rename_i p _ _ _ _ _ _ _ t2 ht
            obtain ⟨c, hc, _, rfl⟩ := initBlock_ok ht
            have := ih (by rfl) (by rfl) h
            rw [this]; simp [hl, hi]

end Sys2Proof.Machine
end

