-- ==== Sys2Proof/Laws/Video.lean ====
section
/-! SUPPORT. The timing table entry by entry, and what rendering one tact and a range of tacts can change. -/

namespace Sys2Proof.Machine

open Sys2Proof Sys2Proof.Spec

/-! ### The table -/

@[simp] theorem length_tableFrom (g : Geometry) (n tact : Nat) : (tableFrom g n tact).length = n := by
  induction n generalizing tact with
  | zero => rfl
  | succ n ih => simp [tableFrom, ih]

theorem getElem?_tableFrom (g : Geometry) {n i : Nat} (tact : Nat) (h : i < n) :
    (tableFrom g n tact)[i]? = some (describeTact g (tact + i)) := by
  induction n generalizing tact i with
  | zero => omega
  | succ n ih =>
    cases i with
    | zero => simp [tableFrom]
    | succ i => simp only [tableFrom, List.getElem?_cons_succ, ih (tact + 1) (by omega : i < n)]; congr 2; omega

@[simp] theorem length_buildTable (g : Geometry) : (buildTable g).length = g.frameT := length_tableFrom _ _ _

/-- Entry `i` of the table describes tact `i` of the frame (R142). -/
theorem getElem?_buildTable {g : Geometry} {i : Nat} (h : i < g.frameT) :
    (buildTable g)[i]? = some (describeTact g i) := 
  (getElem?_tableFrom g 0 h).trans (by rw [Nat.zero_add])

/-! ### A valid geometry (R149) -/

theorem Geometry.valid_iff {g : Geometry} : g.valid = true ↔
    (1 ≤ g.displayLines ∧ g.displayLines ≤ 192) ∧ (8 ≤ g.displayT ∧ g.displayT % 8 = 0 ∧ g.displayT ≤ 128) ∧
    (2 ≤ g.borderLeftT ∧ g.contentionLeadT ≤ g.borderLeftT) ∧ (g.pixelPrefetchT = 2 ∧ g.attrPrefetchT = 1) ∧
    (g.contentionPattern.length = 8 ∧ ∀ d ∈ g.contentionPattern, d ≤ 7) ∧
    (g.screenBase + 0x17FF ≤ 0xFFFF ∧ g.attrBase + 0x2FF ≤ 0xFFFF) := by
  simp only [Geometry.valid, Bool.and_eq_true, decide_eq_true_eq, List.all_eq_true]
  tauto

theorem Geometry.lineT_pos {g : Geometry} (h : g.valid = true) : 0 < g.lineT := by
  have := Geometry.valid_iff.mp h; simp only [Geometry.lineT]; omega

theorem Geometry.rasterLines_pos {g : Geometry} (h : g.valid = true) : 0 < g.rasterLines := by
  have := Geometry.valid_iff.mp h; simp only [Geometry.rasterLines, Geometry.screenLines]; omega

theorem Geometry.frameT_pos {g : Geometry} (h : g.valid = true) : 0 < g.frameT :=
  Nat.mul_pos (Geometry.rasterLines_pos h) (Geometry.lineT_pos h)

/-- A line and a tact of it name one tact of the frame. -/
theorem Geometry.tact_lt {g : Geometry} {line t : Nat} (hl : line < g.rasterLines) (ht : t < g.lineT) :
    line * g.lineT + t < g.frameT := by
  have := Nat.mul_le_mul_right g.lineT (Nat.succ_le_of_lt hl)
  simp only [Nat.succ_mul] at this
  simp only [Geometry.frameT]; omega

theorem Geometry.line_of_tact {g : Geometry} {line t : Nat} (ht : t < g.lineT) :
    (line * g.lineT + t) / g.lineT = line ∧ (line * g.lineT + t) % g.lineT = t := by
  have h : 0 < g.lineT := by omega
  constructor
  · rw [Nat.mul_comm, Nat.mul_add_div h, Nat.div_eq_of_lt ht, Nat.add_zero]
  · rw [Nat.mul_comm, Nat.mul_add_mod, Nat.mod_eq_of_lt ht]

/-! ### Colours -/

theorem inkOf_eq : ∀ a, inkOf a = ink a := by decide +kernel
theorem paperOf_eq : ∀ a, paperOf a = paper a := by decide +kernel

theorem inkOf_lt : ∀ a, (inkOf a).toNat < 16 := by decide +kernel
theorem paperOf_lt : ∀ a, (paperOf a).toNat < 16 := by decide +kernel

/-- The colour chosen through the two tables is the pixel's colour (R172, R173). -/
theorem colour_eq (flash b : Bool) (a : Byte) : colour flash b a = pixelColour flash b a := by
  have h : ∀ a : Byte, ∀ flash b, colour flash b a = pixelColour flash b a := by decide +kernel
  exact h a flash b

theorem colour_lt (flash b : Bool) (a : Byte) : (colour flash b a).toNat < 16 := by
  have h : ∀ a : Byte, ∀ flash b, (colour flash b a).toNat < 16 := by decide +kernel
  exact h a flash b

/-! ### One tact -/

@[simp] theorem putPixels_geometry (v : Video) (o : Nat) (c0 c1 : Byte) : (v.putPixels o c0 c1).geometry = v.geometry := rfl
@[simp] theorem putPixels_tt (v : Video) (o : Nat) (c0 c1 : Byte) : (v.putPixels o c0 c1).tt = v.tt := rfl
@[simp] theorem putPixels_pb (v : Video) (o : Nat) (c0 c1 : Byte) :
    (v.putPixels o c0 c1).pb = (v.pb.set o c0).set (o + 1) c1 := rfl

theorem putPixels_written (v : Video) (o : Nat) (c0 c1 : Byte) :
    PixelsWritten v.pb (v.putPixels o c0 c1).pb o (some (c0, c1)) := by
  refine ⟨by simp, fun k hk => ?_⟩
  simp only [putPixels_pb, List.getElem?_set, List.length_set]
  grind

/-- What one tact can do (R175 to R185): the elements it never writes, its latches, its pixels and its callbacks. -/
theorem renderTact_spec (h : HostWorld) (v : Video) (i : Nat) :
    let d := v.descriptor i
    let l := latchesAfter h v d
    ∃ pb, renderTact h v i =
        ({ v with pb := pb, pixelByte1 := l.1, attrByte1 := l.2.1, pixelByte2 := l.2.2.1, attrByte2 := l.2.2.2 }, callsOf d) ∧
      PixelsWritten v.pb pb (d.y.toNat * v.geometry.screenWidth + d.x.toNat) (pixelsOf h v i d) := by
  simp only [renderTact, latchesAfter, callsOf, pixelsOf]
  cases hp : (v.descriptor i).phase <;>
    simp only [showsBorder, showsByte1, showsByte2, fetchesPixel, fetchesAttribute, Bool.false_eq_true, if_false, if_true,
      ← colour_eq] <;>
    first
      | exact ⟨_, rfl, rfl, fun _ _ => rfl⟩
      | exact ⟨_, rfl, putPixels_written _ _ _ _⟩

theorem renderTact_keeps (h : HostWorld) (v : Video) (i : Nat) :
    (renderTact h v i).1.geometry = v.geometry ∧ (renderTact h v i).1.tt = v.tt ∧
    (renderTact h v i).1.frameCount = v.frameCount ∧ (renderTact h v i).1.flashPhase = v.flashPhase ∧
    (renderTact h v i).1.pb.length = v.pb.length := by
  obtain ⟨pb, he, hp⟩ := renderTact_spec h v i
  rw [he]; exact ⟨rfl, rfl, rfl, rfl, hp.1⟩

/-! ### A range of tacts -/

theorem renderTacts_one (h : HostWorld) (v : Video) (tact : Nat) :
    renderTacts h v tact 1 = renderTact h v (tact % v.geometry.frameT) := by simp [renderTacts]

/-- A range is its first part and then the rest (R174). -/
theorem renderTacts_add (h : HostWorld) (v : Video) (tact m n : Nat) :
    (renderTacts h v tact (m + n)).1 = (renderTacts h (renderTacts h v tact m).1 (tact + m) n).1 := by
  induction m generalizing v tact with
  | zero => simp [renderTacts]
  | succ m ih =>
    rw [show m + 1 + n = (m + n) + 1 by omega]
    simp only [renderTacts, ih]
    rw [show tact + (m + 1) = tact + 1 + m by omega]

theorem renderTacts_keeps (h : HostWorld) (v : Video) (tact n : Nat) :
    (renderTacts h v tact n).1.geometry = v.geometry ∧ (renderTacts h v tact n).1.tt = v.tt ∧
    (renderTacts h v tact n).1.frameCount = v.frameCount ∧ (renderTacts h v tact n).1.flashPhase = v.flashPhase ∧
    (renderTacts h v tact n).1.pb.length = v.pb.length := by
  induction n generalizing v tact with
  | zero => simp [renderTacts]
  | succ n ih =>
    have h1 := renderTact_keeps h v (tact % v.geometry.frameT)
    have h2 := ih (renderTact h v (tact % v.geometry.frameT)).1 (tact + 1)
    simp only [renderTacts]
    exact ⟨h2.1.trans h1.1, h2.2.1.trans h1.2.1, h2.2.2.1.trans h1.2.2.1, h2.2.2.2.1.trans h1.2.2.2.1,
      h2.2.2.2.2.trans h1.2.2.2.2⟩

end Sys2Proof.Machine
end

