-- ==== Sys2Proof/Machine/Codes.lean ====
section
/-! DEFINITION. The numeric codes of the enumerations, for identification only (spec 30_encoding R120 to R122,
10_state R30, R32, R35, R40, 60_exceptions R420; decision D8). -/

namespace Sys2Proof.Machine

open Sys2Proof

/-- R120. -/
def VideoPhase.code : VideoPhase → Nat
  | .none => 0
  | .border => 1
  | .borderFetchPixel => 2
  | .borderFetchAttr => 3
  | .displayByte1 => 4
  | .displayByte1FetchByte2 => 5
  | .displayByte1FetchAttr2 => 6
  | .displayByte2 => 7
  | .displayByte2FetchByte1 => 8
  | .displayByte2FetchAttr1 => 9

/-- R30. -/
def TapeMode.code : TapeMode → Nat
  | .passive => 0
  | .load => 1
  | .save => 2

/-- R32. -/
def PlayPhase.code : PlayPhase → Nat
  | .pilot => 0
  | .sync => 1
  | .data => 2
  | .termSync => 3
  | .pause => 4
  | .completed => 5

/-- R35. -/
def SavePhase.code : SavePhase → Nat
  | .none => 0
  | .pilot => 1
  | .sync1 => 2
  | .sync2 => 3
  | .data => 4
  | .error => 5

/-- R35. -/
def HalfPulse.code : HalfPulse → Nat
  | .noPulse => 0
  | .bit0 => 1
  | .bit1 => 2

/-- R121. -/
def PulseClass.code : PulseClass → Nat
  | .unclassified => 0
  | .pilot => 1
  | .sync1 => 2
  | .sync2 => 3
  | .bit0 => 4
  | .bit1 => 5
  | .termSync => 6
  | .tooShort => 7
  | .tooLong => 8

/-- R420: the field codes of `DiskDomainError`. -/
def DiskField.code : DiskField → Nat
  | .head => 0
  | .track => 1
  | .sector => 2
  | .length => 3

/-- R420. -/
def OpError.code : OpError → Nat
  | .geometryInvalid => 1
  | .tapeNoBlock => 2
  | .tapeEmptyBlock => 3
  | .tapeNotInitialised => 4
  | .tapeOrderViolation => 5
  | .diskNotAttached => 6
  | .diskDomainError _ => 7
  | .imageTruncated => 8
  | .imageIncompatible => 9

/-- R420, column "value recorded". -/
def OpError.recorded : OpError → Option Nat
  | .diskDomainError field => some field.code
  | _ => none

/-- R40. -/
def commandCode : FloppyCommand → Nat
  | .specify => 0
  | .senseDriveStatus => 1
  | .recalibrate => 2
  | .senseInterruptStatus => 3
  | .seek => 4
  | .readId => 5
  | .readData => 6
  | .formatTrack => 7
  | .writeData => 8
  | .none => 9

end Sys2Proof.Machine
end

