-- ==== Sys2Proof/Tests/Slice0.lean ====
section
/-! SUPPORT. The model's own tests: ill-formed terms that the check refuses, words written out from the spec's encodings,
the vectors of spec/95_test_vectors.md on small states (each names its vector), and for every statement with hypotheses
a concrete state and operands that meet them. -/

namespace Sys2Proof.Tests

open Sys2Proof Sys2Proof.Machine Sys2Proof.Spec

set_option Elab.async false

/-! ### Small states -/

/-- `GEOM_TINY` of V-VID-2. -/
def tinyGeometry : Geometry := { Geometry.preset48K with
  vsyncLines := 1, nvTopLines := 0, borderTopLines := 1, displayLines := 2, borderBottomLines := 1, nvBottomLines := 0
  borderLeftT := 2, displayT := 8, borderRightT := 2, nvRightT := 0, hblankT := 1 }

/-- The default parameters over `GEOM_TINY`. -/
def tinyParams : Params := { Params.default with geometry := tinyGeometry }

/-- The machine after power-on with them. -/
def tiny : State := State.powerOn tinyParams

/-- The next state, if the machine goes on. -/
def nextOf : Answer → Option State
  | .next s => some s
  | _ => none

/-- The state after the instruction, `s` itself where the machine stops. -/
def after (i : Instr) (s : State) : State := (nextOf (exec i s)).getD s

/-- A value of the next state, none where the machine stops. -/
def look {α : Type} (f : State → α) (a : Answer) : Option α := (nextOf a).map f

/-- What the operation returned. -/
def resultOf (a : Answer) : Option OpResult := look State.result a

/-- `tiny` with a tape image. -/
def withTape (image : List TapeBlock) : State := { tiny with tape := TapeUnit.reset image }

/-- The block `[0xFF, 0x01]` with 1 ms of pause (V-TL-1). -/
def shortBlock : TapeBlock := ⟨[0xFF, 0x01], 1⟩

/-- LOAD mode from tact 0 on the short block. -/
def loading : State := after (.tapeEnterload 0) (withTape [shortBlock])

/-- SAVE mode from tact 1000 (V-TS-3). -/
def saving : State := after (.tapeEntersave 1000) tiny

/-- A blank disk attached. -/
def blank : State := after .dskCreate tiny

/-- The header block of R290. -/
def headerBlock : List Byte :=
  [0x00, 0x03, 0x41, 0x42, 0x43, 0x20, 0x20, 0x20, 0x20, 0x20, 0x20, 0x20, 0x10, 0x00, 0x00, 0x80, 0x00, 0x80, 0x73]

/-- Fast-load enabled, the header block on the tape, `A'`, `DE`, `IX` set (R290). -/
def fastLoading (aAlt : Byte) (de : BitVec 16) (data : List Byte) : State := { tiny with
  params := { tinyParams with fastLoadEnabled := true }
  tape := TapeUnit.reset [⟨data, 1000⟩]
  host := { tiny.host with cpu := { HostCpu.powerOn with aAlt := aAlt, de := de, ix := 0x8000 } } }

/-! ### Well-formedness: a term that each check refuses -/

theorem test_wf_u64_geometry : (Instr.vidBuild { tinyGeometry with hblankT := 2 ^ 64 }).wellFormed = false := by decide
theorem test_wf_u64_pattern : (Instr.vidBuild { tinyGeometry with contentionPattern := [2 ^ 64] }).wellFormed = false := by
  decide
theorem test_wf_u64_render_from : (Instr.vidRender (2 ^ 64) 0).wellFormed = false := by decide
theorem test_wf_u64_render_to : (Instr.vidRender 0 (2 ^ 64)).wellFormed = false := by decide
theorem test_wf_u64_contend : (Instr.vidContend (2 ^ 64)).wellFormed = false := by decide
theorem test_wf_u64_setmode : (Instr.tapeSetmode 0 (2 ^ 64)).wellFormed = false := by decide
theorem test_wf_u64_enterload : (Instr.tapeEnterload (2 ^ 64)).wellFormed = false := by decide
theorem test_wf_u64_entersave : (Instr.tapeEntersave (2 ^ 64)).wellFormed = false := by decide
theorem test_wf_u64_initplay : (Instr.tapeInitplay (2 ^ 64)).wellFormed = false := by decide
theorem test_wf_u64_ear : (Instr.tapeEar (2 ^ 64)).wellFormed = false := by decide
theorem test_wf_u64_mic : (Instr.tapeMic (2 ^ 64) true).wellFormed = false := by decide
theorem test_wf_u64_fastload : (Instr.tapeFastload (2 ^ 64)).wellFormed = false := by decide
theorem test_wf_u64_disk_read : (Instr.dskRead 0 0 (2 ^ 64) 1).wellFormed = false := by decide
theorem test_wf_u64_disk_write : (Instr.dskWrite 0 (2 ^ 64) 1 [0]).wellFormed = false := by decide

/-- An image of 2^64 bytes cannot be passed (R100). -/
theorem test_wf_u64_disk_open : (Instr.dskOpen (List.replicate (2 ^ 64) 0)).wellFormed = false := by
  simp only [Instr.wellFormed, isU64, u64Limit, List.length_replicate, lt_irrefl, decide_false]

/-- FormatTrack's ignored bits (0, 1) would be Seek's byte 0x0F (R106). -/
theorem test_wf_format_not_seek : (Instr.fdcFormatTrack 0 1 ⟨0, 0, 0, 0, 0⟩).wellFormed = false := by decide

/-- A byte of each row of priorities 1 to 9 is no None (R105). -/
theorem test_wf_none_matches_no_row :
    ([0x03, 0x04, 0x07, 0x08, 0x0F, 0x4A, 0xE6, 0x4F, 0xC5].map fun b => (Instr.fdcNone b).wellFormed) =
      List.replicate 9 false := by decide

/-- The largest `u64` is accepted. -/
theorem test_wf_u64_limit : (Instr.tapeEar (2 ^ 64 - 1)).wellFormed = true := by decide

/-! ### Decoding: a word of every instruction, from R100, R105, R108 (arguments by log 2) -/

/-- The decoder reads exactly this instruction from these bytes. -/
def reads (f : Format) (bytes : List Byte) (i : Instr) : Bool :=
  match decode f bytes with
  | .ok (j, r) => decide (j = i ∧ r = [])
  | .error _ => false

theorem test_decode_vid_reset : reads .op [0x00] .vidReset = true := by decide
theorem test_decode_vid_render :
    reads .op [0x02, 0x16, 0x38, 0, 0, 0, 0, 0, 0, 0x1B, 0x38, 0, 0, 0, 0, 0, 0] (.vidRender 14358 14363) = true := by decide
theorem test_decode_vid_newframe : reads .op [0x03] .vidNewframe = true := by decide
theorem test_decode_vid_contend : reads .op [0x04, 0x17, 0x38, 0, 0, 0, 0, 0, 0] (.vidContend 14359) = true := by decide
theorem test_decode_tape_reset : reads .op [0x08] .tapeReset = true := by decide
theorem test_decode_tape_setmode :
    reads .op [0x09, 0x6C, 0x05, 0xC8, 0, 0, 0, 0, 0, 0, 0] (.tapeSetmode 0x056C 200) = true := by decide
theorem test_decode_tape_enterload : reads .op [0x0A, 0x4D, 0, 0, 0, 0, 0, 0, 0] (.tapeEnterload 77) = true := by decide
theorem test_decode_tape_leaveload : reads .op [0x0B] .tapeLeaveload = true := by decide
theorem test_decode_tape_entersave : reads .op [0x0C, 0xE8, 0x03, 0, 0, 0, 0, 0, 0] (.tapeEntersave 1000) = true := by decide
theorem test_decode_tape_leavesave : reads .op [0x0D] .tapeLeavesave = true := by decide
theorem test_decode_tape_initplay : reads .op [0x0E, 0xE8, 0x03, 0, 0, 0, 0, 0, 0] (.tapeInitplay 1000) = true := by decide
theorem test_decode_tape_ear : reads .op [0x0F, 0, 0, 0, 0, 0, 0, 0, 0x80] (.tapeEar (2 ^ 63)) = true := by decide
theorem test_decode_tape_mic : reads .op [0x10, 0x60, 0x0C, 0, 0, 0, 0, 0, 0, 0x01] (.tapeMic 3168 true) = true := by decide
theorem test_decode_tape_fastload : reads .op [0x11, 0, 0, 0, 0, 0, 0, 0, 0] (.tapeFastload 0) = true := by decide
theorem test_decode_fdc_reset : reads .op [0x18] .fdcReset = true := by decide
theorem test_decode_fdc_write : reads .op [0x19, 0x4F] (.fdcWrite 0x4F) = true := by decide
theorem test_decode_fdc_read : reads .op [0x1A] .fdcRead = true := by decide
theorem test_decode_fdc_status : reads .op [0x1B] .fdcStatus = true := by decide
theorem test_decode_dsk_create : reads .op [0x1C] .dskCreate = true := by decide
theorem test_decode_dsk_open : reads .op [0x1D, 2, 0, 0, 0, 0, 0, 0, 0, 0x56, 0x46] (.dskOpen [0x56, 0x46]) = true := by decide
theorem test_decode_dsk_read :
    reads .op ([0x1E] ++ [1, 0, 0, 0, 0, 0, 0, 0] ++ [39, 0, 0, 0, 0, 0, 0, 0] ++ [9, 0, 0, 0, 0, 0, 0, 0] ++
      [0, 2, 0, 0, 0, 0, 0, 0]) (.dskRead 1 39 9 512) = true := by decide
theorem test_decode_dsk_write :
    reads .op ([0x1F] ++ [0, 0, 0, 0, 0, 0, 0, 0] ++ [5, 0, 0, 0, 0, 0, 0, 0] ++ [1, 0, 0, 0, 0, 0, 0, 0] ++
      [2, 0, 0, 0, 0, 0, 0, 0] ++ [0xDE, 0xAD]) (.dskWrite 0 5 1 [0xDE, 0xAD]) = true := by decide

/-- The record in the order of R10, R12: every number below 256 but the two bases, each in eight bytes. -/
theorem test_decode_vid_build :
    reads .op (0x01 :: ([[1, 0], [0, 0], [1, 0], [2, 0], [1, 0], [0, 0], [2, 0], [8, 0], [2, 0], [0, 0], [1, 0], [2, 0], [1, 0],
        [0, 0x40], [0, 0x58], [1, 0], [8, 0], [6, 0], [5, 0], [4, 0], [3, 0], [2, 0], [1, 0], [0, 0], [0, 0]].flatMap
        fun w : List Byte => w ++ [0, 0, 0, 0, 0, 0])) (.vidBuild tinyGeometry) = true := by decide

theorem test_decode_specify : reads .fdc [0x03, 0xDF, 0x03] (.fdcSpecify 0xDF 0x03) = true := by decide
theorem test_decode_sense_drive : reads .fdc [0x04, 0x05] (.fdcSenseDriveStatus 0x05) = true := by decide
theorem test_decode_recalibrate : reads .fdc [0x07, 0x02] (.fdcRecalibrate 0x02) = true := by decide
theorem test_decode_sense_interrupt : reads .fdc [0x08] .fdcSenseInterruptStatus = true := by decide
theorem test_decode_seek : reads .fdc [0x0F, 0x00, 0x4F] (.fdcSeek 0x00 0x4F) = true := by decide
theorem test_decode_read_id :
    reads .fdc [0x0A, 0x01] (.fdcReadId 0 0x01) = true ∧ reads .fdc [0x4A, 0x01] (.fdcReadId 1 0x01) = true := by decide
theorem test_decode_read_data :
    reads .fdc [0xE6, 0x00, 0x02, 0x00, 0x03, 0x02, 0x09, 0x2A, 0xFF]
      (.fdcReadData 7 ⟨0x00, 0x02, 0x00, 0x03, 0x02, 0x09, 0x2A, 0xFF⟩) = true := by decide
theorem test_decode_format_track :
    reads .fdc [0x0D, 1, 2, 3, 4, 5] (.fdcFormatTrack 0 0 ⟨1, 2, 3, 4, 5⟩) = true ∧
    reads .fdc [0x4F, 1, 2, 3, 4, 5] (.fdcFormatTrack 1 1 ⟨1, 2, 3, 4, 5⟩) = true := by decide
theorem test_decode_write_data :
    reads .fdc [0xC5, 1, 2, 3, 4, 5, 6, 7, 8] (.fdcWriteData 3 ⟨1, 2, 3, 4, 5, 6, 7, 8⟩) = true ∧
    reads .fdc [0x85, 1, 2, 3, 4, 5, 6, 7, 8] (.fdcWriteData 2 ⟨1, 2, 3, 4, 5, 6, 7, 8⟩) = true := by decide
theorem test_decode_none : reads .fdc [0x8F] (.fdcNone 0x8F) = true := by decide

/-- Rejected by name: no byte, an unassigned selector, bytes that end too early, a `bool` of 2 (R426, R128). -/
theorem test_decode_rejects :
    (match decode .op [] with | .error e => decide (e = .noBytes) | .ok _ => false) = true ∧
    (match decode .op [0x07] with | .error e => decide (e = .unassignedSelector 0x07) | .ok _ => false) = true ∧
    (match decode .op [0x20] with | .error e => decide (e = .unassignedSelector 0x20) | .ok _ => false) = true ∧
    (match decode .op [0x0F, 0, 0, 0, 0, 0, 0, 0] with | .error e => decide (e = .truncated) | .ok _ => false) = true ∧
    (match decode .op [0x10, 0, 0, 0, 0, 0, 0, 0, 0, 2] with | .error e => decide (e = .notBool 2) | .ok _ => false) =
      true := by decide

/-- V-FC-1: the census of the 256 command bytes. -/
theorem test_fdc_decode_census :
    ([FloppyCommand.readData, .writeData, .formatTrack, .readId, .none].map fun c =>
      ((List.range 256).filter fun b => (fdcDecode (BitVec.ofNat 8 b)).1 = c).length) = [8, 4, 3, 2, 234] := by
  decide +kernel

/-- A table word of eight bits is a host operation where R100 assigns its selector, else an FDC byte (log 3). -/
theorem test_table_words :
    decodeTableWord 8 0x1C = some .dskCreate ∧ decodeTableWord 8 0x07 = some (.fdcRecalibrate 0) ∧
    decodeTableWord 8 0x45 = some (.fdcWriteData 1 ⟨0, 0, 0, 0, 0, 0, 0, 0⟩) ∧
    decodeTableWord 16 0x4F0F = some (.fdcSeek 0x4F 0) := by decide

/-- The next step runs the placed word. -/
theorem test_fetch_word : look (fun s => s.video.frameCount) (step (tiny.withFetchWord 8 0x03)) = some 1 := by
  decide +kernel

/-! ### Video (V-VID) -/

/-- Entries of the table of PRESET_48K (V-VID-1): a prefetch, a fetch inside a cell, the last cell's position 6. -/
theorem test_table_48k :
    describeTact Geometry.preset48K 14359 = ⟨.borderFetchAttr, 6, 0, 0x5800, 46, 48⟩ ∧
    describeTact Geometry.preset48K 57146 = ⟨.displayByte1FetchByte2, 3, 0x57E1, 0, 52, 239⟩ ∧
    describeTact Geometry.preset48K 14486 = ⟨.displayByte2, 0, 0, 0, 300, 48⟩ ∧
    describeTact Geometry.preset48K 3759 = ⟨.border, 0, 0, 0, 350, 0⟩ := by decide +kernel

/-- The phases of one display line of GEOM_TINY (V-VID-2). -/
theorem test_table_tiny_phases :
    ((buildTable tinyGeometry).map TactDescriptor.phase).drop 39 =
      [.borderFetchPixel, .borderFetchAttr, .displayByte1, .displayByte1, .displayByte1FetchByte2, .displayByte1FetchAttr2,
        .displayByte2, .displayByte2, .displayByte2, .displayByte2, .border, .border, .none] ++
        List.replicate 12 .border ++ [.none] := by decide +kernel

/-- Addresses and coordinates of GEOM_TINY's second display line (V-VID-2). -/
theorem test_table_tiny_entry :
    (buildTable tinyGeometry)[43]? = some ⟨.displayByte1FetchByte2, 3, 0x4101, 0, 8, 2⟩ ∧
    (buildTable tinyGeometry)[44]? = some ⟨.displayByte1FetchAttr2, 2, 0, 0x5801, 10, 2⟩ := by decide +kernel

/-- V-VID-5. -/
theorem test_addresses :
    ([(1, 0), (7, 31), (8, 0), (63, 31), (64, 0), (191, 31)].map fun p => Geometry.preset48K.pixAddr p.1 p.2) =
      [0x4100, 0x471F, 0x4020, 0x47FF, 0x4800, 0x57FF] ∧
    ([(7, 31), (8, 0), (191, 31)].map fun p => Geometry.preset48K.attrAddr p.1 p.2) = [0x581F, 0x5820, 0x5AFF] := by decide

/-- V-VID-4: each is invalid, and VID.BUILD of one raises. -/
theorem test_build_errors :
    ([{ Geometry.preset48K with displayT := 130 }, { Geometry.preset48K with borderLeftT := 1 },
      { Geometry.preset48K with displayLines := 193 },
      { Geometry.preset48K with contentionPattern := [8, 0, 0, 0, 0, 0, 0, 0] },
      { Geometry.preset48K with pixelPrefetchT := 3 }, { Geometry.preset48K with attrBase := 0xFE00 }].map
      Geometry.valid) = List.replicate 6 false ∧
    resultOf (exec (.vidBuild { tinyGeometry with displayT := 12 }) tiny) = some (.error .geometryInvalid) := by
  decide +kernel

/-- VID.BUILD keeps the frame counter and the flash phase (V-VID-14). -/
theorem test_build_keeps_frames :
    look (fun s => (s.video.frameCount, s.video.flashPhase, s.video.pixelByte1, s.video.pb.length))
      (exec (.vidBuild tinyGeometry)
        { tiny with video := { tiny.video with frameCount := 30, flashPhase := true, pixelByte1 := 0xA5 } }) =
      some (30, true, 0, 96) := by decide +kernel

/-- VID.RESET clears them (V-VID-14). -/
theorem test_vid_reset :
    look (fun s => (s.video.frameCount, s.video.flashPhase, s.video.pb.getD 0 1))
      (exec .vidReset { tiny with video := { tiny.video with frameCount := 30, flashPhase := true, pb := [7] } }) =
      some (0, false, 0) := by decide +kernel

/-- The host's data of V-VID-15. -/
def pictured : State := { tiny with host := { tiny.host with
  mem := [(0x4000, 0xA5), (0x4001, 0x0F), (0x4100, 0xFF), (0x5800, 0x47), (0x5801, 0x38)], border := 1 } }

/-- V-VID-15: a whole frame. -/
theorem test_render_frame :
    look (fun s => s.video.pb) (exec (.vidRender 0 64) pictured) = some (
      List.replicate 24 1 ++
      [1, 1, 1, 1, 15, 8, 15, 8, 8, 15, 8, 15, 7, 7, 7, 7, 0, 0, 0, 0, 1, 1, 1, 1] ++
      [1, 1, 1, 1, 15, 15, 15, 15, 15, 15, 15, 15, 7, 7, 7, 7, 7, 7, 7, 7, 1, 1, 1, 1] ++
      List.replicate 24 1) := by decide +kernel

/-- V-VID-15: the fetches in order (the border callbacks left out) and the latches at the end. -/
theorem test_render_fetches :
    look (fun s => (s.calls.filter (· ≠ .borderColour), s.video.pixelByte1, s.video.attrByte1, s.video.pixelByte2,
      s.video.attrByte2)) (exec (.vidRender 0 64) pictured) =
      some ([0x4000, 0x5800, 0x4001, 0x5801, 0x4100, 0x5800, 0x4101, 0x5801].map .memRead, 0xFF, 0x47, 0x00, 0x38) := by
  decide +kernel

/-- V-VID-8: table entries. -/
theorem test_colour_tables :
    ([0x047, 0x147, 0x0C7, 0x1C7, 0x038, 0x138, 0x000, 0x1FF].map flashOffColours) = [8, 15, 8, 15, 7, 0, 0, 15] ∧
    ([0x047, 0x147, 0x0C7, 0x1C7, 0x1FF].map flashOnColours) = [8, 15, 15, 8, 15] := by decide

/-- V-VID-13: the flash phase inverts at frame 25 and not at 24. -/
theorem test_newframe :
    look (fun s => (s.video.frameCount, s.video.flashPhase))
      (exec .vidNewframe { tiny with video := { tiny.video with frameCount := 24 } }) = some (25, true) ∧
    look (fun s => (s.video.frameCount, s.video.flashPhase))
      (exec .vidNewframe { tiny with video := { tiny.video with frameCount := 23 } }) = some (24, false) := by decide +kernel

/-- The delays of V-VID-2 through VID.CONTEND, one frame later too (R150). -/
theorem test_contend :
    resultOf (exec (.vidContend 27) tiny) = some (.delay 6) ∧
    resultOf (exec (.vidContend (32 + 65)) tiny) = some (.delay 1) := by decide +kernel

/-! ### Tape LOAD (V-TL) -/

/-- V-TL-2. -/
theorem test_initplay :
    look (fun s => (s.tape.play.pilotEndTact, s.tape.play.sync1EndTact, s.tape.play.sync2EndTact, s.tape.lastTact,
      s.tape.initialised)) (exec (.tapeInitplay 1000) (withTape [⟨[0x00, 0x01, 0x02], 0⟩])) =
      some (17481584, 17482251, 17482986, 1000, true) := by decide +kernel

/-- V-TL-5: no block, and a block without data. -/
theorem test_initplay_errors :
    resultOf (exec (.tapeInitplay 5) tiny) = some (.error .tapeNoBlock) ∧
    resultOf (exec (.tapeInitplay 5) (withTape [⟨[0xFF], 0⟩, ⟨[], 0⟩])) = some (.error .tapeEmptyBlock) := by
  decide +kernel

/-- The samples of R220, each a first call after TAPE.ENTERLOAD 0. -/
theorem test_ear_samples :
    ([0, 2167, 2168, 4336, 6987463, 6987464, 6988130, 6988131, 6988866, 6990575, 6990576, 6992286, 7016226, 7017081,
      7028196, 7031615, 7031616, 7032562, 7032563].map fun t => resultOf (exec (.tapeEar t) loading)) =
      [true, true, false, true, true, false, false, true, false, false, true, false, false, true, false, true, false, false,
        true].map fun b => some (.bit b) := by decide +kernel

/-- V-TL-1: the single call at the end of the tape catches up through every phase. -/
theorem test_ear_end :
    look (fun s => (s.tape.play.phase, s.tape.play.termSyncEndTact, s.tape.play.pauseEndTact, s.tape.blockIndex,
      s.tape.playerCompleted, s.result)) (exec (.tapeEar 7036063) loading) =
      some (.completed, 7032563, 7036063, 1, true, .bit true) := by decide +kernel

/-! ### Tape SAVE (V-TS) -/

/-- V-TS-1. -/
theorem test_classify :
    ([642, 643, 691, 692, 710, 711, 759, 760, 830, 831, 879, 880, 922, 923, 971, 972, 1685, 1686, 1734, 1735, 2143, 2144,
      2192, 2193].map classify) =
      [.tooShort, .sync1, .sync1, .unclassified, .unclassified, .sync2, .sync2, .unclassified, .unclassified, .bit0, .bit0,
        .unclassified, .unclassified, .termSync, .termSync, .unclassified, .unclassified, .bit1, .bit1, .unclassified,
        .unclassified, .pilot, .pilot, .tooLong] := by decide

/-- V-TS-3: the same level is ignored, a pilot pulse starts a block, an earlier tact raises. -/
theorem test_mic_guards :
    look (fun s => s.tape.save.lastActivityTact) (exec (.tapeMic 2000 true) saving) = some 1000 ∧
    look (fun s => (s.tape.save.phase, s.tape.save.pilotPulseCount, s.tape.save.micBitState))
      (exec (.tapeMic 3168 false) saving) = some (.pilot, 1, false) ∧
    resultOf (exec (.tapeMic 999 false) saving) = some (.error .tapeOrderViolation) := by decide +kernel

/-- V-TS-5: the terminating pulse in mid-byte saves the whole bytes and loses the three bits. -/
theorem test_mic_term_sync :
    look (fun s => (s.events, s.tape.save.phase, s.tape.save.dataBlockCount, s.tape.save.bitOffset))
      (exec (.tapeMic (6525922 + 6 * 855 + 947) false) { saving with tape := { saving.tape with save := {
        saving.tape.save with
        phase := .data, dataBuffer := [0x3C], bitOffset := 3, lastActivityTact := 6525922 + 6 * 855 } } }) =
      some ([.enteredSave, .blockSaved ⟨[0x3C], 1000⟩], .none, 1, 0) := by decide +kernel

/-! ### Tape mode and fast-load (V-TM) -/

/-- R292: the load hook from Passive, the error vector, the two sides of the inactivity limit. -/
theorem test_setmode :
    look (fun s => (s.tape.mode, s.events, s.tape.play.startTact))
      (exec (.tapeSetmode 0x056C 200) (withTape [shortBlock])) = some (.load, [.enteredLoad], 200) ∧
    look (fun s => (s.tape.mode, s.events)) (exec (.tapeSetmode 0x0008 500) loading) =
      some (.passive, [.enteredLoad, .leftLoad]) ∧
    look (fun s => s.tape.mode) (exec (.tapeSetmode 0x1234 17500999) saving) = some .save ∧
    look (fun s => s.tape.mode) (exec (.tapeSetmode 0x1234 17501000) saving) = some .passive := by decide +kernel

/-- V-TL-5: an empty tape is entered as completed, a block without data is an error. -/
theorem test_enterload :
    look (fun s => (s.tape.mode, s.tape.playerCompleted, s.tape.initialised)) (exec (.tapeEnterload 0) tiny) =
      some (.load, true, false) ∧
    look (fun s => (s.tape.mode, s.result)) (exec (.tapeEnterload 0) (withTape [⟨[0xFF], 0⟩, ⟨[], 0⟩])) =
      some (.passive, .error .tapeEmptyBlock) := by decide +kernel

/-- V-TM-2: transitions outside their mode are ignored. -/
theorem test_ignored_transitions :
    look (fun s => (s.tape.mode, s.events)) (exec .tapeLeaveload tiny) = some (.passive, []) ∧
    look (fun s => (s.tape.mode, s.tape.save.lastActivityTact)) (exec (.tapeEntersave 30) saving) = some (.save, 1000) ∧
    look (fun s => (s.tape.mode, s.events)) (exec .tapeLeavesave saving) = some (.passive, [.enteredSave, .leftSave]) ∧
    look (fun s => (s.tape.mode, s.events)) (exec .tapeLeaveload loading) = some (.passive, [.enteredLoad, .leftLoad]) := by
  decide +kernel

/-- V-TM-3. -/
theorem test_tape_reset :
    look (fun s => (s.tape.mode, s.tape.save.dataBlockCount, s.tape.save.micBitState, s.tape.blockIndex, s.events))
      (exec .tapeReset { saving with
        tape := { saving.tape with
          save := { saving.tape.save with dataBlockCount := 2, micBitState := false }, blockIndex := 1 } }) =
      some (.passive, 0, true, 0, [.enteredSave]) := by decide +kernel

/-- What a fast-load leaves: IX, DE, pc, carry, zero, and the byte at 0x8000. -/
def fastLoadView (s : State) : List Addr × List Bool × Byte :=
  ([s.host.cpu.ix, s.host.cpu.de, s.host.cpu.pc], [s.host.cpu.carry, s.host.cpu.zero], s.host.mem.read 0x8000)

/-- R290: success, the checksum off by one, the wrong type. -/
theorem test_fastload :
    look fastLoadView (exec (.tapeFastload 1000) (fastLoading 0x00 17 headerBlock)) =
      some ([0x8011, 0, 0x05E2], [true, false], 0x03) ∧
    look fastLoadView (exec (.tapeFastload 1000) (fastLoading 0x00 17 (headerBlock.take 18 ++ [0x72]))) =
      some ([0x8011, 0, 0x05E2], [false, true], 0x03) ∧
    look fastLoadView (exec (.tapeFastload 1000) (fastLoading 0xFF 17 headerBlock)) =
      some ([0x8000, 17, 0x05B6], [false, false], 0x00) := by decide +kernel

/-- V-TM-4: a block too short, and one longer than asked. -/
theorem test_fastload_lengths :
    look fastLoadView (exec (.tapeFastload 0) (fastLoading 0x00 18 headerBlock)) =
      some ([0x8012, 0, 0x05E2], [false, false], 0x03) ∧
    look (fun s => s.host.mem.read 0x8011) (exec (.tapeFastload 0) (fastLoading 0x00 18 headerBlock)) = some 0x73 ∧
    look fastLoadView (exec (.tapeFastload 0) (fastLoading 0x00 10 headerBlock)) =
      some ([0x800A, 0, 0x05E2], [false, false], 0x03) := by decide +kernel

/-! ### Floppy (V-FP, V-FC) -/

/-- What a command leaves to be read: the main status register and the result bytes. -/
def floppyView (s : State) : Byte × List Byte := (s.fdc.mainStatusRegister, s.fdc.pendingResultBytes)

/-- `tiny` or `blank` with drive 0 on track 2. -/
def onTrack2 (s : State) : State := after (.fdcSeek 0x00 0x02) s

/-- R328: the status of each phase on the way. -/
theorem test_fdc_write :
    look floppyView (exec (.fdcWrite 0x0F) tiny) = some (0x90, []) ∧
    look floppyView (exec (.fdcWrite 0x08) tiny) = some (0xD0, [0x00, 0x00]) ∧
    look floppyView (exec (.fdcWrite 0x03) (after (.fdcWrite 0x08) tiny)) = some (0xD0, [0x00, 0x00]) := by decide +kernel

/-- R328, V-FP-2: reads with DIO 0 give 0xFF; the last result byte ends the command. -/
theorem test_fdc_read :
    resultOf (exec .fdcRead tiny) = some (.byte 0xFF) ∧
    look (fun s => (s.result, s.fdc.paramsReceived, s.fdc.mainStatusRegister))
      (exec .fdcRead (after (.fdcWrite 0x00) (after (.fdcWrite 0x06) tiny))) = some (.byte 0xFF, 1, 0x90) ∧
    look floppyView (exec .fdcRead (after (.fdcSenseDriveStatus 0x05) tiny)) = some (0x80, [0x3D]) := by decide +kernel

/-- R328. -/
theorem test_fdc_status :
    resultOf (exec .fdcStatus tiny) = some (.byte 0x80) ∧
    resultOf (exec .fdcStatus (after .fdcSenseInterruptStatus tiny)) = some (.byte 0xD0) := by decide +kernel

/-- V-FP-2. -/
theorem test_fdc_reset :
    look (fun s => (s.fdc.mainStatusRegister, s.fdc.acceptingCommand, s.fdc.paramsReceived, s.fdc.sectorPerDrive))
      (exec .fdcReset (after (.fdcWrite 0x00) (after (.fdcWrite 0x06) tiny))) = some (0x80, true, 0, #v[1, 1, 1, 1]) := by
  decide +kernel

/-- V-FC-2. -/
theorem test_specify :
    look (fun s => (s.fdc.stepRateTime, s.fdc.headUnloadTime, s.fdc.headLoadTime, s.fdc.nonDmaMode, s.fdc.mainStatusRegister))
      (exec (.fdcSpecify 0xDF 0x03) tiny) = some (13, 15, 1, true, 0x80) := by decide +kernel

/-- V-FC-3. -/
theorem test_sense_drive_status :
    look floppyView (exec (.fdcSenseDriveStatus 0x05) tiny) = some (0xD0, [0x3D]) ∧
    look floppyView (exec (.fdcSenseDriveStatus 0x00) (onTrack2 tiny)) = some (0xD0, [0x28]) := by decide +kernel

/-- V-FC-4. -/
theorem test_recalibrate :
    look (fun s => (s.fdc.trackPerDrive, s.fdc.selectedDrive, s.fdc.mainStatusRegister))
      (exec (.fdcRecalibrate 0x02) (after (.fdcSeek 0x02 0x14) tiny)) = some (#v[0, 0, 0, 0], 2, 0x80) := by decide +kernel

/-- S6. -/
theorem test_sense_interrupt_status :
    look floppyView (exec .fdcSenseInterruptStatus (after (.fdcSeek 0x06 0x0A) tiny)) = some (0xD0, [0x06, 0x0A]) := by
  decide +kernel

/-- S5: track 79, and 80 clamped to 79. -/
theorem test_seek :
    look (fun s => s.fdc.trackPerDrive) (exec (.fdcSeek 0x00 0x4F) tiny) = some #v[79, 0, 0, 0] ∧
    look (fun s => s.fdc.trackPerDrive) (exec (.fdcSeek 0x00 0x50) tiny) = some #v[79, 0, 0, 0] := by decide +kernel

/-- V-FC-7: no disk; and a track outside the disk. -/
theorem test_read_id :
    look floppyView (exec (.fdcReadId 1 0x01) tiny) = some (0xD0, [0x40, 0x00, 0x00, 0x00, 0x00, 0x01, 0x02]) ∧
    look floppyView (exec (.fdcReadId 1 0x01) (after (.fdcSeek 0x01 0x28) blank)) =
      some (0xD0, [0x40, 0x00, 0x00, 0x28, 0x00, 0x01, 0x02]) := by decide +kernel

/-- V-FC-8: zero length, a head mismatch. -/
theorem test_read_data_failures :
    look floppyView (exec (.fdcReadData 0 ⟨0x00, 0x02, 0x00, 0x02, 0x00, 0x09, 0x2A, 0x00⟩) (onTrack2 blank)) =
      some (0xD0, [0x40, 0x00, 0x00, 0x02, 0x00, 0x02, 0x00]) ∧
    look floppyView (exec (.fdcReadData 0 ⟨0x00, 0x02, 0x01, 0x02, 0x02, 0x09, 0x2A, 0xFF⟩) (onTrack2 blank)) =
      some (0xD0, [0x40, 0x00, 0x00, 0x02, 0x01, 0x02, 0x02]) := by decide +kernel

/-- V-FC-8: head 1 selected, 512 zero bytes and then the result. -/
theorem test_read_data :
    look (fun s => (floppyView s, s.fdc.pendingDataBytes))
      (exec (.fdcReadData 0 ⟨0x04, 0x02, 0x01, 0x02, 0x02, 0x09, 0x2A, 0xFF⟩) (onTrack2 blank)) =
      some ((0xF0, [0x04, 0x00, 0x00, 0x02, 0x01, 0x02, 0x02]), List.replicate 512 0) := by decide +kernel

/-- V-FC-10: N = 3 writes nothing. -/
theorem test_format_track_refused :
    look (fun s => (floppyView s, s.disk)) (exec (.fdcFormatTrack 0 0 ⟨0x00, 0x03, 0x09, 0x2A, 0xE5⟩) (onTrack2 blank)) =
      some ((0xD0, [0x40, 0x00, 0x00, 0x02, 0x00, 0x09, 0x03]), blank.disk) := by decide +kernel

/-- V-FC-10: N = 0, SC = 2 on drive 1, track 3: bytes 0 to 127 of sectors 1 and 2, no other. -/
theorem test_format_track :
    look (fun s => (floppyView s, s.disk.map fun d => [0, 127, 128, 511, 512, 639, 640, 1024].map fun o =>
        d.region.read (8 + 3 * 4608 + o)))
      (exec (.fdcFormatTrack 0 0 ⟨0x01, 0x00, 0x02, 0x2A, 0x11⟩) (after (.fdcSeek 0x01 0x03) blank)) =
      some ((0xD0, [0x01, 0x00, 0x00, 0x03, 0x00, 0x02, 0x00]), some [0x11, 0x11, 0, 0, 0x11, 0x11, 0, 0]) := by
  decide +kernel

/-- V-FC-11: zero length is refused at once; P3 step 9: four data bytes are awaited. -/
theorem test_write_data :
    look floppyView (exec (.fdcWriteData 0 ⟨0x00, 0x02, 0x00, 0x02, 0x00, 0x09, 0x2A, 0x00⟩) (onTrack2 blank)) =
      some (0xD0, [0x40, 0x00, 0x00, 0x02, 0x00, 0x02, 0x00]) ∧
    look (fun s => (s.fdc.mainStatusRegister, s.fdc.dataLen))
      (exec (.fdcWriteData 0 ⟨0x00, 0x02, 0x00, 0x02, 0x00, 0x09, 0x2A, 0x04⟩) (onTrack2 blank)) = some (0xB0, 4) := by
  decide +kernel

/-- A data length of one byte awaited at head 0, track 2, sector 2. -/
def awaiting : State := after (.fdcWriteData 0 ⟨0x00, 0x02, 0x00, 0x02, 0x00, 0x09, 0x2A, 0x01⟩) (onTrack2 blank)

/-- R367: the byte that completes the data is written to the disk, at the offset of V-DSK-2. -/
theorem test_write_data_last_byte :
    look (fun s => (floppyView s, s.disk.map fun d => (d.region.read 9735, d.region.read 9736, d.region.read 9737)))
      (exec (.fdcWrite 0xDE) awaiting) =
      some ((0xD0, [0x00, 0x00, 0x00, 0x02, 0x00, 0x02, 0x00]), some (0, 0xDE, 0)) := by decide +kernel

/-- V-FC-12. -/
theorem test_none :
    look (fun s => (s.fdc.mainStatusRegister, s.fdc.activeCommand, s.fdc.st0)) (exec (.fdcNone 0xFF) tiny) =
      some (0x80, .none, 0) := by decide +kernel

/-! ### Disk store (V-DSK) -/

/-- V-DSK-2. -/
theorem test_offsets :
    ([(0, 0, 1), (0, 0, 9), (0, 2, 2), (0, 39, 9), (1, 0, 1), (1, 5, 3), (1, 39, 9)].map fun q =>
      Disk.created.offset q.1 q.2.1 q.2.2) = [8, 4104, 9736, 183816, 184328, 208392, 368136] := by decide

/-- V-DSK-5: the header of a created image. -/
theorem test_dsk_create :
    look (fun s => s.disk.map fun d => (d.region.readBytes 0 9, d.regionSize)) (exec .dskCreate tiny) =
      some (some ([0x56, 0x46, 0x44, 0x44, 0x46, 0x01, 0x28, 0x09, 0x00], 368648)) := by decide +kernel

/-- V-DSK-5: the length test comes first, then the header. -/
theorem test_dsk_open_errors :
    resultOf (exec (.dskOpen [0x00, 0x46, 0x44, 0x44, 0x46, 0x01, 0x28]) tiny) = some (.error .imageTruncated) ∧
    resultOf (exec (.dskOpen [0x56, 0x46, 0x44, 0x44, 0x46, 0x00, 0x28, 0x09]) tiny) = some (.error .imageIncompatible) ∧
    resultOf (exec (.dskOpen [0x56, 0x46, 0x44, 0x44, 0x46, 0x01, 0x28, 0x09]) tiny) = some (.error .imageTruncated) := by
  decide +kernel

/-- V-DSK-4: a short write keeps the bytes behind it. -/
theorem test_dsk_write_read :
    resultOf (exec (.dskRead 0 0 1 4) (after (.dskWrite 0 0 1 [0x01, 0x02]) (after (.dskWrite 0 0 1 [0xAA, 0xAA, 0xAA, 0xAA])
      blank))) = some (.bytes [0x01, 0x02, 0xAA, 0xAA]) ∧
    resultOf (exec (.dskRead 0 0 2 1) (after (.dskWrite 0 0 1 [0x01, 0x02]) blank)) = some (.bytes [0]) := by decide +kernel

/-- S4: the four requests outside the geometry, and no disk. -/
theorem test_dsk_errors :
    resultOf (exec (.dskRead 0 40 1 1) blank) = some (.error (.diskDomainError .track)) ∧
    resultOf (exec (.dskWrite 0 0 10 [0]) blank) = some (.error (.diskDomainError .sector)) ∧
    resultOf (exec (.dskRead 2 0 1 1) blank) = some (.error (.diskDomainError .head)) ∧
    resultOf (exec (.dskWrite 0 0 1 []) blank) = some (.error (.diskDomainError .length)) ∧
    resultOf (exec (.dskRead 0 0 1 1) tiny) = some (.error .diskNotAttached) := by decide +kernel

/-! ### States and operands that meet the statements' hypotheses

One theorem for each statement that has hypotheses; where it has several clauses, a case of each, at the ends of its
range. -/

theorem tinyVideo : VideoInv tiny.video :=
  ⟨by decide +kernel, rfl, by decide +kernel, by decide +kernel⟩

theorem tinyParamsInv : ParamsInv tinyParams := ⟨by decide, by decide, by decide⟩

theorem createdDisk : DiskInv Disk.created :=
  ⟨by decide, by decide +kernel, by decide +kernel, by decide +kernel⟩

/-- The floppy unit of the state is in the phase and in good order. -/
def InOrder (s : State) (ph : FdcPhase) : Prop := s.fdc.inPhase ph ∧ FdcInv s.fdc

theorem witness_FloppyInvariantKept :
    InOrder tiny .acceptingCommand ∧ InOrder (after (.fdcWrite 0x0F) tiny) .receivingParameters ∧
    InOrder awaiting .receivingData ∧
    InOrder (after (.fdcReadData 0 ⟨0, 0, 0, 1, 0, 0, 0, 1⟩) blank) .sendingData ∧
    InOrder (after .fdcSenseInterruptStatus tiny) .sendingResult ∧
    (nextOf (exec (.fdcWrite 0x0F) tiny)).isSome = true := by
  refine ⟨⟨?_, ⟨.acceptingCommand, ?_⟩, ?_, ?_, ?_, ?_, ?_, ?_, ?_, ?_, ?_⟩,
    ⟨?_, ⟨.receivingParameters, ?_⟩, ?_, ?_, ?_, ?_, ?_, ?_, ?_, ?_, ?_⟩,
    ⟨?_, ⟨.receivingData, ?_⟩, ?_, ?_, ?_, ?_, ?_, ?_, ?_, ?_, ?_⟩,
    ⟨?_, ⟨.sendingData, ?_⟩, ?_, ?_, ?_, ?_, ?_, ?_, ?_, ?_, ?_⟩,
    ⟨?_, ⟨.sendingResult, ?_⟩, ?_, ?_, ?_, ?_, ?_, ?_, ?_, ?_, ?_⟩, ?_⟩ <;>
  (try simp only [FdcState.inPhase]) <;> decide +kernel

theorem tinyFdc : FdcInv tiny.fdc := witness_FloppyInvariantKept.1.2

theorem tinyInvariant : MachineInv tiny where
  params := tinyParamsInv
  video := tinyVideo
  tape := ⟨by decide, by decide, by decide, by decide, by decide, by decide, by decide⟩
  fdc := tinyFdc
  disk := fun d h => nomatch h
  hostMemory := by decide

theorem tinyInv (is : List HostInput) : MachineInv { tiny with inputs := is } :=
  ⟨tinyInvariant.params, tinyInvariant.video, tinyInvariant.tape, tinyInvariant.fdc, tinyInvariant.disk,
    tinyInvariant.hostMemory⟩

theorem witness_StepRunsDecodedInstruction :
    let s := { tiny with inputs := [.invoke .op [0x03, 0x1A]] }
    s.inputs = .invoke .op [0x03, 0x1A] :: [] ∧ decode .op [0x03, 0x1A] = .ok (.vidNewframe, [0x1A]) := ⟨rfl, rfl⟩

theorem witness_StepRunsEncodedInstruction :
    let i := Instr.fdcFormatTrack 1 1 ⟨0, 2, 9, 0x2A, 0xE5⟩
    i.wellFormed = true ∧ i.format = .fdc ∧ encode i = [0x4F, 0, 2, 9, 0x2A, 0xE5] := by decide

theorem witness_StepWithoutInstruction :
    tiny.inputs = [] ∧ decode .op [0x0F, 0] = .error .truncated ∧
    ∀ b ∈ [0x05#8, 0x07#8, 0x12#8, 0x17#8, 0x20#8, 0xFF#8],
      0x20 ≤ b.toNat ∨ b ∈ [0x05#8, 0x06#8, 0x07#8, 0x12#8, 0x13#8, 0x14#8, 0x15#8, 0x16#8, 0x17#8] :=
  ⟨rfl, rfl, by decide⟩

theorem witness_DecodeEncodeRoundTrip :
    (Instr.vidBuild tinyGeometry).wellFormed = true ∧ (Instr.dskWrite 0 (2 ^ 64 - 1) 1 [0]).wellFormed = true ∧
    (Instr.fdcFormatTrack 1 0 ⟨1, 2, 3, 4, 5⟩).wellFormed = true ∧ (Instr.fdcNone 0xFF).wellFormed = true := by decide

theorem witness_EncodeDecodeRoundTrip :
    decode .fdc [0x4F, 1, 2, 3, 4, 5, 6] = .ok (.fdcFormatTrack 1 1 ⟨1, 2, 3, 4, 5⟩, [6]) ∧
    decode .op [0x10, 1, 0, 0, 0, 0, 0, 0, 0, 1, 9] = .ok (.tapeMic 1 true, [9]) := ⟨rfl, rfl⟩

theorem witness_ResetOperationsComplete : tiny.params.geometry.valid = true ∧ Params.default.geometry.valid = true := by
  decide

theorem witness_PowerOnIsThreeResets :
    (after (.tapeEntersave 7) tiny).tape.image = [] ∧ (after (.tapeEntersave 7) tiny).tape ≠ tiny.tape := by
  decide +kernel

theorem witness_PowerOnMeetsInvariant : ParamsInv tinyParams ∧ ParamsInv Params.default :=
  ⟨tinyParamsInv, by decide, by decide, by decide⟩

theorem witness_StepKeepsInvariant :
    let s := { tiny with inputs := [.invoke .op [0x1C]] }
    MachineInv s ∧ (nextOf (step s)).isSome = true ∧ look (fun t => t.disk.isSome) (step s) = some true :=
  ⟨tinyInv _, by decide +kernel⟩

/-- `loading` before any block was started (V-TL-6). -/
def unstarted : State := { loading with tape := { loading.tape with initialised := false } }

theorem witness_ErrorsByOperation :
    ∀ q ∈ [(Instr.vidBuild { tinyGeometry with borderLeftT := 1 }, tiny, OpError.geometryInvalid),
        (.tapeInitplay 5, tiny, .tapeNoBlock), (.tapeInitplay 5, withTape [⟨[], 0⟩], .tapeEmptyBlock),
        (.tapeEnterload 5, withTape [⟨[], 0⟩], .tapeEmptyBlock),
        (.tapeSetmode 0x056C 5, withTape [⟨[], 0⟩], .tapeEmptyBlock), (.tapeEar 0, unstarted, .tapeNotInitialised),
        (.tapeEar 4999, after (.tapeEar 5000) loading, .tapeOrderViolation),
        (.tapeMic 999 false, saving, .tapeOrderViolation), (.dskRead 0 0 1 1, tiny, .diskNotAttached),
        (.dskRead 0 0 1 513, blank, .diskDomainError .length), (.dskWrite 2 0 1 [0], blank, .diskDomainError .head),
        (.dskOpen [0x56], tiny, .imageTruncated), (.dskOpen (List.replicate 8 0), tiny, .imageIncompatible)],
      resultOf (exec q.1 q.2.1) = some (.error q.2.2) := by decide +kernel

theorem witness_ErrorsChangeNothing :
    resultOf (exec (.dskRead 0 40 1 1) { blank with calls := [.borderColour] }) =
      some (.error (.diskDomainError .track)) := by decide +kernel

/-- Fast-load enabled, in good order. -/
theorem fastLoadingInv : MachineInv (fastLoading 0x00 17 headerBlock) where
  params := ⟨by decide, by decide, by decide⟩
  video := tinyVideo
  tape := ⟨by decide, by decide, by decide, by decide, by decide, by decide, by decide⟩
  fdc := tinyFdc
  disk := fun d h => nomatch h
  hostMemory := by decide

theorem witness_NoStopInGoodOrder :
    MachineInv (fastLoading 0x00 17 headerBlock) ∧ TapeReady (fastLoading 0x00 17 headerBlock) ∧
    (fastLoading 0x00 17 headerBlock).params.fastLoadEnabled = true ∧ ownerOf (.tapeFastload 0) = .tape :=
  ⟨fastLoadingInv, rfl, rfl, rfl⟩

/-- The tape unit after the host changed its image in LOAD mode. -/
def stale : State := applyHostAction (.setTape []) loading

theorem witness_StopsByName :
    tiny.params.fastLoadEnabled = false ∧ ¬ TapeReady stale ∧ ownerOf (.tapeEar 5) = .tape ∧
    (∀ tact, Instr.tapeEar 5 = .tapeFastload tact → stale.params.fastLoadEnabled = true) ∧
    ¬ TapeReady { fastLoading 0 0 headerBlock with tape := stale.tape } ∧
    (fastLoading 0 0 headerBlock).params.fastLoadEnabled = true := by
  refine ⟨rfl, ?_, rfl, (fun _ h => nomatch h), ?_, rfl⟩ <;> simp only [TapeReady] <;> decide +kernel

theorem witness_UnitsAreIsolated :
    tiny.params.fastLoadEnabled = false ∧
    ([Instr.vidNewframe, .tapeEntersave 0, .fdcWrite 0x08, .dskCreate].map ownerOf) = [.video, .tape, .floppy, .disk] ∧
    ([Instr.vidNewframe, .tapeEntersave 0, .fdcWrite 0x08, .dskCreate].map fun i => (nextOf (exec i tiny)).isSome) =
      List.replicate 4 true := by decide +kernel

theorem witness_UnitsObserveOnlyThemselves :
    SameFor .video tiny { tiny with disk := blank.disk } ∧ SameFor .tape loading { loading with disk := blank.disk } ∧
    SameFor .floppy blank { blank with tape := loading.tape } ∧ SameFor .disk blank { blank with tape := loading.tape } ∧
    (nextOf (exec (.tapeEar 5) loading)).isSome = true := by
  refine ⟨⟨rfl, rfl, rfl⟩, ⟨rfl, rfl, rfl⟩, ⟨rfl, rfl, rfl⟩, ⟨rfl, rfl⟩, by decide +kernel⟩

theorem witness_TapeModeTransitions :
    look (fun t => t.tape.mode) (exec (.tapeEnterload 0) (withTape [shortBlock])) = some .load ∧
    look (fun t => t.tape.mode) (exec .tapeLeaveload loading) = some .passive ∧
    look (fun t => t.tape.mode) (exec (.tapeSetmode 0x04C2 0) tiny) = some .save ∧
    look (fun t => t.tape.mode) (exec .tapeLeavesave saving) = some .passive ∧
    look (fun t => t.tape.mode) (exec .vidNewframe saving) = some .save := by decide +kernel

theorem witness_VidBuildBuildsTable :
    ({ tinyGeometry with displayLines := 193 }).valid = false ∧ tinyGeometry.valid = true ∧
    4 < tinyGeometry.rasterLines ∧ 12 < tinyGeometry.lineT := by decide

theorem witness_TableCoversEveryTact : VideoInv tiny.video ∧ 64 < tiny.video.geometry.frameT := ⟨tinyVideo, by decide⟩

theorem witness_VisibleTactsHavePixels :
    VideoInv tiny.video ∧ tiny.video.geometry.screenWidth ≤ 65536 ∧ tiny.video.geometry.screenLines ≤ 65536 ∧
    4 < tiny.video.geometry.rasterLines ∧ 12 < tiny.video.geometry.lineT := ⟨tinyVideo, by decide⟩

theorem witness_PipelineLatency :
    VideoInv tiny.video ∧ 1 < tiny.video.geometry.displayLines ∧ 1 < tiny.video.geometry.displayT / 4 :=
  ⟨tinyVideo, by decide⟩

theorem witness_ContentionDelayReturned : VideoInv tiny.video := tinyVideo

theorem witness_Preset48KTable : 311 < 312 ∧ 223 < 224 := by decide

/-- A table with two cells on a line, so that every phase occurs. -/
def wide : State := State.powerOn { tinyParams with geometry := { tinyGeometry with displayT := 16 } }

theorem witness_RenderTactByPhase :
    ([0, 21, 42, 43, 44, 46, 47, 48, 50, 51].map fun tact =>
      (wide.video.tt[tact % wide.video.geometry.frameT]?).map TactDescriptor.phase) =
      [.none, .border, .borderFetchPixel, .borderFetchAttr, .displayByte1, .displayByte1FetchByte2, .displayByte1FetchAttr2,
        .displayByte2, .displayByte2FetchByte1, .displayByte2FetchAttr1].map some := by decide +kernel

theorem witness_RenderIdempotent :
    let t := after (.vidRender 30 30) pictured
    nextOf (exec (.vidRender 30 30) pictured) = some t ∧
    t.video = t.video ∧ t.host.mem = pictured.host.mem ∧ t.host.border = pictured.host.border ∧
    (nextOf (exec (.vidRender 30 30) t)).isSome = true := by decide +kernel

theorem witness_RenderedLineShowsScreenMemory :
    VideoInv pictured.video ∧ pictured.video.geometry.screenWidth ≤ 65536 ∧ pictured.video.geometry.screenLines ≤ 65536 ∧
    1 < pictured.video.geometry.displayLines ∧ 1 < pictured.video.geometry.displayT / 4 := ⟨tinyVideo, by decide⟩

theorem witness_FlashPhasePeriod :
    0 < tiny.params.flashToggleFrames ∧ tiny.video.frameCount = 0 ∧ tiny.video.flashPhase = false := by decide +kernel

theorem witness_InitplayStartsBlock :
    (TapeReady (withTape [shortBlock]) ∧ (withTape [shortBlock]).tape.image[0]? = some shortBlock ∧
      ¬ HasEmptyBlock [shortBlock]) ∧
    (TapeReady tiny ∧ tiny.tape.image.length ≤ tiny.tape.blockIndex) ∧
    (TapeReady (withTape [⟨[], 0⟩]) ∧ (withTape [⟨[], 0⟩]).tape.blockIndex < (withTape [⟨[], 0⟩]).tape.image.length ∧
      HasEmptyBlock [⟨[], 0⟩]) := by
  refine ⟨⟨rfl, rfl, ?_⟩, ⟨rfl, by decide⟩, rfl, by decide, _, List.mem_singleton.mpr rfl, rfl⟩
  simp [HasEmptyBlock, shortBlock]

theorem witness_TapeCallsWithoutEffect :
    (TapeReady tiny ∧ tiny.tape.mode ≠ .load ∧ tiny.tape.mode ≠ .save) ∧
    (TapeReady unstarted ∧ unstarted.tape.mode = .load ∧ unstarted.tape.playerCompleted = false ∧
      unstarted.tape.initialised = false) ∧
    (let s := after (.tapeEar 1) loading
     TapeReady s ∧ s.tape.mode = .load ∧ s.tape.playerCompleted = false ∧ s.tape.initialised = true ∧
      0 < s.tape.lastTact) ∧
    (let s := after (.tapeEar 7036063) loading
     TapeReady s ∧ s.tape.mode = .load ∧ s.tape.playerCompleted = true) ∧
    (TapeReady saving ∧ saving.tape.mode = .save ∧ true = saving.tape.save.micBitState ∧
      false ≠ saving.tape.save.micBitState ∧ 999 < saving.tape.save.lastActivityTact) := by
  simp only [TapeReady]
  decide +kernel

theorem witness_EarRepeatsAtSameTact : (nextOf (exec (.tapeEar 7016226) loading)).isSome = true := by decide +kernel

theorem witness_EarCompletes :
    TapeInv loading.params.saveBufferCapacity loading.tape ∧ TapeReady loading ∧ loading.tape.mode = .load ∧
    loading.tape.playerCompleted = false ∧ loading.tape.initialised = true ∧ loading.tape.lastTact ≤ 0 ∧
    look (fun t => t.tape.playerCompleted) (exec (.tapeEar 7036063) loading) = some true := by
  refine ⟨⟨?_, ?_, ?_, ?_, ?_, ?_, ?_⟩, ?_⟩ <;> (try simp only [TapeReady]) <;> decide +kernel

theorem witness_EarFollowsTimeline :
    TapeReady loading ∧ loading.tape.mode = .load ∧ loading.tape.blockIndex < loading.tape.image.length ∧
    ¬ HasEmptyBlock loading.tape.image ∧ List.Pairwise (· ≤ ·) (5 :: ([5, 2173] ++ [7036068])) := by
  refine ⟨by simp only [TapeReady]; decide +kernel, by decide +kernel, by decide +kernel, ?_, by decide⟩
  have h : loading.tape.image = [shortBlock] := by decide +kernel
  simp [h, HasEmptyBlock, shortBlock]

theorem witness_PilotAlternates :
    TapeReady loading ∧ loading.tape.mode = .load ∧ loading.tape.image[loading.tape.blockIndex]? = some shortBlock ∧
    ¬ HasEmptyBlock loading.tape.image ∧ 7 ≤ 7 + 6987463 ∧ 7 + 6987463 < 7 + pilotCount shortBlock.data * 2168 := by
  refine ⟨witness_EarFollowsTimeline.1, witness_EarFollowsTimeline.2.1, by decide +kernel,
    witness_EarFollowsTimeline.2.2.2.1, by decide, by decide⟩

/-- SAVE mode in a phase. -/
def savingIn (ph : SavePhase) : State :=
  { saving with tape := { saving.tape with save := { saving.tape.save with phase := ph } } }

theorem witness_MicStepTable :
    ∀ ph ∈ [SavePhase.none, .pilot, .sync1, .sync2, .data, .error],
      Transition (savingIn ph) 1000 false ∧ (transitioned (savingIn ph) 1000 false).phase = ph := by
  simp only [Transition, TapeReady]
  decide +kernel

theorem witness_SaveRoundTrip :
    TapeReady tiny ∧ tiny.tape.mode = .passive ∧ 3000 ≤ 3000 ∧
    ([0xA5] : List Byte) ≠ [] ∧ ([0xA5] : List Byte).length ≤ tiny.params.saveBufferCapacity ∧
    headerBlock.length = 19 ∧ headerBlock.length ≤ tiny.params.saveBufferCapacity := by
  refine ⟨rfl, rfl, by decide⟩

theorem witness_EnterloadStartsTape :
    (TapeReady saving ∧ saving.tape.mode ≠ .passive) ∧
    (TapeReady (withTape [⟨[], 0⟩]) ∧ (withTape [⟨[], 0⟩]).tape.mode = .passive ∧ HasEmptyBlock [⟨[], 0⟩]) ∧
    (TapeReady tiny ∧ tiny.tape.mode = .passive ∧ tiny.tape.image = []) ∧
    (TapeReady (withTape [shortBlock]) ∧ (withTape [shortBlock]).tape.mode = .passive ∧ ¬ HasEmptyBlock [shortBlock] ∧
      (withTape [shortBlock]).tape.image[0]? = some shortBlock) := by
  refine ⟨⟨?_, by decide +kernel⟩, ⟨rfl, rfl, _, List.mem_singleton.mpr rfl, rfl⟩, ⟨rfl, rfl, rfl⟩, rfl, rfl, ?_, rfl⟩
  · simp only [TapeReady]; decide +kernel
  · simp [HasEmptyBlock, shortBlock]

theorem witness_LeaveAndEntersave :
    (TapeReady loading ∧ loading.tape.mode = .load) ∧ (TapeReady tiny ∧ tiny.tape.mode = .passive) ∧
    (TapeReady saving ∧ saving.tape.mode = .save) := by
  simp only [TapeReady]
  decide +kernel

theorem witness_SetmodeActsByMode :
    (TapeReady tiny ∧ tiny.tape.mode = .passive ∧ tiny.params.loadHook = 0x056C ∧ tiny.params.saveHook = 0x04C2 ∧
      tiny.params.fastLoadEnabled = false) ∧
    (TapeReady (fastLoading 0 0 headerBlock) ∧ (fastLoading 0 0 headerBlock).tape.mode = .passive ∧
      (fastLoading 0 0 headerBlock).params.fastLoadEnabled = true) ∧
    (TapeReady loading ∧ loading.tape.mode = .load ∧ loading.tape.playerCompleted = false ∧
      loading.params.errorHook = 0x0008) ∧
    (after (.tapeEar 7036063) loading).tape.playerCompleted = true ∧
    (TapeReady saving ∧ saving.tape.mode = .save ∧ saving.tape.save.lastActivityTact + 17500000 ≤ 17501000 ∧
      17500999 < saving.tape.save.lastActivityTact + 17500000) := by
  simp only [TapeReady]
  decide +kernel

theorem witness_FastloadCopiesBlock :
    (let s := fastLoading 0x00 17 headerBlock
     s.params.fastLoadEnabled = true ∧ TapeReady s ∧ s.tape.image[s.tape.blockIndex]? = some ⟨headerBlock, 1000⟩ ∧
      headerBlock.head? = some (s.host.cpu.get8 s.params.fastLoadTypeReg)) ∧
    (let s := fastLoading 0xFF 17 headerBlock
     headerBlock.head? ≠ some (s.host.cpu.get8 s.params.fastLoadTypeReg)) ∧
    (let s := after (.tapeFastload 0) (fastLoading 0x00 17 headerBlock)
     s.params.fastLoadEnabled = true ∧ TapeReady s ∧ s.tape.image.length ≤ s.tape.blockIndex) := by
  simp only [TapeReady]
  decide +kernel

theorem witness_FdcWriteByPhase :
    (after .fdcSenseInterruptStatus tiny).fdc.dio = true ∧
    (awaiting.fdc.inPhase .receivingData ∧ awaiting.fdc.dataCursor + 1 = awaiting.fdc.dataLen) ∧
    (let s := after (.fdcWriteData 0 ⟨0, 2, 0, 2, 0, 9, 0x2A, 2⟩) (onTrack2 blank)
     s.fdc.inPhase .receivingData ∧ s.fdc.dataCursor + 1 ≠ s.fdc.dataLen) ∧
    (tiny.fdc.inPhase .acceptingCommand ∧ (fdcDecode 0xFF).1 = .none ∧ (fdcDecode 0x08).1 ≠ .none ∧
      (fdcDecode 0x08).2 = 0 ∧ (fdcDecode 0x05).2 ≠ 0) ∧
    (let s := after (.fdcWrite 0x0F) tiny
     s.fdc.inPhase .receivingParameters ∧ s.fdc.paramsReceived = 0 ∧ 0 + 1 ≠ s.fdc.activeCommand.paramCount) ∧
    (let s := after (.fdcWrite 0) (after (.fdcWrite 0x0F) tiny)
     s.fdc.inPhase .receivingParameters ∧ s.fdc.paramsReceived = 1 ∧ 1 + 1 = s.fdc.activeCommand.paramCount) := by
  simp only [FdcState.inPhase]
  decide +kernel

/-- Two data bytes of a sector wait to be read. -/
def sendingTwo : State := after (.fdcReadData 0 ⟨0, 2, 0, 9, 0, 9, 0x2A, 2⟩) (onTrack2 blank)

theorem witness_FdcReadByPhase :
    tiny.fdc.dio = false ∧
    (sendingTwo.fdc.inPhase .sendingData ∧ sendingTwo.fdc.pendingDataBytes[sendingTwo.fdc.dataCursor]? = some 0 ∧
      sendingTwo.fdc.dataCursor + 1 < sendingTwo.fdc.pendingDataBytes.length) ∧
    (let s := after .fdcRead sendingTwo
     s.fdc.inPhase .sendingData ∧ s.fdc.pendingDataBytes[s.fdc.dataCursor]? = some 0 ∧
      s.fdc.dataCursor + 1 = s.fdc.pendingDataBytes.length) ∧
    (let s := after .fdcSenseInterruptStatus tiny
     s.fdc.inPhase .sendingResult ∧ s.fdc.pendingResultBytes[s.fdc.resultCursor]? = some 0 ∧
      s.fdc.resultCursor + 1 < s.fdc.pendingResultBytes.length) ∧
    (let s := after .fdcRead (after .fdcSenseInterruptStatus tiny)
     s.fdc.inPhase .sendingResult ∧ s.fdc.pendingResultBytes[s.fdc.resultCursor]? = some 0 ∧
      s.fdc.resultCursor + 1 = s.fdc.pendingResultBytes.length) := by
  simp only [FdcState.inPhase]
  decide +kernel

theorem witness_ReadsDrainDataThenResult :
    let s := { tiny with fdc := sending FdcState.reset [1, 2] [3] }
    s.fdc = sending FdcState.reset [1, 2] [3] ∧ ([3] : List Byte) ≠ [] ∧
      (([1, 2] : List Byte) ++ [3])[0]? = some 1 ∧ (([1, 2] : List Byte) ++ [3])[2]? = some 3 :=
  ⟨rfl, by decide⟩

theorem witness_FdcCommandsAreWrittenBytes :
    (Instr.fdcSeek 0 0x4F).format = .fdc ∧ (Instr.fdcNone 0xFF).format = .fdc := by decide

theorem witness_CommandsWithoutResult : Idle tiny.fdc ∧ (Instr.fdcNone 0xFF).wellFormed = true := by
  simp only [Idle, FdcState.inPhase]
  decide +kernel

theorem witness_SenseCommands : Idle (onTrack2 tiny).fdc := by
  simp only [Idle, FdcState.inPhase]
  decide +kernel

/-- Head 1 of track 39 selected on drive 0, where the last sectors of a disk are. -/
def onLastTrack : State := after (.fdcSeek 0x04 39) blank

theorem witness_ReadIdNamesPosition :
    (Idle (onTrack2 tiny).fdc ∧ OffDisk (selected (received (onTrack2 tiny).fdc .readId [0]) 0) (onTrack2 tiny).disk) ∧
    (let s := after (.fdcSeek 0x00 40) blank
     Idle s.fdc ∧ OffDisk (selected (received s.fdc .readId [0]) 0) s.disk) ∧
    (Idle onLastTrack.fdc ∧ ¬ OffDisk (selected (received onLastTrack.fdc .readId [4]) 4) onLastTrack.disk ∧
      rwStatus onLastTrack.params 1 1 = (0, 0, 0)) := by
  have hd : (after (.fdcSeek 0x00 40) blank).disk = some Disk.created := by decide +kernel
  have hl : onLastTrack.disk = some Disk.created := by decide +kernel
  refine ⟨⟨?_, ?_⟩, ⟨?_, ?_⟩, ?_, ?_, ?_⟩
  · simp only [Idle, FdcState.inPhase]; decide +kernel
  · have h : (onTrack2 tiny).disk = none := by decide +kernel
    intro d e; rw [h] at e; cases e
  · simp only [Idle, FdcState.inPhase]; decide +kernel
  · intro d e; rw [hd] at e; cases e; left; decide +kernel
  · simp only [Idle, FdcState.inPhase]; decide +kernel
  · intro h
    have := h _ hl
    revert this
    decide +kernel
  · decide +kernel

theorem witness_ReadDataSendsSector :
    Idle onLastTrack.fdc ∧
    (let f := selected (received onLastTrack.fdc .readData []) 4
     (Mispositioned f ⟨4, 39, 1, 9, 0, 9, 0x2A, 0⟩ ∧ Mispositioned f ⟨4, 38, 1, 9, 2, 9, 0x2A, 0xFF⟩ ∧
      Mispositioned f ⟨4, 39, 0, 9, 2, 9, 0x2A, 0xFF⟩) ∧
     (diskError onLastTrack.disk 1 39 10 512 ≠ none ∧ ¬ Mispositioned f ⟨4, 39, 1, 10, 2, 9, 0x2A, 0xFF⟩) ∧
     (¬ Mispositioned f ⟨4, 39, 1, 9, 2, 9, 0x2A, 0xFF⟩ ∧ diskError onLastTrack.disk 1 39 9 512 = none ∧
      onLastTrack.disk = some Disk.created)) := by
  simp only [Idle, FdcState.inPhase, Mispositioned]
  decide +kernel

theorem witness_FormatTrackFillsSectors :
    Idle onLastTrack.fdc ∧ (Instr.fdcFormatTrack 0 0 ⟨4, 2, 9, 0x2A, 0xE5⟩).wellFormed = true ∧
    onLastTrack.disk = some Disk.created ∧
    ¬ OffDisk (selected (received onLastTrack.fdc .formatTrack [4, 2, 9, 0x2A, 0xE5]) 4) onLastTrack.disk ∧
    ¬ (2 < (2 : Byte).toNat ∨ (9 : Byte) = 0 ∨
      ∃ d, onLastTrack.disk = some d ∧ d.sectorsPerTrack.toNat < (9 : Byte).toNat) ∧
    2 < (3 : Byte).toNat ∧ ∃ d, onLastTrack.disk = some d ∧ d.sectorsPerTrack.toNat < (10 : Byte).toNat := by
  have hl : onLastTrack.disk = some Disk.created := by decide +kernel
  refine ⟨by simp only [Idle, FdcState.inPhase]; decide +kernel, by decide, hl, ?_, ?_, by decide, _, hl, by decide⟩
  · intro h
    have := h _ hl
    revert this
    decide +kernel
  · rintro (h | h | ⟨d, hd, h⟩)
    · revert h; decide
    · revert h; decide
    · rw [hl] at hd; cases hd; revert h; decide

theorem witness_WriteDataWritesSector :
    (awaiting.fdc.inPhase .receivingData ∧ awaiting.fdc.dataCursor + 1 = awaiting.fdc.dataLen ∧
      diskError awaiting.disk 0 2 2 1 = none ∧ awaiting.disk = some Disk.created) ∧
    (let s := { awaiting with disk := none }
     s.fdc.inPhase .receivingData ∧ s.fdc.dataCursor + 1 = s.fdc.dataLen ∧ diskError s.disk 0 2 2 1 ≠ none) ∧
    Idle onLastTrack.fdc ∧
    (let f := selected (received onLastTrack.fdc .writeData []) 4
     Mispositioned f ⟨4, 39, 1, 9, 0, 9, 0x2A, 0⟩ ∧ ¬ Mispositioned f ⟨4, 39, 1, 9, 2, 9, 0x2A, 0xFF⟩) ∧
    diskError onLastTrack.disk 1 39 9 512 = none ∧ diskError onLastTrack.disk 1 39 0 512 ≠ none := by
  simp only [Idle, FdcState.inPhase, Mispositioned]
  decide +kernel

theorem witness_SectorRoundTripThroughController :
    let p : RwParams := ⟨4, 39, 1, 9, 0, 9, 0x2A, 4⟩
    Idle onLastTrack.fdc ∧ onLastTrack.disk = some Disk.created ∧ DiskInv Disk.created ∧ p.c.toNat < 40 ∧
    1 ≤ p.r.toNat ∧ p.r.toNat ≤ 9 ∧ p.c = driveGet onLastTrack.fdc.trackPerDrive (usOf p.hdUs) ∧
    p.h.toNat = p.hdUs.toNat / 4 % 2 ∧ ([0xDE, 0xAD, 0xBE, 0xEF] : List Byte) ≠ [] ∧
    ([0xDE, 0xAD, 0xBE, 0xEF] : List Byte).length = lengthOf p.n p.dtl := by
  refine ⟨?_, ?_, createdDisk, ?_⟩ <;> (try simp only [Idle, FdcState.inPhase]) <;> decide +kernel

theorem witness_DiskAttaches :
    openError [0x56] = some .imageTruncated ∧ openError (diskHeader ++ [0]) = some .imageTruncated ∧
    openError (List.replicate 8 0) = some .imageIncompatible ∧
    openError (diskHeader ++ List.replicate 368641 0) = some .imageIncompatible ∧
    openError (diskHeader ++ List.replicate 368640 0) = none := by
  have hl : ∀ n, (diskHeader ++ List.replicate n 0).length = 8 + n := by
    intro n; rw [List.length_append, List.length_replicate]; rfl
  have ht : ∀ n, (diskHeader ++ List.replicate n 0).take 8 = diskHeader := fun _ => rfl
  refine ⟨by decide, by decide, by decide, ?_, ?_⟩ <;> (unfold openError; rw [hl, ht]; decide)

theorem witness_DiskReadsAndWrites :
    blank.disk = some Disk.created ∧ diskError blank.disk 1 39 9 512 = none ∧ diskError blank.disk 0 0 1 1 = none ∧
    diskError blank.disk 0 0 1 ([0xAA] : List Byte).length = none ∧
    diskError blank.disk 1 39 9 513 = some (.diskDomainError .length) ∧
    diskError blank.disk 1 39 9 ([] : List Byte).length = some (.diskDomainError .length) ∧
    diskError tiny.disk 0 0 1 1 = some .diskNotAttached := by decide +kernel

theorem witness_DiskRoundTrip :
    blank.disk = some Disk.created ∧ DiskInv Disk.created ∧
    1 ≤ (List.replicate 512 (0xAA : Byte)).length ∧ (List.replicate 512 (0xAA : Byte)).length ≤ 512 ∧
    (1, 39, 9) ≠ (1, 39, 8) := by
  refine ⟨by decide +kernel, createdDisk, by decide +kernel, by decide +kernel, by decide⟩

end Sys2Proof.Tests
end

section
/-! Steps of the machine, and the isolation of the four units (00_scope R2, R3, R18; 60_exceptions R450).

The one idea behind both statements about the units: an operation is run by its unit ALONE. `State.alone o s` is a
machine just powered on that has the parameters of `s` and what the unit `o` may look at; `exec_runsAlone` says that
running an instruction in `s` is running it there and putting the unit that comes out back into `s`. So nothing else is
read, and nothing else is written. -/

namespace Sys2Proof.Machine

open Sys2Proof Sys2Proof.Spec

/-! ### Steps -/

/-- A step on an invocation (log 1, log 21). -/
theorem step_invoke {s : State} {f : Format} {bytes r : List Byte} {rest : List HostInput} {i : Instr}
    (hin : s.inputs = .invoke f bytes :: rest) (hdec : decode f bytes = .ok (i, r)) :
    step s = exec i (s.setInputs (pushBack f r rest)) := by
  simp only [step, runNext, hin, hdec]

/-! ### A unit alone, and back in the machine -/

namespace State

@[simp] theorem setHost_self (s : State) : s.setHost s.host = s := rfl
@[simp] theorem setDisk_self (s : State) : s.setDisk s.disk = s := rfl
@[simp] theorem powerOn_params (p : Params) : (powerOn p).params = p := rfl

/-- What an operation of the unit may look at (`SameFor`), in a machine where nothing else has happened. -/
def alone (o : Owner) (s : State) : State :=
  match o with
  | .video => ((powerOn s.params).setVideo s.video).setHost s.host
  | .tape => ((powerOn s.params).setTape s.tape).setHost s.host
  | .floppy => (powerOn s.params).setFloppy (s.fdc, s.disk)
  | .disk => (powerOn s.params).setDisk s.disk

/-- What an operation of the unit may write, taken from `t` and put into `s`, with the events of `t` after those of
`s`. -/
def graft (o : Owner) (t s : State) : State :=
  match o with
  | .video => (s.setVideo t.video).emit t.events
  | .tape => ((s.setTape t.tape).setHost t.host).emit t.events
  | .floppy => (s.setFloppy (t.fdc, t.disk)).emit t.events
  | .disk => (s.setDisk t.disk).emit t.events

@[simp] theorem alone_params (o : Owner) (s : State) : (s.alone o).params = s.params := by cases o <;> rfl
@[simp] theorem alone_events (o : Owner) (s : State) : (s.alone o).events = [] := by cases o <;> rfl
@[simp] theorem alone_video_video (s : State) : (s.alone .video).video = s.video := rfl
@[simp] theorem alone_video_host (s : State) : (s.alone .video).host = s.host := rfl
@[simp] theorem alone_tape_tape (s : State) : (s.alone .tape).tape = s.tape := rfl
@[simp] theorem alone_tape_host (s : State) : (s.alone .tape).host = s.host := rfl
@[simp] theorem alone_floppy_fdc (s : State) : (s.alone .floppy).fdc = s.fdc := rfl
@[simp] theorem alone_floppy_disk (s : State) : (s.alone .floppy).disk = s.disk := rfl
@[simp] theorem alone_disk_disk (s : State) : (s.alone .disk).disk = s.disk := rfl

/-- States that agree for a unit are one state for it. -/
theorem alone_congr {o : Owner} {s s' : State} (h : SameFor o s s') : s.alone o = s'.alone o := by
  obtain ⟨hp, h⟩ := h
  cases o with
  | disk => simp only [alone, hp, show s.disk = s'.disk from h]
  | video | tape | floppy => simp only [alone, hp, h.1, h.2]

@[simp] theorem graft_params (o : Owner) (u s : State) : (graft o u s).params = s.params := by cases o <;> rfl
@[simp] theorem graft_inputs (o : Owner) (u s : State) : (graft o u s).inputs = s.inputs := by cases o <;> rfl
@[simp] theorem graft_events (o : Owner) (u s : State) : (graft o u s).events = s.events ++ u.events := by
  cases o <;> rfl

theorem graft_video_of_ne {o : Owner} (h : o ≠ .video) (u s : State) : (graft o u s).video = s.video := by
  cases o with
  | video => exact absurd rfl h
  | tape | floppy | disk => rfl

theorem graft_tape_of_ne {o : Owner} (h : o ≠ .tape) (u s : State) : (graft o u s).tape = s.tape := by
  cases o with
  | tape => exact absurd rfl h
  | video | floppy | disk => rfl

theorem graft_fdc_of_ne {o : Owner} (h : o ≠ .floppy) (u s : State) : (graft o u s).fdc = s.fdc := by
  cases o with
  | floppy => exact absurd rfl h
  | video | tape | disk => rfl

theorem graft_disk_of_ne {o : Owner} (hf : o ≠ .floppy) (hd : o ≠ .disk) (u s : State) :
    (graft o u s).disk = s.disk := by
  cases o with
  | floppy => exact absurd rfl hf
  | disk => exact absurd rfl hd
  | video | tape => rfl

theorem graft_host_of_ne {o : Owner} (h : o ≠ .tape) (u s : State) : (graft o u s).host = s.host := by
  cases o with
  | tape => exact absurd rfl h
  | video | floppy | disk => rfl

/-- The unit `u` put back into two states that agree for it: they agree for it again. -/
theorem sameFor_graft {o : Owner} {s s' : State} (h : SameFor o s s') (u : State) :
    SameFor o ((graft o u s).answer u.result u.calls) ((graft o u s').answer u.result u.calls) := by
  obtain ⟨hp, h⟩ := h
  cases o with
  | video => exact ⟨hp, rfl, h.2⟩
  | tape | floppy => exact ⟨hp, rfl, rfl⟩
  | disk => exact ⟨hp, rfl⟩

/-- Putting the unit back unchanged changes nothing. -/
@[simp] theorem graft_alone (o : Owner) (s : State) : graft o (s.alone o) s = s := by cases o <;> simp [graft]

@[simp] theorem graft_emit (o : Owner) (t s : State) (es : List Event) :
    graft o (t.emit es) s = (graft o t s).emit es := by
  cases o <;> simp [graft, emit, setVideo, setTape, setHost, setFloppy, setDisk]

@[simp] theorem graft_setVideo (t s : State) (v : Video) :
    graft .video (t.setVideo v) s = (graft .video t s).setVideo v := rfl
@[simp] theorem graft_setTape (t s : State) (u : TapeUnit) :
    graft .tape (t.setTape u) s = (graft .tape t s).setTape u := rfl
@[simp] theorem graft_setHost (t s : State) (h : HostWorld) :
    graft .tape (t.setHost h) s = (graft .tape t s).setHost h := rfl
@[simp] theorem graft_setFloppy (t s : State) (u : Floppy) :
    graft .floppy (t.setFloppy u) s = (graft .floppy t s).setFloppy u := rfl
@[simp] theorem graft_setDisk (t s : State) (d : Option Disk) :
    graft .disk (t.setDisk d) s = (graft .disk t s).setDisk d := rfl

end State

/-- An answer given by the unit alone, as the answer in `s`: the unit, the result and the callbacks are the answer's. -/
def Answer.graft (o : Owner) (a : Answer) (s : State) : Answer :=
  match a with
  | .next t => .next ((State.graft o t s).answer t.result t.calls)
  | .fault r => .fault r
  | .refused r => .refused r

namespace Answer

@[simp] theorem graft_completeWith (o : Owner) (r : OpResult) (cs : List Callback) (t s : State) :
    graft o (completeWith r cs t) s = completeWith r cs (State.graft o t s) := by cases o <;> rfl
@[simp] theorem graft_complete (o : Owner) (r : OpResult) (t s : State) :
    graft o (complete r t) s = complete r (State.graft o t s) := graft_completeWith o r [] t s
@[simp] theorem graft_raise (o : Owner) (e : OpError) (t s : State) :
    graft o (raise e t) s = raise e (State.graft o t s) := graft_complete o (.error e) t s
@[simp] theorem graft_fault (o : Owner) (r : Fault) (s : State) : graft o (.fault r) s = .fault r := rfl
@[simp] theorem graft_refused (o : Owner) (r : Refusal) (s : State) : graft o (.refused r) s = .refused r := rfl

theorem graft_ite (o : Owner) (c : Prop) {_ : Decidable c} (a b : Answer) (s : State) :
    graft o (if c then a else b) s = if c then graft o a s else graft o b s := apply_ite (graft o · s) c a b

end Answer

/-- The operation is run by the unit alone (R450): run there and put back, it is what it does in the whole machine. -/
def RunsAlone (o : Owner) (op : State → Answer) : Prop :=
  ∀ s, op s = Answer.graft o (op (s.alone o)) s

/-! ### Video -/

theorem execVidReset_runsAlone : RunsAlone .video execVidReset := by
  intro s; simp [execVidReset]

theorem execVidBuild_runsAlone (g : Geometry) : RunsAlone .video (execVidBuild g) := by
  intro s; cases hg : g.valid <;> simp [execVidBuild, hg]

theorem execVidRender_runsAlone (a b : Nat) : RunsAlone .video (execVidRender a b) := by
  intro s; simp [execVidRender]

theorem execVidNewframe_runsAlone : RunsAlone .video execVidNewframe := by
  intro s; simp [execVidNewframe]

theorem execVidContend_runsAlone (tact : Nat) : RunsAlone .video (execVidContend tact) := by
  intro s; simp [execVidContend]

/-! ### Tape -/

/-- The guard of 93 U7 looks at the tape unit only. -/
theorem RunsAlone.guardTape {op : State → Answer} (h : RunsAlone .tape op) :
    RunsAlone .tape fun s => guardTape s (op s) := by
  intro s; cases hr : s.tape.imageStale <;> simp [Machine.guardTape, hr, ← h s]

theorem enterLoad_runsAlone (tact : Nat) : RunsAlone .tape (enterLoad tact) := by
  intro s
  cases hb : TapeUnit.initBlock { s.tape.restartFinished with mode := .load, playerCompleted := false } tact <;>
    simp [enterLoad, Answer.graft_ite, hb]

theorem leaveLoad_runsAlone : RunsAlone .tape leaveLoad := by
  intro s; by_cases hm : s.tape.mode = .load <;> simp [leaveLoad, hm]

theorem enterSave_runsAlone (tact : Nat) : RunsAlone .tape (enterSave tact) := by
  intro s; by_cases hm : s.tape.mode = .passive <;> simp [enterSave, hm]

theorem leaveSave_runsAlone : RunsAlone .tape leaveSave := by
  intro s; by_cases hm : s.tape.mode = .save <;> simp [leaveSave, hm]

/-- The fast-load facility looks at and writes the tape unit and the host's data (R285). -/
theorem fastLoad_runsAlone : RunsAlone .tape fastLoad := by
  intro s
  cases hb : s.tape.image[s.tape.blockIndex]? <;> simp [fastLoad, Answer.graft_ite, hb]

theorem execTapeReset_runsAlone : RunsAlone .tape execTapeReset := by
  intro s; simp [execTapeReset]

theorem execTapeSetmode_runsAlone (pc : Addr) (tact : Nat) : RunsAlone .tape (execTapeSetmode pc tact) := by
  refine RunsAlone.guardTape fun s => ?_
  cases hm : s.tape.mode <;>
    simp [hm, Answer.graft_ite, ← enterLoad_runsAlone tact s, ← leaveLoad_runsAlone s, ← enterSave_runsAlone tact s,
      ← leaveSave_runsAlone s, ← fastLoad_runsAlone s]

theorem execTapeEnterload_runsAlone (tact : Nat) : RunsAlone .tape (execTapeEnterload tact) :=
  (enterLoad_runsAlone tact).guardTape

theorem execTapeLeaveload_runsAlone : RunsAlone .tape execTapeLeaveload := leaveLoad_runsAlone.guardTape

theorem execTapeEntersave_runsAlone (tact : Nat) : RunsAlone .tape (execTapeEntersave tact) :=
  (enterSave_runsAlone tact).guardTape

theorem execTapeLeavesave_runsAlone : RunsAlone .tape execTapeLeavesave := leaveSave_runsAlone.guardTape

theorem execTapeInitplay_runsAlone (start : Nat) : RunsAlone .tape (execTapeInitplay start) := by
  refine RunsAlone.guardTape fun s => ?_
  cases hb : TapeUnit.initBlock { s.tape with playerCompleted := false } start <;> simp [Answer.graft_ite, hb]

theorem execTapeEar_runsAlone (tact : Nat) : RunsAlone .tape (execTapeEar tact) := by
  refine RunsAlone.guardTape fun s => ?_
  cases he : earBlocks tact s.tape.remaining { s.tape with lastTact := tact } <;> simp [Answer.graft_ite, he]

theorem execTapeMic_runsAlone (tact : Nat) (value : Bool) : RunsAlone .tape (execTapeMic tact value) := by
  refine RunsAlone.guardTape fun s => ?_
  simp [Answer.graft_ite]

theorem execTapeFastload_runsAlone (tact : Nat) : RunsAlone .tape (execTapeFastload tact) := by
  intro s
  cases hf : s.params.fastLoadEnabled <;> simp [execTapeFastload, hf, ← fastLoad_runsAlone.guardTape s]

/-! ### Floppy -/

/-- Every FDC command is its bytes written to the floppy unit and the disk (log 4). -/
theorem commandBytes_runsAlone (bs : List Byte) : RunsAlone .floppy (commandBytes bs) := by
  intro s; simp [commandBytes]

theorem execFdcReset_runsAlone : RunsAlone .floppy execFdcReset := by
  intro s; simp [execFdcReset]

theorem execFdcWrite_runsAlone (b : Byte) : RunsAlone .floppy (execFdcWrite b) := by
  intro s; simp [execFdcWrite]

theorem execFdcRead_runsAlone : RunsAlone .floppy execFdcRead := by
  intro s; simp [execFdcRead]

theorem execFdcStatus_runsAlone : RunsAlone .floppy execFdcStatus := by
  intro s; simp [execFdcStatus]

/-! ### Disk store -/

theorem execDskCreate_runsAlone : RunsAlone .disk execDskCreate := by
  intro s; simp [execDskCreate]

theorem execDskOpen_runsAlone (image : List Byte) : RunsAlone .disk (execDskOpen image) := by
  intro s; cases h : openImage image <;> simp [execDskOpen, h]

theorem execDskRead_runsAlone (head track sector length : Nat) :
    RunsAlone .disk (execDskRead head track sector length) := by
  intro s; cases h : diskRead s.disk head track sector length <;> simp [execDskRead, h]

theorem execDskWrite_runsAlone (head track sector : Nat) (data : List Byte) :
    RunsAlone .disk (execDskWrite head track sector data) := by
  intro s; cases h : diskWrite s.disk head track sector data <;> simp [execDskWrite, h]

/-! ### Every instruction -/

/-- Every instruction is run by its unit alone (R450). -/
theorem exec_runsAlone (i : Instr) : RunsAlone (ownerOf i) (exec i) := by
  cases i with
  | vidReset => exact execVidReset_runsAlone
  | vidBuild g => exact execVidBuild_runsAlone g
  | vidRender a b => exact execVidRender_runsAlone a b
  | vidNewframe => exact execVidNewframe_runsAlone
  | vidContend t => exact execVidContend_runsAlone t
  | tapeReset => exact execTapeReset_runsAlone
  | tapeSetmode pc t => exact execTapeSetmode_runsAlone pc t
  | tapeEnterload t => exact execTapeEnterload_runsAlone t
  | tapeLeaveload => exact execTapeLeaveload_runsAlone
  | tapeEntersave t => exact execTapeEntersave_runsAlone t
  | tapeLeavesave => exact execTapeLeavesave_runsAlone
  | tapeInitplay t => exact execTapeInitplay_runsAlone t
  | tapeEar t => exact execTapeEar_runsAlone t
  | tapeMic t v => exact execTapeMic_runsAlone t v
  | tapeFastload t => exact execTapeFastload_runsAlone t
  | fdcReset => exact execFdcReset_runsAlone
  | fdcWrite b => exact execFdcWrite_runsAlone b
  | fdcRead => exact execFdcRead_runsAlone
  | fdcStatus => exact execFdcStatus_runsAlone
  | dskCreate => exact execDskCreate_runsAlone
  | dskOpen image => exact execDskOpen_runsAlone image
  | dskRead h t n k => exact execDskRead_runsAlone h t n k
  | dskWrite h t n data => exact execDskWrite_runsAlone h t n data
  | fdcSpecify | fdcSenseDriveStatus | fdcRecalibrate | fdcSenseInterruptStatus | fdcSeek | fdcReadId | fdcReadData
  | fdcFormatTrack | fdcWriteData | fdcNone => exact commandBytes_runsAlone _

/-- An operation that goes on also goes on in the unit alone, and its next state is that unit put back. -/
theorem exec_next_graft {i : Instr} {s t : State} (h : exec i s = .next t) :
    ∃ u, exec i (s.alone (ownerOf i)) = .next u ∧ t = (State.graft (ownerOf i) u s).answer u.result u.calls := by
  rw [exec_runsAlone i s] at h
  cases hu : exec i (s.alone (ownerOf i)) with
  | next u => rw [hu] at h; exact ⟨u, rfl, (Host.Outcome.next.inj h).symm⟩
  | fault r => rw [hu] at h; cases h
  | refused r => rw [hu] at h; cases h

/-! ### The host's data -/

theorem enterLoad_keeps_host {tact : Nat} {s t : State} (h : enterLoad tact s = .next t) : t.host = s.host := by
  obtain ⟨-, rfl⟩ | ⟨-, -, rfl⟩ | ⟨-, -, rfl⟩ | ⟨-, -, k, b, -, -, -, rfl⟩ := enterLoad_cases h <;> rfl

theorem leaveLoad_keeps_host {s t : State} (h : leaveLoad s = .next t) : t.host = s.host := by
  obtain ⟨-, rfl⟩ | ⟨-, rfl⟩ := leaveLoad_cases h <;> rfl

theorem enterSave_keeps_host {tact : Nat} {s t : State} (h : enterSave tact s = .next t) : t.host = s.host := by
  obtain ⟨-, rfl⟩ | ⟨-, rfl⟩ := enterSave_cases h <;> rfl

theorem leaveSave_keeps_host {s t : State} (h : leaveSave s = .next t) : t.host = s.host := by
  obtain ⟨-, rfl⟩ | ⟨-, rfl⟩ := leaveSave_cases h <;> rfl

/-- Without the fast-load facility no tape operation writes the host's data (R285). -/
theorem tape_keeps_host {i : Instr} {s t : State} (hf : s.params.fastLoadEnabled = false) (ho : ownerOf i = .tape)
    (h : exec i s = .next t) : t.host = s.host := by
  cases i with
  | tapeReset => rw [complete_next.1 h]; rfl
  | tapeSetmode pc tact =>
    obtain ⟨-, ⟨-, -, he, -⟩ | ⟨-, -, -, h⟩ | ⟨-, -, -, h⟩ | ⟨-, -, h⟩ | ⟨-, -, h⟩ | ⟨-, rfl⟩⟩ := execTapeSetmode_cases h
    · simp [hf] at he
    · exact enterLoad_keeps_host h
    · exact enterSave_keeps_host h
    · exact leaveLoad_keeps_host h
    · exact leaveSave_keeps_host h
    · rfl
  | tapeEnterload => exact enterLoad_keeps_host (guardTape_next h).2
  | tapeLeaveload => exact leaveLoad_keeps_host (guardTape_next h).2
  | tapeEntersave => exact enterSave_keeps_host (guardTape_next h).2
  | tapeLeavesave => exact leaveSave_keeps_host (guardTape_next h).2
  | tapeInitplay =>
    obtain ⟨-, ⟨-, rfl⟩ | ⟨-, -, rfl⟩ | ⟨-, b, -, -, rfl⟩⟩ := execTapeInitplay_cases h <;> rfl
  | tapeEar =>
    obtain ⟨-, ⟨-, rfl⟩ | ⟨-, -, -, rfl⟩ | ⟨-, -, -, -, rfl⟩ | ⟨-, -, -, -, t', level, -, rfl⟩⟩ := execTapeEar_cases h <;>
      rfl
  | tapeMic =>
    obtain ⟨-, ⟨-, rfl⟩ | ⟨-, -, -, rfl⟩ | ⟨-, -, -, v, es, -, rfl⟩⟩ := execTapeMic_cases h <;> rfl
  | tapeFastload tact =>
    obtain ⟨he, -, -⟩ := execTapeFastload_cases (tact := tact) h
    simp [hf] at he
  | _ => cases ho

/-! ### The obligations -/

/-- Settles O1: `step` on an invocation, with `setInputs` and `pushBack` written out. -/
theorem stepRunsDecodedInstruction : Obligations.StepRunsDecodedInstruction :=
  fun _ _ _ _ _ _ hin hdec => step_invoke hin hdec

/-- Settles O17: the next state is the old one with the unit alone put back (`exec_next_graft`), so only what
`State.graft` puts back can differ; of that, the host's data needs the fast-load facility. -/
theorem unitsAreIsolated : Obligations.UnitsAreIsolated := by
  intro i s t h
  have htape (hf : s.params.fastLoadEnabled = false) (ho : ownerOf i = .tape) : t.host = s.host :=
    tape_keeps_host hf ho h
  obtain ⟨u, -, rfl⟩ := exec_next_graft h
  refine ⟨State.graft_params .., State.graft_inputs .., fun hv => State.graft_video_of_ne hv u s,
    fun ht => State.graft_tape_of_ne ht u s, fun hf => State.graft_fdc_of_ne hf u s,
    fun hf hd => State.graft_disk_of_ne hf hd u s, fun hh => ?_, u.events, State.graft_events ..⟩
  by_cases ho : ownerOf i = .tape
  · exact htape (hh.resolve_right (not_not_intro ho)) ho
  · exact State.graft_host_of_ne ho u s

/-- Settles O18: both runs are the run of the unit alone, which is the same from the two states (`State.alone_congr`). -/
theorem unitsObserveOnlyThemselves : Obligations.UnitsObserveOnlyThemselves := by
  intro i s s' t hs h
  obtain ⟨u, hu, rfl⟩ := exec_next_graft h
  rw [State.alone_congr hs] at hu
  exact ⟨_, (exec_runsAlone i s').trans (congrArg (Answer.graft (ownerOf i) · s') hu), State.sameFor_graft hs u, rfl, rfl,
    u.events, by simp, by simp⟩

end Sys2Proof.Machine
end

section
/-! PROOF. The statements about the FDC command bytes (30_encoding): which byte values decode to which command. -/

namespace Sys2Proof

/-! ### The byte values of a command -/

/-- The nine commands that have a row in the decode table, in the order of its rows (R105). -/
def tableCommands : List FloppyCommand :=
  [.specify, .senseDriveStatus, .recalibrate, .senseInterruptStatus, .seek, .readId, .readData, .formatTrack, .writeData]

/-- The byte values of a command's row. FormatTrack's pattern matches 0x0F too, but Seek's row comes first (R106). -/
def FloppyCommand.byteValues : FloppyCommand → List Byte
  | .specify => [0x03]
  | .senseDriveStatus => [0x04]
  | .recalibrate => [0x07]
  | .senseInterruptStatus => [0x08]
  | .seek => [0x0F]
  | .readId => [0x0A, 0x4A]
  | .readData => [0x06, 0x26, 0x46, 0x66, 0x86, 0xA6, 0xC6, 0xE6]
  | .formatTrack => [0x0D, 0x4D, 0x4F]
  | .writeData => [0x05, 0x45, 0x85, 0xC5]
  | .none => []

theorem readIdByte_mem_byteValues : ∀ b6, readIdByte b6 ∈ FloppyCommand.readId.byteValues := by decide
theorem readDataByte_mem_byteValues : ∀ hi, readDataByte hi ∈ FloppyCommand.readData.byteValues := by decide
theorem formatTrackByte_mem_byteValues : ∀ b6 b1 : BitVec 1, (!(b6 == 0 && b1 == 1)) = true →
    formatTrackByte b6 b1 ∈ FloppyCommand.formatTrack.byteValues := by decide
theorem writeDataByte_mem_byteValues : ∀ hi, writeDataByte hi ∈ FloppyCommand.writeData.byteValues := by decide

theorem mem_tableCommands {c : FloppyCommand} : c ∈ tableCommands ↔ c ≠ .none := by cases c <;> decide

/-! ### The decode by byte values -/

/-- The command fixes the parameter count, so a byte's decode is known by its command (R105, R308). -/
theorem fdcDecode_eq_iff {b : Byte} {c : FloppyCommand} : fdcDecode b = (c, c.paramCount) ↔ (fdcDecode b).1 = c := by
  constructor
  · intro h; rw [h]
  · rintro rfl; exact Prod.ext rfl (fdcDecode_count b)

/-- Every byte value of a command's row decodes to that command. -/
theorem fdcDecode_of_mem_byteValues {c : FloppyCommand} : ∀ b ∈ c.byteValues, (fdcDecode b).1 = c := by
  cases c <;> decide

/-- A byte that decodes to a command of the table is one of the byte values of its row: the row's fixed bits are
those of the command's byte pattern (`fdcDecode_byte`), and the ignored bits run through the row's byte values. -/
theorem mem_byteValues_fdcDecode {b : Byte} (hc : (fdcDecode b).1 ≠ .none) : b ∈ (fdcDecode b).1.byteValues := by
  obtain ⟨hspecify, hdrive, hrecalibrate, hinterrupt, hseek, hreadId, hreadData, hformat, hwriteData, -⟩ :=
    fdcDecode_byte b
  cases h : (fdcDecode b).1 with
  | specify => exact List.mem_singleton.2 (hspecify h)
  | senseDriveStatus => exact List.mem_singleton.2 (hdrive h)
  | recalibrate => exact List.mem_singleton.2 (hrecalibrate h)
  | senseInterruptStatus => exact List.mem_singleton.2 (hinterrupt h)
  | seek => exact List.mem_singleton.2 (hseek h)
  | readId => exact hreadId h ▸ readIdByte_mem_byteValues _
  | readData => exact hreadData h ▸ readDataByte_mem_byteValues _
  | formatTrack =>
    obtain ⟨hbyte, hnotSeek⟩ := hformat h
    exact hbyte ▸ formatTrackByte_mem_byteValues _ _ hnotSeek
  | writeData => exact hwriteData h ▸ writeDataByte_mem_byteValues _
  | none => exact absurd h hc

/-- A command of the table is decoded from the byte values of its row and from no other (R106). -/
theorem fdcDecode_eq_iff_mem_byteValues {b : Byte} {c : FloppyCommand} (hc : c ≠ .none) :
    fdcDecode b = (c, c.paramCount) ↔ b ∈ c.byteValues := by
  rw [fdcDecode_eq_iff]
  constructor
  · rintro rfl; exact mem_byteValues_fdcDecode hc
  · exact fdcDecode_of_mem_byteValues b

/-- A single byte value, for the rows without ignored bits. -/
theorem fdcDecode_eq_iff_eq {b v : Byte} {c : FloppyCommand} (hc : c ≠ .none) (hv : c.byteValues = [v]) :
    fdcDecode b = (c, c.paramCount) ↔ b = v := by
  rw [fdcDecode_eq_iff_mem_byteValues hc, hv, List.mem_singleton]

/-- `None` is what is left: the bytes in no row's byte values (R106). -/
theorem fdcDecode_eq_none_iff {b : Byte} :
    fdcDecode b = (.none, 0) ↔ b ∉ tableCommands.flatMap FloppyCommand.byteValues := by
  rw [show (0 : Nat) = FloppyCommand.none.paramCount from rfl, fdcDecode_eq_iff, List.mem_flatMap, ← not_iff_not,
    not_not]
  constructor
  · intro h; exact ⟨_, mem_tableCommands.2 h, mem_byteValues_fdcDecode h⟩
  · rintro ⟨c, hc, hb⟩; exact fdcDecode_of_mem_byteValues b hb ▸ mem_tableCommands.1 hc

/-! ### The obligation -/

/-- Settles O7: the rows by their byte values, and `None` by what the rows leave. -/
theorem commandByteValues : Obligations.CommandByteValues := fun _ =>
  ⟨fdcDecode_eq_iff_eq (c := .specify) (by decide) rfl,
    fdcDecode_eq_iff_eq (c := .senseDriveStatus) (by decide) rfl,
    fdcDecode_eq_iff_eq (c := .recalibrate) (by decide) rfl,
    fdcDecode_eq_iff_eq (c := .senseInterruptStatus) (by decide) rfl,
    fdcDecode_eq_iff_eq (c := .seek) (by decide) rfl,
    fdcDecode_eq_iff_mem_byteValues (c := .readId) (by decide),
    fdcDecode_eq_iff_mem_byteValues (c := .readData) (by decide),
    fdcDecode_eq_iff_mem_byteValues (c := .formatTrack) (by decide),
    fdcDecode_eq_iff_mem_byteValues (c := .writeData) (by decide),
    fdcDecode_eq_none_iff⟩

end Sys2Proof
end

section
/-! PROOF. The statements about the tact timing table of the video unit (40_video_timing). -/

namespace Sys2Proof.Machine

open Sys2Proof Sys2Proof.Spec

/-! ### The table's entries against the statements' definitions -/

/-- The inclusive bound of R144 is the exclusive one of R143, because a valid geometry has a display line: with
`displayLines = 0` the truncated `LAST_DISPLAY_LINE` would not lie before `FIRST_DISPLAY_LINE`. -/
theorem Geometry.onDisplayLine_eq_displayLine {g : Geometry} (hg : g.valid = true) (line : Nat) :
    g.onDisplayLine line = displayLine g line := by
  obtain ⟨⟨hlines, -⟩, -⟩ := Geometry.valid_iff.mp hg
  have hlast : line ≤ g.lastDisplayLine ↔ line < g.firstDisplayLine + g.displayLines := by
    simp only [Geometry.lastDisplayLine]; omega
  simp only [Geometry.onDisplayLine, displayLine, hlast, Bool.decide_and]

/-- The delay the table is built with is the one of R148. -/
theorem contention_eq_contentionAt {g : Geometry} (hg : g.valid = true) (line t : Nat) :
    contention g line t = BitVec.ofNat 3 (contentionAt g line t) := by
  simp only [contention, contentionAt, Geometry.onDisplayLine_eq_displayLine hg, Bool.and_eq_true, decide_eq_true_eq,
    and_assoc, apply_ite (BitVec.ofNat 3), BitVec.ofNat_eq_ofNat]

@[simp] theorem describeTact_contentionDelay (g : Geometry) (i : Nat) :
    (describeTact g i).contentionDelay = contention g (i / g.lineT) (i % g.lineT) := rfl

/-- Every tact has a descriptor: that of its place in the frame (R150, R154). -/
theorem VideoInv.descriptor_eq {v : Video} (hv : VideoInv v) (tact : Nat) :
    v.descriptor tact = describeTact v.geometry (tact % v.geometry.frameT) := by
  have hin : tact % v.geometry.frameT < v.geometry.frameT := Nat.mod_lt _ (Geometry.frameT_pos hv.geometry)
  rw [Video.descriptor, hv.table, List.getD_eq_getElem?_getD, getElem?_buildTable hin, Option.getD_some]

/-! ### The obligation -/

/-- Settles O24: the entry read is the description of the reduced tact, and its delay is the one of R148. -/
theorem contentionDelayReturned : Obligations.ContentionDelayReturned := by
  intro s tact hv g i
  have hdelay : (s.video.descriptor tact).contentionDelay =
      BitVec.ofNat 3 (contentionAt g (i / g.lineT) (i % g.lineT)) := by
    rw [hv.descriptor_eq, describeTact_contentionDelay, contention_eq_contentionAt hv.geometry]
  calc exec (.vidContend tact) s
    _ = complete (.delay (s.video.descriptor tact).contentionDelay) s := rfl
    _ = complete (.delay (BitVec.ofNat 3 (contentionAt g (i / g.lineT) (i % g.lineT)))) s := by rw [hdelay]

end Sys2Proof.Machine
end

section
/-! PROOF. The statements about rendering (41_video_render): the colours, one tact, the same tact again; and the reset
operations of the units (R188, R272, R302). -/

namespace Sys2Proof.Machine

open Sys2Proof Sys2Proof.Spec

/-! ### Reset -/

/-- VID.BUILD of a valid geometry completes with its table built and the two frame elements kept (R142, R153). -/
theorem exec_vidBuild_valid {g : Geometry} (hg : g.valid = true) (s : State) :
    exec (.vidBuild g) s = complete .done (s.setVideo (buildVideo g s.video.frameCount s.video.flashPhase)) :=
  if_pos hg

/-- Settles O8: the video reset is VID.BUILD with the frame elements cleared, the other two write the reset records. -/
theorem resetOperationsComplete : Obligations.ResetOperationsComplete := by
  intro s
  refine ⟨fun hg => ?vid, ?tape, ?fdc⟩
  case vid => exact ⟨_, exec_vidBuild_valid hg s, rfl⟩
  case tape =>
    calc exec .tapeReset s
      _ = complete .done (s.setTape (TapeUnit.reset s.tape.image)) := rfl
  case fdc =>
    calc exec .fdcReset s
      _ = complete .done (s.setFloppy (FdcState.reset, s.disk)) := rfl

/-! ### Colours -/

/-- An index of the tables read back: bits 7:0 are the cell's colour byte, bit 8 is the pixel bit (R172). -/
theorem colourIndex_fields (b : Bool) (a : Byte) :
    (BitVec.ofBool b ++ a).extractLsb' 0 8 = a ∧ (BitVec.ofBool b ++ a).getLsbD 8 = b := by
  constructor
  · exact BitVec.extractLsb'_append_eq_right
  · cases b <;> rw [BitVec.getLsbD_append] <;> rfl

/-- The entries of the table for flash off (R172). -/
theorem flashOffColours_index (b : Bool) (a : Byte) :
    flashOffColours (BitVec.ofBool b ++ a) = if b then ink a else paper a := by
  obtain ⟨hattr, hbit⟩ := colourIndex_fields b a
  simp only [flashOffColours, hattr, hbit, inkOf_eq, paperOf_eq]

/-- The entries of the table for flash on (R172). -/
theorem flashOnColours_index (b : Bool) (a : Byte) :
    flashOnColours (BitVec.ofBool b ++ a) = if b = a.getLsbD 7 then paper a else ink a := by
  obtain ⟨hattr, hbit⟩ := colourIndex_fields b a
  simp only [flashOnColours, hattr, hbit, inkOf_eq, paperOf_eq]

/-- Settles O28: the entries at pixel bit 0 and 1 of each table; every colour is a palette index. -/
theorem colourTables : Obligations.ColourTables := by
  intro a
  refine ⟨flashOffColours_index false a, flashOffColours_index true a, ?onPaper, ?onInk, fun b => ⟨rfl, rfl, ?palette⟩⟩
  case onPaper =>
    refine (flashOnColours_index false a).trans ?_
    cases a.getLsbD 7 <;> rfl
  case onInk =>
    refine (flashOnColours_index true a).trans ?_
    cases a.getLsbD 7 <;> rfl
  case palette => exact fun flash => Nat.le_of_lt_succ (colour_lt flash b a)

/-! ### One tact -/

/-- VID.RENDER of one tact is `RenderTact` of the reduced tact (R174, R175). -/
theorem exec_vidRender_one (s : State) (tact : Nat) :
    exec (.vidRender tact tact) s =
      completeWith .done (renderTact s.host s.video (tact % s.video.geometry.frameT)).2
        (s.setVideo (renderTact s.host s.video (tact % s.video.geometry.frameT)).1) := by
  have hone : tactsIn tact tact = 1 := Nat.add_sub_cancel_left tact 1
  calc exec (.vidRender tact tact) s
    _ = completeWith .done (renderTacts s.host s.video tact (tactsIn tact tact)).2
          (s.setVideo (renderTacts s.host s.video tact (tactsIn tact tact)).1) := rfl
    _ = _ := by rw [hone, renderTacts_one]

theorem video_of_vidRender_one {s t : State} {tact : Nat} (h : exec (.vidRender tact tact) s = .next t) :
    t.video = (renderTact s.host s.video (tact % s.video.geometry.frameT)).1 := by
  rw [exec_vidRender_one] at h
  cases h
  rfl

/-- `RenderTact` reads the descriptor stored for its index, wherever one is stored. -/
theorem descriptor_mod_of_stored {v : Video} {tact : Nat} {d : TactDescriptor}
    (hd : v.tt[tact % v.geometry.frameT]? = some d) : v.descriptor (tact % v.geometry.frameT) = d := by
  rw [Video.descriptor, Nat.mod_mod, List.getD_eq_getElem?_getD, hd, Option.getD_some]

/-- Settles O27: what `RenderTact` does, read at the descriptor stored for the reduced tact. -/
theorem renderTactByPhase : Obligations.RenderTactByPhase := by
  intro s tact d hd
  obtain ⟨pb, hrender, hpixels⟩ := renderTact_spec s.host s.video (tact % s.video.geometry.frameT)
  rw [descriptor_mod_of_stored hd] at hrender hpixels
  refine ⟨pb, ?_, hpixels⟩
  rw [exec_vidRender_one, hrender]
  rfl

/-! ### The same tact again (R190) -/

/-- Writing the same two pixels at the same place again changes nothing. -/
theorem PixelsWritten.eq_of_again {pb pb1 pb2 : List Byte} {o : Nat} {px : Option (Byte × Byte)}
    (hfirst : PixelsWritten pb pb1 o px) (hagain : PixelsWritten pb1 pb2 o px) : pb2 = pb1 := by
  obtain ⟨hlen1, hget1⟩ := hfirst
  obtain ⟨hlen2, hget2⟩ := hagain
  refine List.ext_getElem? fun k => ?_
  by_cases hk : k < pb1.length
  · have h1 := hget1 k (hlen1 ▸ hk)
    rw [hget2 k hk]
    match px with
    | none => rfl
    | some (c0, c1) =>
      dsimp only at h1 ⊢
      split_ifs at h1 ⊢ <;> simp only [h1]
  · rw [List.getElem?_eq_none (by omega), List.getElem?_eq_none (by omega)]

/-- A video unit with its pixel buffer and its four latches replaced: all that `RenderTact` writes (R175). -/
def Video.rendered (v : Video) (pb : List Byte) (l : Byte × Byte × Byte × Byte) : Video :=
  { v with pb := pb, pixelByte1 := l.1, attrByte1 := l.2.1, pixelByte2 := l.2.2.1, attrByte2 := l.2.2.2 }

/-- A fetch phase reloads the same byte from the same memory. -/
theorem latchesAfter_rendered {h h' : HostWorld} (hmem : h'.mem = h.mem) (v : Video) (pb : List Byte)
    (d : TactDescriptor) : latchesAfter h' (v.rendered pb (latchesAfter h v d)) d = latchesAfter h v d := by
  simp only [latchesAfter, Video.rendered, hmem]
  cases d.phase <;> rfl

/-- A display phase shows a latch pair that its own fetch does not load, a border phase the border colour. -/
theorem pixelsOf_rendered {h h' : HostWorld} (hborder : h'.border = h.border) (v : Video) (pb : List Byte) (i : Nat)
    (d : TactDescriptor) : pixelsOf h' (v.rendered pb (latchesAfter h v d)) i d = pixelsOf h v i d := by
  simp only [pixelsOf, latchesAfter, Video.rendered, hborder]
  cases d.phase <;> rfl

/-- `RenderTact` of the same index again leaves the video unit as it is. -/
theorem renderTact_again {h h' : HostWorld} (hmem : h'.mem = h.mem) (hborder : h'.border = h.border) (v : Video)
    (i : Nat) : (renderTact h' (renderTact h v i).1 i).1 = (renderTact h v i).1 := by
  obtain ⟨pb1, hfirst, hpixels1⟩ := renderTact_spec h v i
  have hv1 : (renderTact h v i).1 = v.rendered pb1 (latchesAfter h v (v.descriptor i)) := congrArg Prod.fst hfirst
  rw [hv1]
  obtain ⟨pb2, hagain, hpixels2⟩ := renderTact_spec h' (v.rendered pb1 (latchesAfter h v (v.descriptor i))) i
  have hd : (v.rendered pb1 (latchesAfter h v (v.descriptor i))).descriptor i = v.descriptor i := rfl
  rw [hd, pixelsOf_rendered hborder] at hpixels2
  rw [hd, latchesAfter_rendered hmem, PixelsWritten.eq_of_again hpixels1 hpixels2] at hagain
  exact congrArg Prod.fst hagain

/-- Settles O29: the geometry is kept, so the second operation renders the same index again. -/
theorem renderIdempotent : Obligations.RenderIdempotent := by
  intro s t u u' tact hfirst hvideo hmem hborder hagain
  have ht := video_of_vidRender_one hfirst
  have hgeometry : t.video.geometry = s.video.geometry := by rw [ht]; exact (renderTact_keeps _ _ _).1
  calc u'.video
    _ = (renderTact u.host t.video (tact % s.video.geometry.frameT)).1 := by
        rw [video_of_vidRender_one hagain, hvideo, hgeometry]
    _ = t.video := by rw [ht, renderTact_again hmem hborder]

end Sys2Proof.Machine
end

section
/-! PROOF. The statements about TAPE.INITPLAY and TAPE.EAR (42_tape_load): starting a block, the calls that change
nothing, and the level of the pilot. -/

namespace Sys2Proof.Machine

open Sys2Proof Sys2Proof.Spec

/-! ### TAPE.INITPLAY (R204) -/

section Initplay
variable {s : State} (start : Nat) (hr : TapeReady s)
include hr

theorem exec_tapeInitplay_noBlock (hk : s.tape.image.length ≤ s.tape.blockIndex) :
    exec (.tapeInitplay start) s = raise .tapeNoBlock s :=
  (guardTape_ready hr _).trans (if_pos hk)

theorem exec_tapeInitplay_emptyBlock (hk : s.tape.blockIndex < s.tape.image.length)
    (he : HasEmptyBlock s.tape.image) : exec (.tapeInitplay start) s = raise .tapeEmptyBlock s :=
  calc exec (.tapeInitplay start) s
    _ = execTapeInitplay start s := rfl
    _ = raise .tapeEmptyBlock s := by
      rw [execTapeInitplay, guardTape_ready hr, if_neg (Nat.not_le.mpr hk), if_pos ((hasEmptyBlock_iff _).mpr he)]

/-- The tape unit with block `b` started, the mode and the block index kept (R204). -/
def TapeUnit.playing (t : TapeUnit) (b : TapeBlock) (start : Nat) : TapeUnit :=
  { t with playerCompleted := false, initialised := true, lastTact := start, play := started b start }

/-- TAPE.INITPLAY where every block has data: the current block is started by `InitBlock`. -/
theorem exec_tapeInitplay_playing {b : TapeBlock} (hb : s.tape.image[s.tape.blockIndex]? = some b)
    (he : ¬ HasEmptyBlock s.tape.image) :
    exec (.tapeInitplay start) s = complete .done (s.setTape (s.tape.playing b start)) := by
  obtain ⟨hk, -⟩ := List.getElem?_eq_some_iff.mp hb
  have hd : b.data ≠ [] := fun hd => he ⟨b, List.mem_of_getElem? hb, hd⟩
  have hinit := initBlock_some (t := { s.tape with playerCompleted := false }) start hb hd
  calc exec (.tapeInitplay start) s
    _ = execTapeInitplay start s := rfl
    _ = complete .done (s.setTape (s.tape.playing b start)) := by
      rw [execTapeInitplay, guardTape_ready hr, if_neg (Nat.not_le.mpr hk), (hasEmptyBlock_eq_false _).mpr he, hinit]
      rfl

end Initplay

/-- Settles O33: the three outcomes of TAPE.INITPLAY, each with its state written out. -/
theorem initplayStartsBlock : Obligations.InitplayStartsBlock := fun _ start hr =>
  ⟨fun _ hb he => exec_tapeInitplay_playing start hr hb he, exec_tapeInitplay_noBlock start hr,
    exec_tapeInitplay_emptyBlock start hr⟩

/-! ### TAPE.EAR and TAPE.MIC without effect (R215 to R217, R236) -/

section WithoutEffect
variable {s : State} {tact : Nat} (hr : TapeReady s)
include hr

/-- Nothing plays: the level is 1 (R215). -/
theorem exec_tapeEar_idle (h : s.tape.mode ≠ .load ∨ s.tape.playerCompleted = true) :
    exec (.tapeEar tact) s = complete (.bit true) s :=
  calc exec (.tapeEar tact) s
    _ = execTapeEar tact s := rfl
    _ = complete (.bit true) s := by rw [execTapeEar, guardTape_ready hr, ← ite_or, if_pos h]

/-- No block was started (R217). -/
theorem exec_tapeEar_unstarted (hm : s.tape.mode = .load) (hc : s.tape.playerCompleted = false)
    (hi : s.tape.initialised = false) : exec (.tapeEar tact) s = raise .tapeNotInitialised s :=
  calc exec (.tapeEar tact) s
    _ = execTapeEar tact s := rfl
    _ = raise .tapeNotInitialised s := by
      rw [execTapeEar, guardTape_ready hr, if_neg (not_not_intro hm), hc, hi]
      rfl

/-- The tact is before the last one (R216). -/
theorem exec_tapeEar_outOfOrder (hm : s.tape.mode = .load) (hc : s.tape.playerCompleted = false)
    (hi : s.tape.initialised = true) (ht : tact < s.tape.lastTact) :
    exec (.tapeEar tact) s = raise .tapeOrderViolation s :=
  calc exec (.tapeEar tact) s
    _ = execTapeEar tact s := rfl
    _ = raise .tapeOrderViolation s := by
      rw [execTapeEar, guardTape_ready hr, if_neg (not_not_intro hm), hc, hi, if_pos ht]
      rfl

variable {value : Bool}

/-- Nothing is saved, or the level stays (R236). -/
theorem exec_tapeMic_ignored (h : s.tape.mode ≠ .save ∨ value = s.tape.save.micBitState) :
    exec (.tapeMic tact value) s = complete .done s :=
  calc exec (.tapeMic tact value) s
    _ = execTapeMic tact value s := rfl
    _ = complete .done s := by rw [execTapeMic, guardTape_ready hr, ← ite_or, if_pos h]

/-- The tact is before the last accepted transition (R236). -/
theorem exec_tapeMic_outOfOrder (hm : s.tape.mode = .save) (hv : value ≠ s.tape.save.micBitState)
    (ht : tact < s.tape.save.lastActivityTact) :
    exec (.tapeMic tact value) s = raise .tapeOrderViolation s :=
  calc exec (.tapeMic tact value) s
    _ = execTapeMic tact value s := rfl
    _ = raise .tapeOrderViolation s := by
      rw [execTapeMic, guardTape_ready hr, if_neg (not_not_intro hm), if_neg hv, if_pos ht]

end WithoutEffect

/-- Settles O34: the guards of TAPE.EAR and TAPE.MIC, taken in the order of R206 and R236. -/
theorem tapeCallsWithoutEffect : Obligations.TapeCallsWithoutEffect := fun _ _ _ hr =>
  ⟨exec_tapeEar_idle hr, exec_tapeEar_unstarted hr, exec_tapeEar_outOfOrder hr, exec_tapeMic_ignored hr,
    exec_tapeMic_outOfOrder hr⟩

/-! ### The pilot (R218) -/

/-- Pulse `q` of the pilot is high where `q` is even: the first half of each period of two pulses. -/
theorem even_pilotPulse_iff (e : Nat) : e / 2168 % 2 = 0 ↔ e % 4336 < 2168 := by omega

/-- The level of a started block during its pilot; the cursors stay. -/
theorem blockEar_started_pilot {b : TapeBlock} {start tact : Nat} (h : tact < start + pilotCount b.data * 2168) :
    blockEar b tact (started b start) = .ok (started b start, decide ((tact - start) % 4336 < 2168)) :=
  calc blockEar b tact (started b start)
    _ = pilotEar b tact (started b start) := rfl
    _ = .ok (started b start, decide ((tact - start) / 2168 % 2 = 0)) := if_pos h
    _ = .ok (started b start, decide ((tact - start) % 4336 < 2168)) := by simp only [even_pilotPulse_iff]

/-- The walk over the blocks ends in a block that is not over (R206). -/
theorem earBlocks_within {b : TapeBlock} {bs : List TapeBlock} {t : TapeUnit} {tact : Nat} {p : Playback} {level : Bool}
    (h : blockEar b tact t.play = .ok (p, level)) (hp : p.phase ≠ .completed) :
    earBlocks tact (b :: bs) t = .ok ({ t with play := p }, level) := by
  simp only [earBlocks, h, if_pos hp]

theorem remaining_eq_cons {t : TapeUnit} {b : TapeBlock} (h : t.image[t.blockIndex]? = some b) :
    t.remaining = b :: t.image.drop (t.blockIndex + 1) := by
  obtain ⟨hk, rfl⟩ := List.getElem?_eq_some_iff.mp h
  exact List.drop_eq_getElem_cons hk

/-- TAPE.EAR within the current block: its level, its cursors and the tact recorded. -/
theorem exec_tapeEar_within {s : State} {b : TapeBlock} {tact : Nat} {p : Playback} {level : Bool} (hr : TapeReady s)
    (hm : s.tape.mode = .load) (hc : s.tape.playerCompleted = false) (hi : s.tape.initialised = true)
    (ht : s.tape.lastTact ≤ tact) (hb : s.tape.image[s.tape.blockIndex]? = some b)
    (hlevel : blockEar b tact s.tape.play = .ok (p, level)) (hp : p.phase ≠ .completed) :
    exec (.tapeEar tact) s = complete (.bit level) (s.setTape { s.tape with play := p, lastTact := tact }) := by
  have hwalk : earBlocks tact s.tape.remaining { s.tape with lastTact := tact } =
      .ok ({ s.tape with play := p, lastTact := tact }, level) := by
    rw [remaining_eq_cons hb]; exact earBlocks_within hlevel hp
  calc exec (.tapeEar tact) s
    _ = execTapeEar tact s := rfl
    _ = complete (.bit level) (s.setTape { s.tape with play := p, lastTact := tact }) := by
      rw [execTapeEar_playing hr hm hc hi ht, hwalk]

theorem runAll_cons {i : Instr} {is : List Instr} {s t : State} (h : exec i s = .next t) :
    runAll (i :: is) s = runAll is t := by
  simp only [runAll, h]

/-- Settles O38: TAPE.INITPLAY starts the block, and TAPE.EAR before the pilot's end stays in that block. -/
theorem pilotAlternates : Obligations.PilotAlternates := by
  intro s b start tact hr hm hb he hstart hpilot
  have hnotOver : (started b start).phase ≠ .completed := by simp [started]
  have hinit := exec_tapeInitplay_playing start hr hb he
  have hear := exec_tapeEar_within (s := (s.setTape (s.tape.playing b start)).answer .done []) hr hm rfl rfl hstart hb
    (blockEar_started_pilot hpilot) hnotOver
  exact ⟨_, (runAll_cons hinit).trans (runAll_cons hear), rfl⟩

end Sys2Proof.Machine
end

section
/-! PROOF. The statements about TAPE.MIC (43_tape_save): the pulse classes, and one step of the block assembler. -/

namespace Sys2Proof.Machine

open Sys2Proof Sys2Proof.Spec

/-! ### Pulse classes (R232, R233) -/

theorem inWindow_iff (nominal w : Nat) : inWindow nominal w = true ↔ nominal - 24 ≤ w ∧ w ≤ nominal + 24 := by
  rw [inWindow, Bool.and_eq_true, decide_eq_true_iff, decide_eq_true_iff, savePulseTolerance]

/-- The model's classifier goes through the window table; its first and last test are the table's, written strictly. -/
theorem classify_eq_pulseClassOf (w : Nat) : classify w = pulseClassOf w := by
  simp only [classify, inWindow_iff, sync1Pl, sync2Pl, bit0Pl, termSyncPl, bit1Pl, pilotPl, savePulseTolerance,
    pulseClassOf, Nat.lt_iff_add_one_le, Nat.reduceAdd, Nat.reduceSub, Nat.add_one_le_add_one_iff]

/-- The widths of each pulse class: its window (R232), or the gaps between the windows (R233). -/
def PulseWindow (w : Nat) : PulseClass → Prop
  | .tooShort => w < 643
  | .sync1 => 643 ≤ w ∧ w ≤ 691
  | .sync2 => 711 ≤ w ∧ w ≤ 759
  | .bit0 => 831 ≤ w ∧ w ≤ 879
  | .termSync => 923 ≤ w ∧ w ≤ 971
  | .bit1 => 1686 ≤ w ∧ w ≤ 1734
  | .pilot => 2144 ≤ w ∧ w ≤ 2192
  | .tooLong => 2192 < w
  | .unclassified =>
    692 ≤ w ∧ w ≤ 710 ∨ 760 ≤ w ∧ w ≤ 830 ∨ 880 ≤ w ∧ w ≤ 922 ∨ 972 ≤ w ∧ w ≤ 1685 ∨ 1735 ≤ w ∧ w ≤ 2143

/-- Every width lies in the window of the class the table gives it. -/
theorem pulseWindow_pulseClassOf (w : Nat) : PulseWindow w (pulseClassOf w) := by
  unfold pulseClassOf
  split_ifs <;> simp only [PulseWindow] <;> omega

/-- No width lies in two windows. -/
theorem PulseWindow.pulseClassOf_eq {w : Nat} {c : PulseClass} (h : PulseWindow w c) : pulseClassOf w = c := by
  cases c <;> simp only [PulseWindow] at h <;> simp (disch := omega) only [pulseClassOf, if_pos, if_neg]

theorem classify_eq_iff (w : Nat) (c : PulseClass) : classify w = c ↔ PulseWindow w c := by
  rw [classify_eq_pulseClassOf]
  exact ⟨fun h => h ▸ pulseWindow_pulseClassOf w, PulseWindow.pulseClassOf_eq⟩

/-- Settles O39: the class of a width is the one whose window holds it. -/
theorem pulseClassWindows : Obligations.PulseClassWindows := fun w =>
  ⟨classify_eq_iff w .tooShort, classify_eq_iff w .sync1, classify_eq_iff w .sync2, classify_eq_iff w .bit0,
    classify_eq_iff w .termSync, classify_eq_iff w .bit1, classify_eq_iff w .pilot, classify_eq_iff w .tooLong,
    classify_eq_iff w .unclassified⟩

/-! ### Data half-pulses (R242) -/

/-- The model's shift and insertion of a bit doubles the byte and adds the bit. -/
theorem shiftedByte_eq (x : Byte) (bit : Bool) :
    (x <<< 1) ||| BitVec.setWidth 8 (BitVec.ofBool bit) = BitVec.ofNat 8 (x.toNat * 2 + bit.toNat) := by
  apply BitVec.eq_of_toNat_eq
  have hbit : bit.toNat < 2 ^ 1 := bit.toNat_lt
  have hor : (x.toNat * 2 + bit.toNat) % 2 ^ 8 = x.toNat <<< 1 % 2 ^ 8 ||| bit.toNat % 2 ^ 8 := by
    rw [← Nat.or_mod_two_pow, ← Nat.shiftLeft_add_eq_or_of_lt hbit, Nat.shiftLeft_eq, pow_one]
  simpa using hor.symm

theorem abandon_eq_abandoned (v : SaveState) : v.abandon = abandoned v := rfl

/-- The second half of a bit: it is shifted in, and the eighth completes the byte. -/
theorem shiftBit_eq (capacity : Nat) (bit : Bool) (v : SaveState) :
    v.shiftBit capacity bit =
      let byte := BitVec.ofNat 8 (v.currentByte.toNat * 2 + bit.toNat)
      if v.bitOffset.toNat + 1 < 8 then
        { v with prevPulse := .noPulse, currentByte := byte, bitOffset := v.bitOffset + 1 }
      else if v.dataBuffer.length = capacity then abandoned v
      else { v with prevPulse := .noPulse, dataBuffer := v.dataBuffer ++ [byte], bitOffset := 0, currentByte := 0 } := by
  have hlast : v.bitOffset.toNat + 1 < 8 ↔ ¬ v.bitOffset = 7 := by bv_omega
  simp only [SaveState.shiftBit, shiftedByte_eq, hlast, ite_not, abandon_eq_abandoned]

theorem dataPulse_eq_dataHalf (capacity : Nat) (bit : Bool) (v : SaveState) :
    v.dataPulse capacity bit = dataHalf capacity bit v := by
  cases hprev : v.prevPulse <;> cases bit <;>
    simp [SaveState.dataPulse, dataHalf, hprev, halfOf, shiftBit_eq, abandon_eq_abandoned]

/-! ### The step of each phase (R240, R244) -/

theorem closeBlock_eq (v : SaveState) :
    v.closeBlock = if v.dataBuffer = [] then abandoned v
      else { abandoned v with dataBlockCount := v.dataBlockCount + 1 } := by
  unfold SaveState.closeBlock
  split <;> rfl

/-- `Pilot`: the least number of pilot pulses is 3000. -/
theorem stepPilot_eq (c : PulseClass) (v : SaveState) :
    v.stepPilot c =
      if c = .pilot then { v with pilotPulseCount := v.pilotPulseCount + 1 }
      else if c = .sync1 ∧ 3000 ≤ v.pilotPulseCount then { v with phase := .sync1 }
      else abandoned v := by
  rw [SaveState.stepPilot, minPilotPulseCount]
  rfl

/-- `Sync2`: either half-pulse of a data bit begins the data. -/
theorem stepSync2_eq (c : PulseClass) (v : SaveState) :
    v.stepSync2 c = if c = .bit0 ∨ c = .bit1 then v.beginData (halfOf (c == .bit1)) else abandoned v := by
  cases c <;> rfl

/-- `Data`: a half-pulse of a bit, the close of a block with data, or the block is abandoned. -/
theorem stepData_eq (capacity : Nat) (c : PulseClass) (v : SaveState) :
    v.stepData capacity c =
      if c = .bit0 ∨ c = .bit1 then dataHalf capacity (c == .bit1) v
      else if c = .termSync ∧ v.dataBuffer ≠ [] then { abandoned v with dataBlockCount := v.dataBlockCount + 1 }
      else abandoned v := by
  cases c with
  | bit0 => exact dataPulse_eq_dataHalf capacity false v
  | bit1 => exact dataPulse_eq_dataHalf capacity true v
  | termSync =>
    refine (closeBlock_eq v).trans ?_
    by_cases hd : v.dataBuffer = [] <;> simp [hd]
  | _ => rfl

/-- The events of `Data`: the block and its name where a block with data closes. -/
theorem closeEvents_eq (pauseMs : BitVec 16) (c : PulseClass) (v : SaveState) :
    (if c = .termSync then v.closeEvents pauseMs else []) =
      if c = .termSync ∧ v.dataBuffer ≠ [] then
        .blockSaved ⟨v.dataBuffer, pauseMs⟩ ::
          (if v.dataBlockCount = 0 ∧ v.dataBuffer.length = 19 then [.nameSaved ((v.dataBuffer.drop 2).take 10)] else [])
      else [] := by
  simp only [SaveState.closeEvents, Nat.add_eq_right, ← ite_not (v.dataBuffer = []), ite_and, ne_eq]

/-! ### TAPE.MIC (R236) -/

/-- An accepted transition completes with the save state and the events of its step. -/
theorem micGives_of_step {s : State} {tact : Nat} {value : Bool} {v : SaveState} {es : List Event}
    (h : Transition s tact value)
    (hstep : SaveState.step s.params (pulseClassOf (tact - s.tape.save.lastActivityTact)) (transitioned s tact value) =
      (v, es)) : MicGives s tact value v es := by
  obtain ⟨hr, hm, hv, ht⟩ := h
  have htransition : s.tape.save.transition s.params tact value = (v, es) := by
    rw [SaveState.transition, classify_eq_pulseClassOf]; exact hstep
  calc exec (.tapeMic tact value) s
    _ = execTapeMic tact value s := rfl
    _ = complete .done ((s.setTape { s.tape with save := v }).emit es) := by
      rw [execTapeMic, guardTape_ready hr, if_neg (not_not_intro hm), if_neg hv, if_neg (Nat.not_lt.mpr ht),
        htransition]

/-- Settles O40: the step of each phase, in the words of the table. -/
theorem micStepTable : Obligations.MicStepTable := by
  intro s tact value h v c
  have hgives {v' : SaveState} {es : List Event} : SaveState.step s.params c v = (v', es) → MicGives s tact value v' es :=
    micGives_of_step h
  cases hphase : v.phase with
  | none => exact hgives (by rw [SaveState.step, hphase, SaveState.stepNone])
  | pilot => exact hgives (by rw [SaveState.step, stepPilot_eq, hphase])
  | sync1 => exact hgives (by rw [SaveState.step, hphase, SaveState.stepSync1, abandon_eq_abandoned])
  | sync2 => exact hgives (by rw [SaveState.step, hphase, stepSync2_eq, SaveState.beginData])
  | data => exact hgives (by rw [SaveState.step, hphase, stepData_eq, closeEvents_eq])
  | error => exact hgives (by rw [SaveState.step, hphase])

end Sys2Proof.Machine
end

section
/-! PROOF. The statements about the tape mode register (44_tape_mode R274 to R282): the direct operations and
TAPE.SETMODE. -/

namespace Sys2Proof.Machine

open Sys2Proof Sys2Proof.Spec

section DirectOperations
variable {s : State} {tact : Nat}

/-! ### The direct operations run their transition -/

section Ready
variable (hr : TapeReady s)
include hr

theorem exec_tapeEnterload : exec (.tapeEnterload tact) s = enterLoad tact s := guardTape_ready hr _
theorem exec_tapeLeaveload : exec .tapeLeaveload s = leaveLoad s := guardTape_ready hr _
theorem exec_tapeEntersave : exec (.tapeEntersave tact) s = enterSave tact s := guardTape_ready hr _
theorem exec_tapeLeavesave : exec .tapeLeavesave s = leaveSave s := guardTape_ready hr _

end Ready

/-! ### The transitions in their mode and in the others (R276 to R282) -/

theorem leaveLoad_load (hm : s.tape.mode = .load) :
    leaveLoad s = complete .done ((s.setTape { s.tape with mode := .passive }).emit [.leftLoad]) := if_pos hm

theorem leaveLoad_ignored (hm : s.tape.mode ≠ .load) : leaveLoad s = complete .done s := if_neg hm

theorem enterSave_passive (hm : s.tape.mode = .passive) :
    enterSave tact s = complete .done ((s.setTape { s.tape with
      mode := .save, save := { SaveState.reset with lastActivityTact := tact } }).emit [.enteredSave]) :=
  if_neg (not_not_intro hm)

theorem enterSave_ignored (hm : s.tape.mode ≠ .passive) : enterSave tact s = complete .done s := if_pos hm

theorem leaveSave_save (hm : s.tape.mode = .save) :
    leaveSave s = complete .done ((s.setTape { s.tape with mode := .passive }).emit [.leftSave]) := if_pos hm

theorem leaveSave_ignored (hm : s.tape.mode ≠ .save) : leaveSave s = complete .done s := if_neg hm

theorem enterLoad_ignored (hm : s.tape.mode ≠ .passive) : enterLoad tact s = complete .done s := if_pos hm

theorem enterLoad_emptyBlock (hm : s.tape.mode = .passive) (he : HasEmptyBlock s.tape.image) :
    enterLoad tact s = raise .tapeEmptyBlock s := by
  rw [enterLoad, if_neg (not_not_intro hm), if_pos ((hasEmptyBlock_iff _).mpr he)]

/-- The block a restart begins with: block 0 of a finished tape, else the current one (R276). -/
theorem restartFinished_blockIndex (t : TapeUnit) :
    t.restartFinished.blockIndex = if t.blockIndex < t.image.length then t.blockIndex else 0 := by
  simp only [TapeUnit.restartFinished, ← Nat.not_lt, ite_not]

/-- An image without blocks is entered as played to its end. -/
theorem enterLoad_emptyTape (hm : s.tape.mode = .passive) (hi : s.tape.image = []) :
    enterLoad tact s = complete .done ((s.setTape { s.tape with
      mode := .load, blockIndex := 0, playerCompleted := true, initialised := false }).emit [.enteredLoad]) := by
  have he : s.tape.hasEmptyBlock = false := by simp [TapeUnit.hasEmptyBlock, hi]
  have h0 : s.tape.restartFinished = { s.tape with blockIndex := 0 } := by simp [TapeUnit.restartFinished, hi]
  rw [enterLoad, if_neg (not_not_intro hm), if_neg (Bool.eq_false_iff.mp he), h0]
  exact if_pos hi

/-- Otherwise the block at the restarted tape's cursor is started by `InitBlock`. -/
theorem enterLoad_playing {b : TapeBlock} (hm : s.tape.mode = .passive) (he : ¬ HasEmptyBlock s.tape.image)
    (hb : s.tape.image[s.tape.restartFinished.blockIndex]? = some b) :
    enterLoad tact s = complete .done
      ((s.setTape (s.tape.loaded s.tape.restartFinished.blockIndex b tact)).emit [.enteredLoad]) := by
  have hmem : b ∈ s.tape.image := List.mem_of_getElem? hb
  have hd : b.data ≠ [] := fun hd => he ⟨b, hmem, hd⟩
  have hinit := initBlock_some tact (t := { s.tape.restartFinished with mode := .load, playerCompleted := false }) hb hd
  rw [enterLoad, if_neg (not_not_intro hm), if_neg (Bool.eq_false_iff.mp ((hasEmptyBlock_eq_false _).mpr he))]
  simp only [hinit]
  exact if_neg (List.ne_nil_of_mem hmem)

end DirectOperations

/-- Settles O43: each transition is taken in its mode and ignored in the others. -/
theorem leaveAndEntersave : Obligations.LeaveAndEntersave := fun _ _ hr =>
  ⟨fun hm => (exec_tapeLeaveload hr).trans (leaveLoad_load hm),
    fun hm => (exec_tapeLeaveload hr).trans (leaveLoad_ignored hm),
    fun hm => (exec_tapeEntersave hr).trans (enterSave_passive hm),
    fun hm => (exec_tapeEntersave hr).trans (enterSave_ignored hm),
    fun hm => (exec_tapeLeavesave hr).trans (leaveSave_save hm),
    fun hm => (exec_tapeLeavesave hr).trans (leaveSave_ignored hm)⟩

/-- Settles O42: the branches of `EnterLoad` in the order of R276. -/
theorem enterloadStartsTape : Obligations.EnterloadStartsTape := by
  intro s tact hr
  have hexec : exec (.tapeEnterload tact) s = enterLoad tact s := exec_tapeEnterload hr
  refine ⟨fun hm => hexec.trans (enterLoad_ignored hm), fun hm he => hexec.trans (enterLoad_emptyBlock hm he),
    fun hm hi => hexec.trans (enterLoad_emptyTape hm hi), fun hm he => ?_⟩
  intro k b hb
  have hk : s.tape.restartFinished.blockIndex = k := restartFinished_blockIndex s.tape
  rw [← hk] at hb ⊢
  exact hexec.trans (enterLoad_playing hm he hb)

/-! ### TAPE.SETMODE (R274, R275) -/

section Setmode
variable {s : State} {pc : Addr} {tact : Nat} (hr : TapeReady s)
include hr

/-- In `Passive` the two entry hooks are examined, the load hook first. -/
theorem exec_tapeSetmode_passive (hm : s.tape.mode = .passive) :
    exec (.tapeSetmode pc tact) s =
      if pc = s.params.loadHook then if s.params.fastLoadEnabled then fastLoad s else enterLoad tact s
      else if pc = s.params.saveHook then enterSave tact s
      else complete .done s :=
  (guardTape_ready hr _).trans (by rw [hm])

/-- In `Load` the tape's end and the error hook are examined. -/
theorem exec_tapeSetmode_load (hm : s.tape.mode = .load) :
    exec (.tapeSetmode pc tact) s =
      if s.tape.playerCompleted = true ∨ pc = s.params.errorHook then leaveLoad s else complete .done s :=
  (guardTape_ready hr _).trans (by rw [hm])

/-- In `Save` the error hook and the inactivity limit are examined. -/
theorem exec_tapeSetmode_save (hm : s.tape.mode = .save) :
    exec (.tapeSetmode pc tact) s =
      if pc = s.params.errorHook ∨ s.tape.save.lastActivityTact + 17500000 ≤ tact then leaveSave s
      else complete .done s :=
  (guardTape_ready hr _).trans (by rw [hm]; rfl)

end Setmode

/-- TAPE.FASTLOAD where the facility is there. -/
theorem exec_tapeFastload {s : State} {tact : Nat} (hf : s.params.fastLoadEnabled = true) (hr : TapeReady s) :
    exec (.tapeFastload tact) s = fastLoad s :=
  (if_pos hf).trans (guardTape_ready hr _)

/-- Settles O44: the tests of the mode, each decided by its case. -/
theorem setmodeActsByMode : Obligations.SetmodeActsByMode := by
  intro s pc tact hr
  refine ⟨fun hm hpc hf => ?_, fun hm hpc hf => ?_, fun hm hload hsave => ?_, fun hm hload hsave => ?_,
    fun hm h => ?_, fun hm hc hpc => ?_, fun hm h => ?_, fun hm hpc ht => ?_⟩
  · rw [exec_tapeSetmode_passive hr hm, if_pos hpc, hf, exec_tapeEnterload hr]; rfl
  · rw [exec_tapeSetmode_passive hr hm, if_pos hpc, if_pos hf, exec_tapeFastload hf hr]
  · rw [exec_tapeSetmode_passive hr hm, if_neg hload, if_pos hsave, exec_tapeEntersave hr]
  · rw [exec_tapeSetmode_passive hr hm, if_neg hload, if_neg hsave]; rfl
  · rw [exec_tapeSetmode_load hr hm, if_pos h]; exact leaveLoad_load hm
  · rw [exec_tapeSetmode_load hr hm, if_neg (not_or_intro (Bool.eq_false_iff.mp hc) hpc)]; rfl
  · rw [exec_tapeSetmode_save hr hm, if_pos h]; exact leaveSave_save hm
  · rw [exec_tapeSetmode_save hr hm, if_neg (not_or_intro hpc (Nat.not_le.mpr ht))]; rfl

end Sys2Proof.Machine
end

section
/-! PROOF. The statement about TAPE.FASTLOAD (44_tape_mode R285 to R287): what the copied body leaves in the host's
memory, and the whole next state. -/

namespace Sys2Proof.Machine

open Sys2Proof Sys2Proof.Spec

/-! ### The body's bytes and the checksum -/

/-- What the copy leaves at every address: a body of at most 65536 bytes writes no address twice, also past the wrap. -/
theorem read_copyBody (m : Memory) (a b : Addr) {vs : List Byte} (h : vs.length ≤ 65536) :
    (copyBody m a vs).read b.toNat =
      if (b - a).toNat < vs.length then vs.getD (b - a).toNat 0 else m.read b.toNat := by
  induction vs generalizing m a with
  | nil => rfl
  | cons v vs ih =>
    rw [List.length_cons] at h ⊢
    rw [copyBody, ih _ _ (by omega), Memory.read_write]
    by_cases hab : b = a
    · subst hab
      have hlast : ¬ (b - (b + 1)).toNat < vs.length := by bv_omega
      rw [if_neg hlast, if_pos rfl, BitVec.sub_self]
      rfl
    · have hnat : ¬ b.toNat = a.toNat := fun h => hab (BitVec.eq_of_toNat_eq h)
      have hnext : (b - a).toNat = (b - (a + 1)).toNat + 1 := by bv_omega
      simp only [if_neg hnat, hnext, List.getD_cons_succ, Nat.add_lt_add_iff_right]

/-- The copy reaches the 65536 addresses of the host only. -/
theorem read_copyBody_above (m : Memory) (a : Addr) (vs : List Byte) {n : Nat} (hn : 65536 ≤ n) :
    (copyBody m a vs).read n = m.read n := by
  induction vs generalizing m a with
  | nil => rfl
  | cons v vs ih =>
    have ha : n ≠ a.toNat := by have := a.isLt; omega
    rw [copyBody, ih, Memory.read_write_other _ _ ha]

/-- The callbacks of the copy: one write per byte, at ascending addresses. -/
theorem copyCalls_eq_map (a : Addr) (vs : List Byte) :
    copyCalls a vs = (List.range vs.length).map fun j => .memWrite (a + BitVec.ofNat 16 j) (vs.getD j 0) := by
  induction vs generalizing a with
  | nil => rfl
  | cons v vs ih =>
    have hnext (j : Nat) : a + 1#16 + BitVec.ofNat 16 j = a + BitVec.ofNat 16 (j + 1) := by bv_omega
    simp [copyCalls, ih, List.range_succ_eq_map, hnext]

theorem xorOf_eq_xorBytes (bs : List Byte) : xorOf bs = xorBytes bs := by
  have hfold (x : Byte) : bs.foldl (· ^^^ ·) x = x ^^^ xorBytes bs := by
    induction bs generalizing x with
    | nil => exact (BitVec.xor_zero).symm
    | cons b bs ih => rw [List.foldl_cons, ih, xorBytes, BitVec.xor_assoc]
  exact (hfold 0).trans BitVec.zero_xor

/-- The block has a checksum byte and the XOR of flag, body and checksum is `x` (R285). -/
def checksumIs (de : BitVec 16) (d : List Byte) (x : Byte) : Bool :=
  decide (de.toNat + 2 ≤ d.length) && xorBytes (d.take (de.toNat + 2)) == x

theorem fastLoadFlags_eq (de : BitVec 16) (d : List Byte) :
    fastLoadFlags de d = (checksumIs de d 0, checksumIs de d 1) := by
  by_cases h : de.toNat + 2 ≤ d.length <;> simp [fastLoadFlags, checksumIs, h, xorOf_eq_xorBytes]

/-! ### The body of a block -/

/-- The bytes after the type byte that are copied (R285). -/
def bodyOf (de : BitVec 16) (d : List Byte) : List Byte := (d.drop 1).take (bodyLength de d)

theorem length_bodyOf (de : BitVec 16) (d : List Byte) : (bodyOf de d).length = bodyLength de d := by
  simp [bodyOf, bodyLength]

theorem bodyOf_getD {de : BitVec 16} {d : List Byte} {j : Nat} (h : j < bodyLength de d) :
    (bodyOf de d).getD j 0 = d.getD (1 + j) 0 := by
  simp [bodyOf, List.getD_eq_getElem?_getD, h, Nat.add_comm]

theorem bodyLength_le (de : BitVec 16) (d : List Byte) : bodyLength de d ≤ de.toNat := Nat.min_le_left ..

theorem read_copyBody_bodyOf (m : Memory) (ix a : Addr) (de : BitVec 16) (d : List Byte) :
    (copyBody m ix (bodyOf de d)).read a.toNat =
      if (a - ix).toNat < bodyLength de d then d.getD (1 + (a - ix).toNat) 0 else m.read a.toNat := by
  have hlen : (bodyOf de d).length ≤ 65536 := by
    have := bodyLength_le de d; have := de.isLt; rw [length_bodyOf]; omega
  rw [read_copyBody m ix a hlen, length_bodyOf]
  exact ite_congr rfl bodyOf_getD fun _ => rfl

theorem copyCalls_bodyOf (ix : Addr) (de : BitVec 16) (d : List Byte) :
    copyCalls ix (bodyOf de d) =
      (List.range (bodyLength de d)).map fun j => .memWrite (ix + BitVec.ofNat 16 j) (d.getD (1 + j) 0) := by
  rw [copyCalls_eq_map, length_bodyOf]
  exact List.map_congr_left fun j hj => by rw [bodyOf_getD (List.mem_range.mp hj)]

/-- What is left of DE: no borrow. -/
theorem de_sub_bodyLength (de : BitVec 16) (d : List Byte) :
    de - BitVec.ofNat 16 (bodyLength de d) = BitVec.ofNat 16 (de.toNat - bodyLength de d) := by
  have := bodyLength_le de d
  bv_omega

/-! ### `FastLoad` (R285) -/

section FastLoad
variable {s : State}

theorem fastLoad_noBlock (h : s.tape.image.length ≤ s.tape.blockIndex) : fastLoad s = complete .done s := by
  rw [fastLoad, List.getElem?_eq_none h]

theorem advance_eq {t : TapeUnit} (h : t.blockIndex < t.image.length) :
    t.advance = { t with
      blockIndex := t.blockIndex + 1
      initialised := false
      playerCompleted := t.playerCompleted || decide (t.blockIndex + 1 = t.image.length) } := by
  have hend : t.image.length ≤ t.blockIndex + 1 ↔ t.blockIndex + 1 = t.image.length := by omega
  by_cases hc : t.blockIndex + 1 = t.image.length <;> simp [TapeUnit.advance, hend, hc]

variable {b : TapeBlock} (hb : s.tape.image[s.tape.blockIndex]? = some b)
include hb

theorem fastLoad_mismatch (hd : b.data.head? ≠ some (s.host.cpu.get8 s.params.fastLoadTypeReg)) :
    fastLoad s =
      completeWith .done
        [.regGet (.reg8 s.params.fastLoadTypeReg), .setFlags false false, .setPc s.params.loadMismatch]
        ((s.setTape s.tape.advance).setHost (fastLoadMismatch s.params s.host)) := by
  simp only [fastLoad, hb, if_neg hd]

theorem fastLoad_match (hd : b.data.head? = some (s.host.cpu.get8 s.params.fastLoadTypeReg)) :
    fastLoad s =
      completeWith .done
        (.regGet (.reg8 s.params.fastLoadTypeReg) :: fastLoadCopyCalls s.params b.data s.host)
        ((s.setTape s.tape.advance).setHost (fastLoadCopy s.params b.data s.host)) := by
  simp only [fastLoad, hb, if_pos hd]

end FastLoad

/-- The host after the copy, in the words of R285. -/
theorem fastLoadCopy_eq (p : Params) (d : List Byte) (h : HostWorld) :
    fastLoadCopy p d h = { h with
      mem := copyBody h.mem h.cpu.ix (bodyOf h.cpu.de d)
      cpu := { h.cpu with
        ix := h.cpu.ix + BitVec.ofNat 16 (bodyLength h.cpu.de d)
        de := BitVec.ofNat 16 (h.cpu.de.toNat - bodyLength h.cpu.de d)
        carry := checksumIs h.cpu.de d 0
        zero := checksumIs h.cpu.de d 1
        pc := p.loadResume } } := by
  simp only [fastLoadCopy, HostCpu.setFlags, fastLoadFlags_eq, de_sub_bodyLength, bodyOf]

/-- The callbacks of the copy, in the words of R285. -/
theorem fastLoadCopyCalls_eq (p : Params) (d : List Byte) (h : HostWorld) :
    fastLoadCopyCalls p d h =
      [.regGet .de, .regGet .ix] ++
        (List.range (bodyLength h.cpu.de d)).map
          (fun j => .memWrite (h.cpu.ix + BitVec.ofNat 16 j) (d.getD (1 + j) 0)) ++
        [.regSet .ix (h.cpu.ix + BitVec.ofNat 16 (bodyLength h.cpu.de d)),
          .regSet .de (BitVec.ofNat 16 (h.cpu.de.toNat - bodyLength h.cpu.de d)),
          .setFlags (checksumIs h.cpu.de d 0) (checksumIs h.cpu.de d 1), .setPc p.loadResume] := by
  simp only [fastLoadCopyCalls, fastLoadFlags_eq, de_sub_bodyLength, ← copyCalls_bodyOf, bodyOf]

/-- Settles O45: the three outcomes of `FastLoad`; the copied bytes are read back by `read_copyBody`. -/
theorem fastloadCopiesBlock : Obligations.FastloadCopiesBlock := by
  intro s tact hf hr p cpu
  have hexec : exec (.tapeFastload tact) s = fastLoad s := exec_tapeFastload hf hr
  refine ⟨fun hk => hexec.trans (fastLoad_noBlock hk), fun b hb => ?_⟩
  intro tape k
  have hadvance : s.tape.advance = tape := advance_eq (List.getElem?_eq_some_iff.mp hb).1
  refine ⟨fun hd => ?_, fun hd => ?_⟩
  · rw [hexec, fastLoad_mismatch hb hd, hadvance]
    rfl
  · refine ⟨copyBody s.host.mem cpu.ix (bodyOf cpu.de b.data), ?_,
      fun a => read_copyBody_bodyOf s.host.mem cpu.ix a cpu.de b.data,
      fun n hn => read_copyBody_above s.host.mem cpu.ix (bodyOf cpu.de b.data) hn⟩
    rw [hexec, fastLoad_match hb hd, hadvance, fastLoadCopy_eq, fastLoadCopyCalls_eq]
    rfl

end Sys2Proof.Machine
end

section
/-! PROOF. The statements about the floppy byte protocol (45_fdc_protocol): one FDC.WRITE and one FDC.READ, by the phase
they find. -/

namespace Sys2Proof.Machine

open Sys2Proof Sys2Proof.Spec

/-! ### The stored tests of a phase (R300) -/

section Tests
variable {f : FdcState} {ph : FdcPhase} (h : f.inPhase ph)
include h

theorem executionStatus_of_inPhase : f.executionStatus = ph.row.2.1 := congrArg (fun row => row.2.1) h
theorem dio_of_inPhase : f.dio = ph.row.2.2.1 := congrArg (fun row => row.2.2.1) h

end Tests

/-! ### A byte received (R304, R308) -/

/-- The data byte `b` stored at the cursor. -/
def dataStored (f : FdcState) (b : Byte) : FdcState :=
  { f with pendingDataBytes := f.pendingDataBytes.set f.dataCursor b, dataCursor := f.dataCursor + 1 }

/-- The command of the byte `b` taken up, none of its parameters received. -/
def commandTaken (f : FdcState) (b : Byte) : FdcState :=
  { f with activeCommand := (fdcDecode b).1, paramsReceived := 0 }

/-- The parameter byte `b` stored in register `k`, which is the last one received. -/
def paramStored (f : FdcState) (k : Fin 8) (b : Byte) : FdcState :=
  { f with params := f.params.set k.val b k.isLt, paramsReceived := k.val + 1 }

/-- A command with parameters is one of the nine: the absorbed byte has none (R105). -/
theorem fdcDecode_ne_none_of_count {b : Byte} (h : (fdcDecode b).2 ≠ 0) : (fdcDecode b).1 ≠ .none := by
  intro hc
  rw [fdcDecode_count, hc] at h
  exact h rfl

section Receive
variable {p : Params} {b : Byte} {f : FdcState} {d : Option Disk}

theorem receiveData_last (h : f.dataCursor + 1 = f.dataLen) :
    receiveData p b (f, d) = writeDataFinish p (dataStored f b) d := if_pos h

theorem receiveData_more (h : f.dataCursor + 1 ≠ f.dataLen) : receiveData p b (f, d) = (dataStored f b, d) := if_neg h

theorem acceptCommandByte_absorbed (h : (fdcDecode b).1 = .none) :
    acceptCommandByte p b (f, d) = (commandTaken f b, d) := if_pos h

theorem acceptCommandByte_executed (hc : (fdcDecode b).1 ≠ .none) (h0 : (fdcDecode b).2 = 0) :
    acceptCommandByte p b (f, d) = executeCommand p (commandTaken f b) d := (if_neg hc).trans (if_pos h0)

theorem acceptCommandByte_parameters (h : (fdcDecode b).2 ≠ 0) :
    acceptCommandByte p b (f, d) =
      ({ commandTaken f b with acceptingCommand := false, mainStatusRegister := 0x90 }, d) :=
  (if_neg (fdcDecode_ne_none_of_count h)).trans (if_neg h)

/-- The register the next parameter goes to is one of the eight (R308). -/
theorem setParam_eq {k : Fin 8} (hk : f.paramsReceived = k.val) :
    { f.setParam f.paramsReceived b with paramsReceived := f.paramsReceived + 1 } = paramStored f k b := by
  simp only [FdcState.setParam, paramStored, hk, Vector.setIfInBounds, Vector.set, Array.setIfInBounds,
    Vector.size_toArray, k.isLt, dite_true]

theorem receiveParam_eq {k : Fin 8} (hk : f.paramsReceived = k.val) :
    receiveParam p b (f, d) =
      if k.val + 1 = f.activeCommand.paramCount then executeCommand p (paramStored f k b) d
      else (paramStored f k b, d) := by
  rw [receiveParam, setParam_eq hk]
  rfl

end Receive

/-! ### FDC.WRITE -/

theorem exec_fdcWrite_of_writeByte {s : State} {b : Byte} {u : Floppy}
    (h : writeByte s.params b (s.fdc, s.disk) = u) :
    exec (.fdcWrite b) s = .next { s with fdc := u.1, disk := u.2, result := .done, calls := [] } := by
  rw [← h]
  rfl

/-- Settles O46: the phase selects what the byte is, and each kind of byte has its own rule. -/
theorem fdcWriteByPhase : Obligations.FdcWriteByPhase := by
  intro s b gives
  have hgives {u : Floppy} (h : writeByte s.params b (s.fdc, s.disk) = u) : gives u := exec_fdcWrite_of_writeByte h
  refine ⟨fun hdio => hgives (writeByte_dio hdio), fun hph => ?data, fun hph => ?command, fun hph k hk => ?parameter⟩
  case data =>
    have hw := writeByte_data (p := s.params) (b := b) (d := s.disk) hph
    exact ⟨fun hlast => hgives (hw.trans (receiveData_last hlast)),
      fun hmore => hgives (hw.trans (receiveData_more hmore))⟩
  case command =>
    have hw := writeByte_idle (p := s.params) (b := b) (d := s.disk) hph
    exact ⟨fun hc => hgives (hw.trans (acceptCommandByte_absorbed hc)),
      fun hc h0 => hgives (hw.trans (acceptCommandByte_executed hc h0)),
      fun hn => hgives (hw.trans (acceptCommandByte_parameters hn))⟩
  case parameter =>
    have hw := (writeByte_params (p := s.params) (b := b) (d := s.disk) hph).trans (receiveParam_eq hk)
    exact ⟨fun hlast => hgives (hw.trans (if_pos hlast)), fun hmore => hgives (hw.trans (if_neg hmore))⟩

/-! ### A byte read (R314) -/

section Read
variable {f : FdcState} {v : Byte}

/-- Outside the two sending phases a read disturbs nothing. -/
theorem readByteOf_noDio (h : f.dio = false) : readByteOf f = (f, 0xFF, []) := by
  simp [readByteOf, h]

/-- A data byte; the last one is logged and the result follows. -/
theorem readByteOf_data (hph : f.inPhase .sendingData) (hv : f.pendingDataBytes[f.dataCursor]? = some v) :
    readByteOf f =
      if f.dataCursor + 1 = f.pendingDataBytes.length then
        ({ f with dataCursor := f.dataCursor + 1, executionStatus := false, mainStatusRegister := 0xD0 }, v,
          [.fdcDataLog f.pendingDataBytes])
      else ({ f with dataCursor := f.dataCursor + 1 }, v, []) := by
  have hdio : f.dio = true := dio_of_inPhase hph
  have hexec : f.executionStatus = true := executionStatus_of_inPhase hph
  rw [readByteOf, if_pos hdio, if_pos hexec, List.getD_eq_getElem?_getD, hv]
  rfl

/-- A result byte; the last one ends the command (R324). -/
theorem readByteOf_result (hph : f.inPhase .sendingResult) (hv : f.pendingResultBytes[f.resultCursor]? = some v) :
    readByteOf f =
      if f.resultCursor + 1 = f.pendingResultBytes.length then
        (finished { f with resultCursor := f.resultCursor + 1 }, v, [])
      else ({ f with resultCursor := f.resultCursor + 1 }, v, []) := by
  have hdio : f.dio = true := dio_of_inPhase hph
  have hexec : ¬ f.executionStatus = true := Bool.eq_false_iff.mp (executionStatus_of_inPhase hph)
  rw [readByteOf, if_pos hdio, if_neg hexec, List.getD_eq_getElem?_getD, hv]
  rfl

end Read

/-! ### FDC.READ -/

theorem exec_fdcRead_of_readByteOf {s : State} {f : FdcState} {v : Byte} {es : List Event}
    (h : readByteOf s.fdc = (f, v, es)) :
    exec .fdcRead s = .next { s with fdc := f, events := s.events ++ es, result := .byte v, calls := [] } := by
  have hexec : exec .fdcRead s = execFdcRead s := rfl
  rw [hexec, execFdcRead, h]
  rfl

theorem exec_fdcRead_of_readByteOf_silent {s : State} {f : FdcState} {v : Byte} (h : readByteOf s.fdc = (f, v, [])) :
    exec .fdcRead s = .next { s with fdc := f, result := .byte v, calls := [] } := by
  rw [exec_fdcRead_of_readByteOf h, List.append_nil]

/-- Settles O47: the byte and the next floppy state are those of `readByteOf` in the phase found. -/
theorem fdcReadByPhase : Obligations.FdcReadByPhase := by
  intro s f
  refine ⟨rfl, fun hdio => exec_fdcRead_of_readByteOf_silent (readByteOf_noDio hdio), fun hph v hv => ?data,
    fun hph v hv => ?result⟩
  case data =>
    have hread := readByteOf_data hph hv
    exact ⟨fun hmore => exec_fdcRead_of_readByteOf_silent (hread.trans (if_neg hmore.ne)),
      fun hlast => exec_fdcRead_of_readByteOf (hread.trans (if_pos hlast))⟩
  case result =>
    have hread := readByteOf_result hph hv
    exact ⟨fun hmore => exec_fdcRead_of_readByteOf_silent (hread.trans (if_neg hmore.ne)),
      fun hlast => exec_fdcRead_of_readByteOf_silent (hread.trans (if_pos hlast))⟩

end Sys2Proof.Machine
end

section
/-! PROOF. The statements about the floppy commands (46_fdc_commands), each issued where a command byte is awaited. -/

namespace Sys2Proof.Machine

open Sys2Proof Sys2Proof.Spec

/-! ### A command issued (R132, R304, R308) -/

theorem paramCount_le_eight (c : FloppyCommand) : c.paramCount ≤ 8 := by cases c <;> decide

section Issue
variable {s : State} {f : FdcState} {d : Option Disk}

theorem commandBytes_of_writeAll {bs : List Byte} (h : writeAll s.params bs (s.fdc, s.disk) = (f, d)) :
    commandBytes bs s = .next { s with fdc := f, disk := d, result := .done, calls := [] } := by
  rw [commandBytes, h]
  rfl

/-- A command with parameters runs once, when all of them are received. -/
theorem commandBytes_of_execute {cb : Byte} {cmd : FloppyCommand} {ps : List Byte} (hidle : Idle s.fdc)
    (hcb : fdcDecode cb = (cmd, ps.length)) (hps : ps ≠ [])
    (hrun : executeCommand s.params (awaiting s.fdc cmd ps) s.disk = (f, d)) :
    commandBytes (cb :: ps) s = .next { s with fdc := f, disk := d, result := .done, calls := [] } := by
  have hdec : (fdcDecode cb).2 = ps.length := congrArg Prod.snd hcb
  have hcount : cmd.paramCount = ps.length := by rw [← hdec, fdcDecode_count, hcb]
  have hnone : cmd ≠ .none := by
    have hne := fdcDecode_ne_none_of_count (b := cb) (by rw [hdec]; exact mt List.length_eq_zero_iff.1 hps)
    rwa [hcb] at hne
  have hall := writeAll_command (p := s.params) (d := s.disk) hidle hcb hcount hnone hps
    (hcount ▸ paramCount_le_eight cmd)
  exact commandBytes_of_writeAll (hall.trans hrun)

/-- A byte of no command is absorbed (R370). -/
theorem commandBytes_absorbed {b : Byte} (hidle : Idle s.fdc) (hb : fdcDecode b = (.none, 0)) :
    commandBytes [b] s = .next { s with
      fdc := { s.fdc with activeCommand := .none, paramsReceived := 0 }, result := .done, calls := [] } := by
  refine commandBytes_of_writeAll ((writeByte_idle hidle).trans ?_)
  rw [acceptCommandByte_absorbed (congrArg Prod.fst hb), commandTaken, hb]

end Issue

/-! ### The parameters of a command (R108) -/

section Parameters
variable (f : FdcState) (cmd : FloppyCommand) (p0 p1 : Byte) (ps : List Byte)

@[simp] theorem param_zero_awaiting : (awaiting f cmd (p0 :: ps)).param 0 = p0 := by
  simp [FdcState.param, awaiting, received, paramsAfter]

@[simp] theorem param_one_awaiting : (awaiting f cmd (p0 :: p1 :: ps)).param 1 = p1 := by
  simp [FdcState.param, awaiting, received, paramsAfter]

end Parameters

/-! ### What a command leaves behind its parameters

Every ending writes the protocol registers, so the ones that the parameters were awaited with do not show. -/

section Endings
variable (f : FdcState) (c h r n : Byte)

theorem standard_await (st0 st1 st2 : Byte) (data : List Byte) :
    standard { f with acceptingCommand := false, mainStatusRegister := 0x90 } st0 st1 st2 data c h r n =
      standard f st0 st1 st2 data c h r n := rfl

theorem abnormal_await :
    abnormal { f with acceptingCommand := false, mainStatusRegister := 0x90 } c h r n = abnormal f c h r n := rfl

theorem beginReceiveData_await (len : Nat) :
    FdcState.beginReceiveData { f with acceptingCommand := false, mainStatusRegister := 0x90 } len =
      receivingData f len := rfl

end Endings

/-! ### The commands that answer without reading the disk (R346 to R354) -/

theorem runSpecify_awaiting (f : FdcState) (p0 p1 : Byte) :
    runSpecify (awaiting f .specify [p0, p1]) =
      finished { received f .specify [p0, p1] with
        stepRateTime := BitVec.ofNat 4 (p0.toNat / 16)
        headUnloadTime := BitVec.ofNat 4 (p0.toNat % 16)
        headLoadTime := BitVec.ofNat 7 (p1.toNat / 2)
        nonDmaMode := decide (p1.toNat % 2 = 1) } := by
  obtain ⟨hsrt, hhut, hhlt, hnd⟩ := specify_fields p0 p1
  rw [runSpecify, param_zero_awaiting, param_one_awaiting, hsrt, hhut, hhlt, hnd]
  rfl

theorem runRecalibrate_awaiting (f : FdcState) (p0 : Byte) :
    runRecalibrate (awaiting f .recalibrate [p0]) =
      finished (positioned (selected (received f .recalibrate [p0]) p0) 0 1) := by
  rw [runRecalibrate, param_zero_awaiting]
  rfl

theorem runSeek_awaiting (f : FdcState) (p0 p1 : Byte) :
    runSeek (awaiting f .seek [p0, p1]) =
      finished (positioned (selected (received f .seek [p0, p1]) p0) (BitVec.ofNat 8 (min p1.toNat 79)) 1) := by
  rw [runSeek, param_zero_awaiting, param_one_awaiting, seekTrack_eq]
  rfl

/-- ST3 in the terms of R349. -/
theorem st3Of_eq (flags : Byte) (f : FdcState) :
    st3Of flags f.tr f.hd f.selectedDrive =
      flags ||| (if trackByte f = 0 then 0x10#8 else 0) ||| (headByte f <<< 2) ||| f.selectedDrive.setWidth 8 := by
  rw [st3Of, headDriveBits_eq, tr_eq, ← BitVec.or_assoc]
  rfl

theorem runSenseDriveStatus_awaiting (p : Params) (f : FdcState) (p0 : Byte) :
    runSenseDriveStatus p (awaiting f .senseDriveStatus [p0]) =
      let g := selected (received f .senseDriveStatus [p0]) p0
      let st3 := p.fdcSt3Flags ||| (if trackByte g = 0 then 0x10#8 else 0) ||| (headByte g <<< 2) |||
        g.selectedDrive.setWidth 8
      sending { g with st3 := st3 } [] [st3] := by
  simp only [runSenseDriveStatus, param_zero_awaiting, st3Of_eq, sendResult_eq]
  rfl

theorem runSenseInterruptStatus_eq (p : Params) (f : FdcState) :
    runSenseInterruptStatus p f =
      sending { f with st0 := st0Success p.fdcSisSt0High f } [] [st0Success p.fdcSisSt0High f, trackByte f] := by
  simp only [runSenseInterruptStatus, st0Of_eq, sendResult_eq, tr_eq]

/-- SenseInterruptStatus has no parameters, so its command byte executes it (R304). -/
theorem writeAll_senseInterruptStatus {p : Params} {f : FdcState} {d : Option Disk} (hidle : Idle f) :
    writeAll p [0x08] (f, d) = (runSenseInterruptStatus p (received f .senseInterruptStatus []), d) := by
  have hdec : fdcDecode 0x08 = (.senseInterruptStatus, 0) := by decide
  have hexec := acceptCommandByte_executed (p := p) (f := f) (d := d) (b := 0x08) (by rw [hdec]; decide) (by rw [hdec])
  rw [received, paramsAfter_nil]
  exact (writeByte_idle hidle).trans hexec

/-- Settles O50: each of the three commands runs with its parameters received; a byte of no row is absorbed. -/
theorem commandsWithoutResult : Obligations.CommandsWithoutResult := by
  intro s p0 p1 b hidle
  refine ⟨?specify, ?recalibrate, ?seek, fun hwf => commandBytes_absorbed hidle (fdcDecode_none b hwf)⟩
  case specify =>
    exact commandBytes_of_execute hidle rfl (List.cons_ne_nil _ _)
      (congrArg (·, s.disk) (runSpecify_awaiting s.fdc p0 p1))
  case recalibrate =>
    exact commandBytes_of_execute hidle rfl (List.cons_ne_nil _ _)
      (congrArg (·, s.disk) (runRecalibrate_awaiting s.fdc p0))
  case seek =>
    exact commandBytes_of_execute hidle rfl (List.cons_ne_nil _ _)
      (congrArg (·, s.disk) (runSeek_awaiting s.fdc p0 p1))

/-- Settles O51: the answer of `runSenseDriveStatus` with its parameter received, and of `runSenseInterruptStatus` at
the command byte. -/
theorem senseCommands : Obligations.SenseCommands := by
  intro s p0 hidle
  refine ⟨?drive, ?interrupt⟩
  case drive =>
    intro f st3
    exact commandBytes_of_execute hidle rfl (List.cons_ne_nil _ _)
      (congrArg (·, s.disk) (runSenseDriveStatus_awaiting s.params s.fdc p0))
  case interrupt =>
    intro f st0
    exact commandBytes_of_writeAll ((writeAll_senseInterruptStatus hidle).trans
      (congrArg (·, s.disk) (runSenseInterruptStatus_eq s.params f)))

/-! ### ReadId and ReadData (R356, R358) -/

/-- Settles O52: `runReadId` in its two outcomes, from the drive and head its parameter selects. -/
theorem readIdNamesPosition : Obligations.ReadIdNamesPosition := by
  intro s b6 p0 hidle f
  have hsel : selected (awaiting s.fdc .readId [p0]) ((awaiting s.fdc .readId [p0]).param 0) =
      selected (awaiting s.fdc .readId [p0]) p0 := by rw [param_zero_awaiting]
  have hexec {g : FdcState} (hrun : runReadId s.params (awaiting s.fdc .readId [p0]) s.disk = g) :
      exec (.fdcReadId b6 p0) s = .next { s with fdc := g, result := .done, calls := [] } :=
    commandBytes_of_execute hidle (fdcDecode_readIdByte b6) (List.cons_ne_nil _ _) (congrArg (·, s.disk) hrun)
  exact ⟨fun hoff => hexec ((runReadId_abnormal hsel hoff).trans (abnormal_await f ..)),
    fun hon _ _ _ hs => hexec ((runReadId_ok hsel hon hs).trans (standard_await f ..))⟩

/-- Settles O53: `runReadData` in its two outcomes, from the drive and head its parameters select. -/
theorem readDataSendsSector : Obligations.ReadDataSendsSector := by
  intro s hi p hidle f len error
  have hparams := rwParams_awaiting s.fdc .readData p
  have hexec {g : FdcState} (hrun : runReadData s.params (awaiting s.fdc .readData p.toBytes) s.disk = g) :
      exec (.fdcReadData hi p) s = .next { s with fdc := g, result := .done, calls := [] } :=
    commandBytes_of_execute hidle (fdcDecode_readDataByte hi) (List.cons_ne_nil _ _) (congrArg (·, s.disk) hrun)
  refine ⟨fun h => hexec ((runReadData_abnormal hparams rfl h).trans (abnormal_await f ..)),
    fun hpos herr d x0 s1 s2 hd hs => hexec ?_⟩
  have herr : diskError s.disk (headByte f).toNat p.c.toNat p.r.toNat len = none := herr
  rw [hd] at herr ⊢
  exact (runReadData_ok hparams rfl hpos herr hs).trans (standard_await { f with sectorPerDrive := _ } ..)

/-! ### FormatTrack (R362) -/

/-- The refusals of R362: no such position, a size code above 2, no sector, or more sectors than the track has. -/
def FormatRefused (q : FormatParams) (f : FdcState) (disk : Option Disk) : Prop :=
  OffDisk f disk ∨ 2 < q.n.toNat ∨ q.sc = 0 ∨ ∃ d, disk = some d ∧ d.sectorsPerTrack.toNat < q.sc.toNat

/-- `after` is `before` with the first `len` bytes of each of the `n` sectors from address `o` on filled. -/
def SectorsFilled (before after : Memory) (o n len : Nat) (fill : Byte) : Prop :=
  ∀ a, after.read a = if o ≤ a ∧ a < o + n * 512 ∧ (a - o) % 512 < len then fill else before.read a

theorem formatRefused_iff (q : FormatParams) (f : FdcState) (disk : Option Disk) :
    formatRefused q f disk = true ↔ FormatRefused q f disk := by
  unfold formatRefused FormatRefused
  rw [Bool.or_eq_true, positionOffDisk_iff]
  cases disk with
  | none => simp [OffDisk]
  | some d => simp [or_assoc]

section Format
variable {p : Params} {f g : FdcState} {q : FormatParams} (hq : f.formatParams = q) (hg : selected f q.hdUs = g)
include hq hg

/-- FormatTrack refused: it ends abnormally and writes nothing. -/
theorem runFormatTrack_abnormal {disk : Option Disk} (h : FormatRefused q g disk) :
    runFormatTrack p f disk = (abnormal g (trackByte g) (headByte g) q.sc q.n, disk) := by
  simp only [runFormatTrack, hq, selectDriveHead_eq, hg, abnormal_eq, tr_eq, hd_eq]
  exact if_pos ((formatRefused_iff q g disk).2 h)

/-- FormatTrack accepted: no sector of the loop can fail, and its writes are those of `formatSectors_ok`. -/
theorem runFormatTrack_ok {d : Disk} {x0 : BitVec 5} {s1 s2 : Byte} (h : ¬ FormatRefused q g (some d))
    (hs : rwStatus p (driveGet g.headPerDrive g.selectedDrive) q.sc = (x0, s1, s2)) :
    ∃ region, runFormatTrack p f (some d) =
        (standard g (st0Success x0 g) s1 s2 [] (trackByte g) (headByte g) q.sc q.n, some { d with region := region }) ∧
      SectorsFilled d.region region (offsetOf d (headByte g).toNat (trackByte g).toNat 1) q.sc.toNat
        (128 * 2 ^ q.n.toNat) q.d := by
  have hrefused : ¬ formatRefused q g (some d) = true := mt (formatRefused_iff q g (some d)).1 h
  have htrack : g.tr.toNat < d.tracks.toNat :=
    Nat.lt_of_not_le fun hle => h (.inl fun k hk => Option.some.inj hk ▸ .inl hle)
  have hcode : q.n.toNat ≤ 2 := Nat.le_of_not_lt fun hlt => h (.inr (.inl hlt))
  have hcount : q.sc.toNat ≤ d.sectorsPerTrack.toNat :=
    Nat.le_of_not_lt fun hlt => h (.inr (.inr (.inr ⟨d, rfl, hlt⟩)))
  have hsize : sectorSizeOf q.n = 128 * 2 ^ q.n.toNat := Nat.shiftLeft_eq ..
  have hpos : 1 ≤ 2 ^ q.n.toNat := Nat.one_le_two_pow
  have hle : 2 ^ q.n.toNat ≤ 2 ^ 2 := Nat.pow_le_pow_right (by decide) hcode
  obtain ⟨region, hwrite, hread⟩ := formatSectors_ok g.hd.toNat g.tr.toNat q.d (sectorSizeOf q.n) (by omega) (by omega)
    q.sc.toNat 1 d (Nat.le_of_lt_succ g.hd.isLt) htrack le_rfl (by omega)
  rw [hsize, ← headByte_toNat] at hread
  refine ⟨region, ?_, hread⟩
  simp only [runFormatTrack, hq, selectDriveHead_eq, hg]
  rw [if_neg hrefused, hwrite]
  exact congrArg (·, _) (standardResult_eq hs [] _ _ _ _)

end Format

/-- Settles O54: `runFormatTrack` refused and accepted, from the drive and head its parameters select. -/
theorem formatTrackFillsSectors : Obligations.FormatTrackFillsSectors := by
  intro s b6 b1 p hidle hwf f refused
  have hparams := formatParams_awaiting s.fdc .formatTrack p
  have hdec : fdcDecode (formatTrackByte b6 b1) = (.formatTrack, p.toBytes.length) :=
    fdcDecode_formatTrackByte b6 b1 (not_and_or.2 (by simpa [Instr.wellFormed] using hwf))
  have hexec {g : FdcState} {k : Option Disk}
      (hrun : runFormatTrack s.params (awaiting s.fdc .formatTrack p.toBytes) s.disk = (g, k)) :
      exec (.fdcFormatTrack b6 b1 p) s = .next { s with fdc := g, disk := k, result := .done, calls := [] } :=
    commandBytes_of_execute hidle hdec (List.cons_ne_nil _ _) hrun
  refine ⟨fun h => hexec (runFormatTrack_abnormal hparams rfl h), fun h d _ _ _ hd hs => ?_⟩
  have h : ¬ FormatRefused p f s.disk := h
  rw [hd] at h hexec
  obtain ⟨region, hrun, hread⟩ := runFormatTrack_ok hparams rfl h hs
  exact ⟨region, hexec hrun, hread⟩

/-! ### WriteData (R366, R367) -/

/-- The last data byte ends WriteData with the buffer that it completes. -/
theorem exec_fdcWrite_lastByte {s : State} {b : Byte} {g : FdcState} {d : Option Disk}
    (hph : s.fdc.inPhase .receivingData) (hlast : s.fdc.dataCursor + 1 = s.fdc.dataLen)
    (hrun : writeDataFinish s.params (dataStored s.fdc b) s.disk = (g, d)) :
    exec (.fdcWrite b) s = .next { s with fdc := g, disk := d, result := .done, calls := [] } :=
  exec_fdcWrite_of_writeByte (((writeByte_data hph).trans (receiveData_last hlast)).trans hrun)

/-- Settles O55: the start in its two outcomes, and the end in its two outcomes. -/
theorem writeDataWritesSector : Obligations.WriteDataWritesSector := by
  intro s
  refine ⟨fun hi p hidle => ?start, fun b hph hlast => ?finish⟩
  case start =>
    intro f len error
    have hparams := rwParams_awaiting s.fdc .writeData p
    have hexec {g : FdcState} (hrun : runWriteData (awaiting s.fdc .writeData p.toBytes) s.disk = g) :
        exec (.fdcWriteData hi p) s = .next { s with fdc := g, result := .done, calls := [] } :=
      commandBytes_of_execute hidle (fdcDecode_writeDataByte hi) (List.cons_ne_nil _ _) (congrArg (·, s.disk) hrun)
    exact ⟨fun h => hexec ((runWriteData_abnormal hparams rfl h).trans (abnormal_await f ..)),
      fun hpos herr => hexec ((runWriteData_ok hparams rfl hpos herr).trans (beginReceiveData_await f len))⟩
  case finish =>
    intro p buffer f error
    refine ⟨fun herr => exec_fdcWrite_lastByte hph hlast (writeDataFinish_abnormal (f := f) herr),
      fun herr d x0 s1 s2 hd hs => ⟨d.region.writeBytes (offsetOf d (headByte f).toNat p.c.toNat p.r.toNat) buffer,
        exec_fdcWrite_lastByte hph hlast ?_, writeBytes_stored _ _ _⟩⟩
    have herr : diskError s.disk (headByte f).toNat p.c.toNat p.r.toNat buffer.length = none := herr
    rw [hd] at herr ⊢
    exact writeDataFinish_ok (f := f) herr hs

end Sys2Proof.Machine
end

section
/-! PROOF. The statements about the disk store (47_disk_image): attaching an image, reading and writing sectors, and the
round trip over the full geometry. Reading and writing have two rules each, one for the requests that R404 refuses and
one for the others; everything about sectors is said with them. -/

namespace Sys2Proof.Machine

open Sys2Proof Sys2Proof.Spec

/-! ### Attaching an image (R394, R396) -/

/-- A region made of an image holds the image's bytes and R394's zero fill after them. -/
theorem read_ofBytes_zero (bs : List Byte) (a : Nat) : (Memory.ofBytes 0 bs).read a = bs.getD a 0 := by
  rw [Memory.read_ofBytes, List.getD_eq_getElem?_getD]
  split
  case isTrue h => simp [List.getElem?_eq_getElem (show a < bs.length by omega)]
  case isFalse h => rw [List.getElem?_eq_none (by omega)]; rfl

theorem exec_dskOpen_of_error {image : List Byte} {e : OpError} (he : openError image = some e) (s : State) :
    exec (.dskOpen image) s = .next { s with result := .error e, calls := [] } := by
  have hexec : exec (.dskOpen image) s = execDskOpen image s := rfl
  rw [hexec, execDskOpen, openImage_spec, he]
  rfl

theorem exec_dskOpen_of_no_error {image : List Byte} (he : openError image = none) (s : State) :
    exec (.dskOpen image) s =
      .next { s with disk := some (Disk.ofImage image), result := .done, calls := [] } := by
  have hexec : exec (.dskOpen image) s = execDskOpen image s := rfl
  rw [hexec, execDskOpen, openImage_spec, he]
  rfl

/-- Settles O57: both operations attach the region made of an image, the header alone or the image given. -/
theorem diskAttaches : Obligations.DiskAttaches := fun s image =>
  ⟨⟨Memory.ofBytes 0 diskHeader, rfl, Memory.wf_ofBytes _, read_ofBytes_zero _⟩,
    fun _ he => exec_dskOpen_of_error he s,
    fun he => ⟨Memory.ofBytes 0 image, exec_dskOpen_of_no_error he s, Memory.wf_ofBytes _, read_ofBytes_zero _⟩⟩

/-! ### Reading and writing a sector (R398, R400, R404) -/

section Requests
variable {s : State} {d : Disk} {head track sector length : Nat} {data : List Byte} {e : OpError}

theorem exec_dskRead_of_error (he : diskError s.disk head track sector length = some e) :
    exec (.dskRead head track sector length) s = .next { s with result := .error e, calls := [] } := by
  have hexec : exec (.dskRead head track sector length) s = execDskRead head track sector length s := rfl
  rw [hexec, execDskRead, diskRead, diskCheck_error he]
  rfl

theorem exec_dskWrite_of_error (he : diskError s.disk head track sector data.length = some e) :
    exec (.dskWrite head track sector data) s = .next { s with result := .error e, calls := [] } := by
  have hexec : exec (.dskWrite head track sector data) s = execDskWrite head track sector data s := rfl
  rw [hexec, execDskWrite, diskWrite, diskCheck_error he]
  rfl

theorem exec_dskRead_of_disk (hd : s.disk = some d) (he : diskError (some d) head track sector length = none) :
    exec (.dskRead head track sector length) s = .next { s with
      result := .bytes (d.region.readBytes (offsetOf d head track sector) length), calls := [] } := by
  have hexec : exec (.dskRead head track sector length) s = execDskRead head track sector length s := rfl
  have hcheck : diskCheck s.disk head track sector length = .ok d := hd ▸ diskCheck_ok he
  rw [hexec, execDskRead, diskRead, hcheck, ← offset_eq]
  rfl

theorem exec_dskWrite_of_disk (hd : s.disk = some d)
    (he : diskError (some d) head track sector data.length = none) :
    exec (.dskWrite head track sector data) s = .next { s with
      disk := some { d with region := d.region.writeBytes (offsetOf d head track sector) data }
      result := .done, calls := [] } := by
  have hexec : exec (.dskWrite head track sector data) s = execDskWrite head track sector data s := rfl
  have hcheck : diskCheck s.disk head track sector data.length = .ok d := hd ▸ diskCheck_ok he
  rw [hexec, execDskWrite, diskWrite, hcheck, ← offset_eq]
  rfl

end Requests

/-- Settles O58: the two rules of each operation, the bytes read and stored in the words of the statement. -/
theorem diskReadsAndWrites : Obligations.DiskReadsAndWrites := by
  intro s head track sector length data
  refine ⟨fun _ he => exec_dskRead_of_error he, fun _ he => exec_dskWrite_of_error he,
    fun d hd => ⟨fun he => ?read, fun he => ?write⟩⟩ <;> rw [hd] at he
  case read =>
    rw [← readBytes_eq]
    exact exec_dskRead_of_disk hd he
  case write =>
    exact ⟨_, exec_dskWrite_of_disk hd he, writeBytes_stored _ _ _⟩

/-! ### The full geometry (R402, R408) -/

/-- A sector of the full geometry: two heads, 40 tracks, sectors 1 to 9 (R404). -/
structure OnGeometry (head track sector : Nat) : Prop where
  head : head ≤ 1
  track : track < 40
  first : 1 ≤ sector
  last : sector ≤ 9

/-- What R402 and R404 read of a disk of the fixed geometry. -/
def FixedGeometry (d : Disk) : Prop := d.tracks.toNat = 40 ∧ d.sectorsPerTrack.toNat = 9

theorem DiskInv.fixedGeometry {d : Disk} (h : DiskInv d) : FixedGeometry d := by
  obtain ⟨_, htracks, hsectors⟩ := h.geometry
  exact ⟨congrArg BitVec.toNat htracks, congrArg BitVec.toNat hsectors⟩

namespace FixedGeometry
variable {d : Disk} {head track sector n : Nat} (hd : FixedGeometry d)
include hd

/-- The bytes of the region do not bear on the geometry. -/
theorem withRegion (region : Memory) : FixedGeometry { d with region := region } := hd

theorem offsetOf_eq : offsetOf d head track sector = sectorOffset head track sector := by
  obtain ⟨ht, hs⟩ := hd
  rw [offsetOf, sectorOffset, ht, hs]
  omega

/-- R404's checks with the geometry's numbers. -/
theorem diskError_eq : diskError (some d) head track sector n =
    if 2 ≤ head then some (.diskDomainError .head)
    else if ¬ track < 40 then some (.diskDomainError .track)
    else if ¬ (1 ≤ sector ∧ sector ≤ 9) then some (.diskDomainError .sector)
    else if ¬ (1 ≤ n ∧ n ≤ 512) then some (.diskDomainError .length)
    else none := by
  obtain ⟨ht, hs⟩ := hd
  rw [diskError, ht, hs]

theorem diskError_none (hg : OnGeometry head track sector) (h1 : 1 ≤ n) (h512 : n ≤ 512) :
    diskError (some d) head track sector n = none := by
  rw [hd.diskError_eq, if_neg (by have := hg.head; omega), if_neg (not_not.2 hg.track),
    if_neg (not_not.2 ⟨hg.first, hg.last⟩), if_neg (not_not.2 ⟨h1, h512⟩)]

theorem diskError_head (hh : 2 ≤ head) :
    diskError (some d) head track sector n = some (.diskDomainError .head) := by
  rw [hd.diskError_eq, if_pos hh]

theorem diskError_track (hh : head ≤ 1) (ht : 40 ≤ track) :
    diskError (some d) head track sector n = some (.diskDomainError .track) := by
  rw [hd.diskError_eq, if_neg (by omega), if_pos (by omega)]

theorem diskError_sector (hh : head ≤ 1) (ht : track < 40) (hs : sector < 1 ∨ 9 < sector) :
    diskError (some d) head track sector n = some (.diskDomainError .sector) := by
  rw [hd.diskError_eq, if_neg (by omega), if_neg (not_not.2 ht), if_pos (by omega)]

end FixedGeometry

/-- Two sectors of the geometry do not overlap: each lies whole before or whole after the other (R408). -/
theorem sectorOffset_apart {h t k h' t' k' : Nat} (hg : OnGeometry h t k) (hg' : OnGeometry h' t' k')
    (hne : (h', t', k') ≠ (h, t, k)) :
    sectorOffset h' t' k' + 512 ≤ sectorOffset h t k ∨ sectorOffset h t k + 512 ≤ sectorOffset h' t' k' := by
  obtain ⟨_, _, _, _⟩ := hg
  obtain ⟨_, _, _, _⟩ := hg'
  have hne : ¬ (h' = h ∧ t' = t ∧ k' = k) := fun ⟨a, b, c⟩ => hne (by rw [a, b, c])
  unfold sectorOffset
  omega

/-- What is written to a sector leaves what is read from another one as it was. -/
theorem readBytes_writeBytes_otherSector {h t k h' t' k' n : Nat} {data : List Byte} (m : Memory)
    (hg : OnGeometry h t k) (hg' : OnGeometry h' t' k') (hne : (h', t', k') ≠ (h, t, k))
    (hdata : data.length ≤ 512) (hn : n ≤ 512) :
    (m.writeBytes (sectorOffset h t k) data).readBytes (sectorOffset h' t' k') n =
      m.readBytes (sectorOffset h' t' k') n := by
  apply Memory.readBytes_writeBytes_outside
  have := sectorOffset_apart hg hg' hne
  omega

theorem exec_dskRead_onGeometry {s : State} {d : Disk} {head track sector n : Nat} (hs : s.disk = some d)
    (hd : FixedGeometry d) (hg : OnGeometry head track sector) (h1 : 1 ≤ n) (h512 : n ≤ 512) :
    exec (.dskRead head track sector n) s = .next { s with
      result := .bytes (d.region.readBytes (sectorOffset head track sector) n), calls := [] } := by
  rw [exec_dskRead_of_disk hs (hd.diskError_none hg h1 h512), hd.offsetOf_eq]

theorem exec_dskWrite_onGeometry {s : State} {d : Disk} {head track sector : Nat} {data : List Byte}
    (hs : s.disk = some d) (hd : FixedGeometry d) (hg : OnGeometry head track sector) (h1 : 1 ≤ data.length)
    (h512 : data.length ≤ 512) :
    exec (.dskWrite head track sector data) s = .next { s with
      disk := some { d with region := d.region.writeBytes (sectorOffset head track sector) data }
      result := .done, calls := [] } := by
  rw [exec_dskWrite_of_disk hs (hd.diskError_none hg h1 h512), hd.offsetOf_eq]

/-- Settles O59: the write and the reads after it are memory accesses at the sectors' offsets, which lie apart; the
requests outside the geometry each fail R404's check of one field. -/
theorem diskRoundTrip : Obligations.DiskRoundTrip := by
  intro s d head track sector data hs hinv hhead htrack hfirst hlast h1 h512
  have hd := hinv.fixedGeometry
  have hg : OnGeometry head track sector := ⟨hhead, htrack, hfirst, hlast⟩
  let d' : Disk := { d with region := d.region.writeBytes (sectorOffset head track sector) data }
  have hd' : FixedGeometry d' := hd.withRegion _
  refine ⟨⟨_, _, exec_dskWrite_onGeometry hs hd hg h1 h512, exec_dskRead_onGeometry (d := d') rfl hd' hg h1 h512,
    ?sameSector, ?otherSectors, d', rfl, writeBytes_stored _ _ _⟩, ?outOfRange⟩
  case sameSector =>
    exact congrArg OpResult.bytes (Memory.readBytes_writeBytes_self _ _ _)
  case otherSectors =>
    intro head' track' sector' n hhead' htrack' hfirst' hlast' hn1 hn512 hne
    have hg' : OnGeometry head' track' sector' := ⟨hhead', htrack', hfirst', hlast'⟩
    exact ⟨_, _, exec_dskRead_onGeometry hs hd hg' hn1 hn512, exec_dskRead_onGeometry (d := d') rfl hd' hg' hn1 hn512,
      congrArg OpResult.bytes (readBytes_writeBytes_otherSector _ hg hg' hne h512 hn512)⟩
  case outOfRange =>
    have track40 := hd.diskError_track (sector := sector) (n := data.length) hhead (Nat.le_refl 40)
    have sector0 := hd.diskError_sector (n := data.length) hhead htrack (.inl Nat.zero_lt_one)
    have sector10 := hd.diskError_sector (n := data.length) hhead htrack (.inr (Nat.lt_succ_self 9))
    have head2 := hd.diskError_head (track := track) (sector := sector) (n := data.length) (Nat.le_refl 2)
    rw [← hs] at track40 sector0 sector10 head2
    intro i field hmem
    simp only [List.mem_cons, Prod.mk.injEq, List.not_mem_nil, or_false] at hmem
    rcases hmem with ⟨rfl, rfl⟩ | ⟨rfl, rfl⟩ | ⟨rfl, rfl⟩ | ⟨rfl, rfl⟩ | ⟨rfl, rfl⟩ | ⟨rfl, rfl⟩ | ⟨rfl, rfl⟩ |
      ⟨rfl, rfl⟩
    · exact exec_dskRead_of_error track40
    · exact exec_dskRead_of_error sector0
    · exact exec_dskRead_of_error sector10
    · exact exec_dskRead_of_error head2
    · exact exec_dskWrite_of_error track40
    · exact exec_dskWrite_of_error sector0
    · exact exec_dskWrite_of_error sector10
    · exact exec_dskWrite_of_error head2

end Sys2Proof.Machine
end

section
/-! PROOF. The statement about errors (60_exceptions R422): an operation that raises leaves the state before it, with the
error as its result.

The one idea: an operation ends either with `raise` on the state it began in, or with a result that is no error. So an
error among the results names the first end, and the next state is that of `raise`. -/

namespace Sys2Proof.Machine

open Sys2Proof

/-- The next state `t` of an operation begun in `s`, if its result is an error, is `s` but for the answer (R422). -/
def ErrorPrecise (s t : State) : Prop := ∀ e, t.result = .error e → t = s.answer (.error e) []

/-! ### The two ends of an operation -/

theorem ErrorPrecise.of_result {s t : State} {r : OpResult} (ht : t.result = r) (hr : ∀ e, r ≠ .error e) :
    ErrorPrecise s t :=
  fun e he => absurd (ht.symm.trans he) (hr e)

theorem ErrorPrecise.of_done {s t : State} (ht : t.result = .done) : ErrorPrecise s t :=
  .of_result ht fun _ => OpResult.noConfusion

theorem ErrorPrecise.answer_error (s : State) (e : OpError) : ErrorPrecise s (s.answer (.error e) []) :=
  fun _ he => by cases he; rfl

/-! ### Operations that raise -/

/-- VID.BUILD (R142). -/
theorem execVidBuild_errorPrecise {g : Geometry} {s t : State} (h : execVidBuild g s = .next t) : ErrorPrecise s t := by
  unfold execVidBuild at h
  split at h
  · cases h; exact .of_done rfl
  · cases h; exact .answer_error s _

/-- `EnterLoad` (R276). -/
theorem enterLoad_errorPrecise {tact : Nat} {s t : State} (h : enterLoad tact s = .next t) : ErrorPrecise s t := by
  obtain ⟨-, rfl⟩ | ⟨-, -, rfl⟩ | ⟨-, -, rfl⟩ | ⟨-, -, k, b, -, -, -, rfl⟩ := enterLoad_cases h
  case inr.inl => exact .answer_error s _
  all_goals exact .of_done rfl

/-- TAPE.INITPLAY (R204). -/
theorem execTapeInitplay_errorPrecise {start : Nat} {s t : State} (h : execTapeInitplay start s = .next t) :
    ErrorPrecise s t := by
  obtain ⟨-, ⟨-, rfl⟩ | ⟨-, -, rfl⟩ | ⟨-, b, -, -, rfl⟩⟩ := execTapeInitplay_cases h
  · exact .answer_error s _
  · exact .answer_error s _
  · exact .of_done rfl

/-- TAPE.EAR (R206, R216, R217). -/
theorem execTapeEar_errorPrecise {tact : Nat} {s t : State} (h : execTapeEar tact s = .next t) : ErrorPrecise s t := by
  obtain ⟨-, ⟨-, rfl⟩ | ⟨-, -, -, rfl⟩ | ⟨-, -, -, -, rfl⟩ | ⟨-, -, -, -, t', level, -, rfl⟩⟩ := execTapeEar_cases h
  · exact .of_result rfl fun _ => OpResult.noConfusion
  · exact .answer_error s _
  · exact .answer_error s _
  · exact .of_result rfl fun _ => OpResult.noConfusion

/-- TAPE.MIC (R236). -/
theorem execTapeMic_errorPrecise {tact : Nat} {value : Bool} {s t : State} (h : execTapeMic tact value s = .next t) :
    ErrorPrecise s t := by
  obtain ⟨-, ⟨-, rfl⟩ | ⟨-, -, -, rfl⟩ | ⟨-, -, -, v, es, -, rfl⟩⟩ := execTapeMic_cases h
  · exact .of_done rfl
  · exact .answer_error s _
  · exact .of_done rfl

/-- DSK.OPEN (R396). -/
theorem execDskOpen_errorPrecise {image : List Byte} {s t : State} (h : execDskOpen image s = .next t) :
    ErrorPrecise s t := by
  unfold execDskOpen at h
  split at h
  · cases h; exact .answer_error s _
  · cases h; exact .of_done rfl

/-- DSK.READ (R398). -/
theorem execDskRead_errorPrecise {head track sector length : Nat} {s t : State}
    (h : execDskRead head track sector length s = .next t) : ErrorPrecise s t := by
  unfold execDskRead at h
  split at h
  · cases h; exact .answer_error s _
  · cases h; exact .of_result rfl fun _ => OpResult.noConfusion

/-- DSK.WRITE (R400). -/
theorem execDskWrite_errorPrecise {head track sector : Nat} {data : List Byte} {s t : State}
    (h : execDskWrite head track sector data s = .next t) : ErrorPrecise s t := by
  unfold execDskWrite at h
  split at h
  · cases h; exact .answer_error s _
  · cases h; exact .of_done rfl

/-! ### The tape transitions that never raise -/

theorem leaveLoad_done {s t : State} (h : leaveLoad s = .next t) : t.result = .done := by
  obtain ⟨-, rfl⟩ | ⟨-, rfl⟩ := leaveLoad_cases h <;> rfl

theorem enterSave_done {tact : Nat} {s t : State} (h : enterSave tact s = .next t) : t.result = .done := by
  obtain ⟨-, rfl⟩ | ⟨-, rfl⟩ := enterSave_cases h <;> rfl

theorem leaveSave_done {s t : State} (h : leaveSave s = .next t) : t.result = .done := by
  obtain ⟨-, rfl⟩ | ⟨-, rfl⟩ := leaveSave_cases h <;> rfl

theorem fastLoad_done {s t : State} (h : fastLoad s = .next t) : t.result = .done := by
  obtain ⟨-, rfl⟩ | ⟨b, cs, -, rfl⟩ := fastLoad_cases h <;> rfl

/-- TAPE.SETMODE (R274): of its transitions only `EnterLoad` can raise. -/
theorem execTapeSetmode_errorPrecise {pc : Addr} {tact : Nat} {s t : State} (h : execTapeSetmode pc tact s = .next t) :
    ErrorPrecise s t := by
  obtain ⟨-, ⟨-, -, -, h⟩ | ⟨-, -, -, h⟩ | ⟨-, -, -, h⟩ | ⟨-, -, h⟩ | ⟨-, -, h⟩ | ⟨-, rfl⟩⟩ := execTapeSetmode_cases h
  · exact .of_done (fastLoad_done h)
  · exact enterLoad_errorPrecise h
  · exact .of_done (enterSave_done h)
  · exact .of_done (leaveLoad_done h)
  · exact .of_done (leaveSave_done h)
  · exact .of_done rfl

/-! ### Every instruction -/

/-- Every instruction that goes on raises precisely or returns no error (R422). -/
theorem exec_errorPrecise {i : Instr} {s t : State} (h : exec i s = .next t) : ErrorPrecise s t := by
  cases i with
  | vidBuild => exact execVidBuild_errorPrecise h
  | tapeSetmode => exact execTapeSetmode_errorPrecise h
  | tapeEnterload => exact enterLoad_errorPrecise (guardTape_next h).2
  | tapeLeaveload => exact .of_done (leaveLoad_done (guardTape_next h).2)
  | tapeEntersave => exact .of_done (enterSave_done (guardTape_next h).2)
  | tapeLeavesave => exact .of_done (leaveSave_done (guardTape_next h).2)
  | tapeInitplay => exact execTapeInitplay_errorPrecise h
  | tapeEar => exact execTapeEar_errorPrecise h
  | tapeMic => exact execTapeMic_errorPrecise h
  | tapeFastload tact =>
    obtain ⟨-, -, h⟩ := execTapeFastload_cases (tact := tact) h
    exact .of_done (fastLoad_done h)
  | dskOpen => exact execDskOpen_errorPrecise h
  | dskRead => exact execDskRead_errorPrecise h
  | dskWrite => exact execDskWrite_errorPrecise h
  | vidContend | fdcRead | fdcStatus => cases h; exact .of_result rfl fun _ => OpResult.noConfusion
  | vidReset | vidRender | vidNewframe | tapeReset | fdcReset | fdcWrite | dskCreate | fdcSpecify
  | fdcSenseDriveStatus | fdcRecalibrate | fdcSenseInterruptStatus | fdcSeek | fdcReadId | fdcReadData | fdcFormatTrack
  | fdcWriteData | fdcNone => cases h; exact .of_done rfl

/-- Settles O14: `exec_errorPrecise`, with `answer` written out. -/
theorem errorsChangeNothing : Obligations.ErrorsChangeNothing :=
  fun _ _ _ e h he => exec_errorPrecise h e he

end Sys2Proof.Machine
end

section
/-! PROOF. The statements about the words of the instructions (30_encoding R100 to R108): the two round trips of decoder and
encoder, and the steps of the machine that rest on them. -/

namespace Sys2Proof

/-! ### Readers in sequence -/

@[simp] theorem ok_bind {α β : Type} (a : α) (f : α → Except DecodeError β) : ((.ok a : Except DecodeError α) >>= f) = f a :=
  rfl

/-- A reader that goes on was given a value. -/
theorem bind_ok {α β : Type} {x : Except DecodeError α} {f : α → Except DecodeError β} {b : β}
    (h : (x >>= f) = .ok b) : ∃ a, x = .ok a ∧ f a = .ok b := by
  cases x with
  | error e => cases h
  | ok a => exact ⟨a, rfl, h⟩

/-! ### Decoding what was encoded -/

@[simp] theorem readByte_cons (b : Byte) (r : List Byte) : readByte (b :: r) = .ok (b, r) := rfl

@[simp] theorem readRwParams_toBytes (p : RwParams) (r : List Byte) : readRwParams (p.toBytes ++ r) = .ok (p, r) := rfl

@[simp] theorem readFormatParams_toBytes (p : FormatParams) (r : List Byte) :
    readFormatParams (p.toBytes ++ r) = .ok (p, r) := rfl

/-- The ignored bits of a command byte (R105) read back. -/
@[simp] theorem readIdByte_bits : ∀ b6, (readIdByte b6).extractLsb' 6 1 = b6 := by decide
@[simp] theorem readDataByte_bits : ∀ hi, (readDataByte hi).extractLsb' 5 3 = hi := by decide
@[simp] theorem formatTrackByte_bit6 : ∀ b6 b1, (formatTrackByte b6 b1).extractLsb' 6 1 = b6 := by decide
@[simp] theorem formatTrackByte_bit1 : ∀ b6 b1, (formatTrackByte b6 b1).extractLsb' 1 1 = b1 := by decide
@[simp] theorem writeDataByte_bits : ∀ hi, (writeDataByte hi).extractLsb' 6 2 = hi := by decide

/-- The words of a well-formed instruction decode to it (R100, R105, R108). -/
theorem decode_encode (i : Instr) (r : List Byte) (h : i.wellFormed = true) :
    decode i.format (encode i ++ r) = .ok (i, r) := by
  cases i with
  | vidReset | vidNewframe | tapeReset | tapeLeaveload | tapeLeavesave | fdcReset | fdcWrite | fdcRead | fdcStatus
  | dskCreate | fdcSpecify | fdcSenseDriveStatus | fdcRecalibrate | fdcSenseInterruptStatus | fdcSeek => rfl
  | vidBuild g => simp [Instr.format, encode, decode, decodeSelector, readGeometry_bytes g r h]
  | vidContend | tapeSetmode | tapeEnterload | tapeEntersave | tapeInitplay | tapeEar | tapeMic | tapeFastload
  | dskOpen => 
    simp only [Instr.wellFormed] at h
    simp [Instr.format, encode, decode, decodeSelector, h]
  | vidRender | dskRead | dskWrite =>
    simp only [Instr.wellFormed, Bool.and_eq_true] at h
    simp [Instr.format, encode, decode, decodeSelector, h]
  | fdcReadId b6 p0 => simp [Instr.format, encode, decode, decodeCommand, fdcDecode_readIdByte]
  | fdcReadData hi p => simp [Instr.format, encode, decode, decodeCommand, fdcDecode_readDataByte]
  | fdcFormatTrack b6 b1 p =>
    have hb : ¬(b6 = 0 ∧ b1 = 1) := not_and_or.2 (by simpa [Instr.wellFormed] using h)
    simp [Instr.format, encode, decode, decodeCommand, fdcDecode_formatTrackByte b6 b1 hb]
  | fdcWriteData hi p => simp [Instr.format, encode, decode, decodeCommand, fdcDecode_writeDataByte]
  | fdcNone b => simp [Instr.format, encode, decode, decodeCommand, fdcDecode_none b h]

/-- Settles O4: instruction by instruction, each reader gives back what its writer wrote. -/
theorem decodeEncodeRoundTrip : Obligations.DecodeEncodeRoundTrip := decode_encode

/-! ### Encoding what was decoded -/

/-- The bytes `bs` begin with the words of the well-formed instruction `i` of format `f`, and `r` follows them. -/
def WordsOf (f : Format) (bs : List Byte) (i : Instr) (r : List Byte) : Prop :=
  i.wellFormed = true ∧ i.format = f ∧ encode i ++ r = bs

/-- A selector byte is the byte of its number. -/
theorem eq_ofNat_of_selector {sel : Byte} {n : Nat} (h : sel.toNat = n) : sel = BitVec.ofNat 8 n := by
  rw [← h, BitVec.ofNat_toNat, BitVec.setWidth_eq]

/-- An operation whose one argument is a `u64`: a tact. -/
theorem wordsOf_u64 {op : Nat → Instr} {sel : Byte} {bs r : List Byte} {i : Instr}
    (henc : ∀ t, encode (op t) = sel :: u64Bytes t) (hwf : ∀ t, (op t).wellFormed = isU64 t)
    (hfmt : ∀ t, (op t).format = .op)
    (h : (do let (t, r) ← readU64 bs; .ok (op t, r)) = .ok (i, r)) : WordsOf .op (sel :: bs) i r := by
  obtain ⟨⟨t, r'⟩, ht, h⟩ := bind_ok h
  cases h
  obtain ⟨h64, hbs⟩ := readU64_ok ht
  exact ⟨(hwf t).trans h64, hfmt t, by rw [henc, List.cons_append, hbs]⟩

/-- What the decoder accepts of a host operation (R100). -/
theorem decodeSelector_words {sel : Byte} {bs r : List Byte} {i : Instr} (h : decodeSelector sel bs = .ok (i, r)) :
    WordsOf .op (sel :: bs) i r := by
  unfold decodeSelector at h
  split at h <;> rename_i hsel
  case h_24 => cases h
  all_goals obtain rfl := eq_ofNat_of_selector hsel
  case h_1 | h_4 | h_6 | h_9 | h_11 | h_16 | h_18 | h_19 | h_20 => cases h; exact ⟨rfl, rfl, rfl⟩
  case h_5 | h_8 | h_10 | h_12 | h_13 | h_15 =>
    exact wordsOf_u64 (fun _ => rfl) (fun _ => rfl) (fun _ => rfl) h
  case h_2 =>
    obtain ⟨⟨g, r'⟩, hg, h⟩ := bind_ok h
    cases h
    obtain ⟨hwf, rfl⟩ := readGeometry_ok hg
    exact ⟨hwf, rfl, rfl⟩
  case h_3 =>
    obtain ⟨⟨a, ra⟩, ha, h⟩ := bind_ok h
    obtain ⟨⟨b, rb⟩, hb, h⟩ := bind_ok h
    cases h
    obtain ⟨ha64, rfl⟩ := readU64_ok ha
    obtain ⟨hb64, rfl⟩ := readU64_ok hb
    exact ⟨by simp [Instr.wellFormed, ha64, hb64], rfl, by simp [encode]⟩
  case h_7 =>
    obtain ⟨⟨pc, rp⟩, hp, h⟩ := bind_ok h
    obtain ⟨⟨t, rt⟩, ht, h⟩ := bind_ok h
    cases h
    obtain rfl := readU16_ok hp
    obtain ⟨ht64, rfl⟩ := readU64_ok ht
    exact ⟨ht64, rfl, by simp [encode]⟩
  case h_14 =>
    obtain ⟨⟨t, rt⟩, ht, h⟩ := bind_ok h
    obtain ⟨⟨v, rv⟩, hv, h⟩ := bind_ok h
    cases h
    obtain ⟨ht64, rfl⟩ := readU64_ok ht
    obtain rfl := readBool_ok hv
    exact ⟨ht64, rfl, by simp [encode]⟩
  case h_17 =>
    obtain ⟨⟨b, rb⟩, hb, h⟩ := bind_ok h
    cases h
    obtain rfl := readByte_ok hb
    exact ⟨rfl, rfl, rfl⟩
  case h_21 =>
    obtain ⟨⟨image, ri⟩, hi, h⟩ := bind_ok h
    cases h
    obtain ⟨h64, rfl⟩ := readBytes_ok hi
    exact ⟨h64, rfl, rfl⟩
  case h_22 =>
    obtain ⟨⟨a, ra⟩, ha, h⟩ := bind_ok h
    obtain ⟨⟨b, rb⟩, hb, h⟩ := bind_ok h
    obtain ⟨⟨c, rc⟩, hc, h⟩ := bind_ok h
    obtain ⟨⟨n, rn⟩, hn, h⟩ := bind_ok h
    cases h
    obtain ⟨ha64, rfl⟩ := readU64_ok ha
    obtain ⟨hb64, rfl⟩ := readU64_ok hb
    obtain ⟨hc64, rfl⟩ := readU64_ok hc
    obtain ⟨hn64, rfl⟩ := readU64_ok hn
    exact ⟨by simp [Instr.wellFormed, ha64, hb64, hc64, hn64], rfl, by simp [encode]⟩
  case h_23 =>
    obtain ⟨⟨a, ra⟩, ha, h⟩ := bind_ok h
    obtain ⟨⟨b, rb⟩, hb, h⟩ := bind_ok h
    obtain ⟨⟨c, rc⟩, hc, h⟩ := bind_ok h
    obtain ⟨⟨data, rd⟩, hd, h⟩ := bind_ok h
    cases h
    obtain ⟨ha64, rfl⟩ := readU64_ok ha
    obtain ⟨hb64, rfl⟩ := readU64_ok hb
    obtain ⟨hc64, rfl⟩ := readU64_ok hc
    obtain ⟨hd64, rfl⟩ := readBytes_ok hd
    exact ⟨by simp [Instr.wellFormed, ha64, hb64, hc64, hd64], rfl, by simp [encode]⟩

/-- What the decoder accepts of an FDC command (R104 to R108). -/
theorem decodeCommand_words {b : Byte} {bs r : List Byte} {i : Instr} (h : decodeCommand b bs = .ok (i, r)) :
    WordsOf .fdc (b :: bs) i r := by
  obtain ⟨hspecify, hsense, hrecal, hsis, hseek, hid, hread, hformat, hwrite, hnone⟩ := fdcDecode_byte b
  unfold decodeCommand at h
  split at h <;> rename_i hc
  case h_1 =>
    obtain rfl := hspecify hc
    obtain ⟨⟨p0, r0⟩, h0, h⟩ := bind_ok h
    obtain ⟨⟨p1, r1⟩, h1, h⟩ := bind_ok h
    cases h
    obtain rfl := readByte_ok h0
    obtain rfl := readByte_ok h1
    exact ⟨rfl, rfl, rfl⟩
  case h_2 =>
    obtain rfl := hsense hc
    obtain ⟨⟨p0, r0⟩, h0, h⟩ := bind_ok h
    cases h
    obtain rfl := readByte_ok h0
    exact ⟨rfl, rfl, rfl⟩
  case h_3 =>
    obtain rfl := hrecal hc
    obtain ⟨⟨p0, r0⟩, h0, h⟩ := bind_ok h
    cases h
    obtain rfl := readByte_ok h0
    exact ⟨rfl, rfl, rfl⟩
  case h_4 => cases h; exact ⟨rfl, rfl, by rw [hsis hc]; rfl⟩
  case h_5 =>
    obtain rfl := hseek hc
    obtain ⟨⟨p0, r0⟩, h0, h⟩ := bind_ok h
    obtain ⟨⟨p1, r1⟩, h1, h⟩ := bind_ok h
    cases h
    obtain rfl := readByte_ok h0
    obtain rfl := readByte_ok h1
    exact ⟨rfl, rfl, rfl⟩
  case h_6 =>
    obtain ⟨⟨p0, r0⟩, h0, h⟩ := bind_ok h
    cases h
    obtain rfl := readByte_ok h0
    exact ⟨rfl, rfl, by rw [encode, hid hc]; rfl⟩
  case h_7 =>
    obtain ⟨⟨p, rp⟩, hp, h⟩ := bind_ok h
    cases h
    obtain rfl := readRwParams_ok hp
    exact ⟨rfl, rfl, by rw [encode, hread hc]; rfl⟩
  case h_8 =>
    obtain ⟨hbyte, hwf⟩ := hformat hc
    obtain ⟨⟨p, rp⟩, hp, h⟩ := bind_ok h
    cases h
    obtain rfl := readFormatParams_ok hp
    exact ⟨hwf, rfl, by rw [encode, hbyte]; rfl⟩
  case h_9 =>
    obtain ⟨⟨p, rp⟩, hp, h⟩ := bind_ok h
    cases h
    obtain rfl := readRwParams_ok hp
    exact ⟨rfl, rfl, by rw [encode, hwrite hc]; rfl⟩
  case h_10 => cases h; exact ⟨hnone hc, rfl, rfl⟩

/-- Settles O5: the first byte names the instruction, and each reader accepts what the encoder writes. -/
theorem encodeDecodeRoundTrip : Obligations.EncodeDecodeRoundTrip := by
  intro f bytes r i h
  match bytes, f with
  | [], _ => cases h
  | _ :: _, .op => exact decodeSelector_words h
  | _ :: _, .fdc => exact decodeCommand_words h

/-! ### Steps -/

/-- Settles O6: each word runs through the decoder. -/
theorem decodedWordsFromTables : Obligations.DecodedWordsFromTables := by
  exact ⟨rfl, rfl, rfl, rfl, rfl, rfl, rfl, rfl, rfl, rfl⟩

end Sys2Proof

namespace Sys2Proof.Machine

open Sys2Proof

/-- Settles O2: the words decode to the instruction (O4), and a step runs what was decoded (O1). -/
theorem stepRunsEncodedInstruction : Obligations.StepRunsEncodedInstruction := fun _ i r _ hwf hin =>
  stepRunsDecodedInstruction _ _ _ r _ i hin (decode_encode i r hwf)

theorem step_malformed {s : State} {f : Format} {bytes : List Byte} {rest : List HostInput} {e : DecodeError}
    (hin : s.inputs = .invoke f bytes :: rest) (hdec : decode f bytes = .error e) :
    step s = .refused (.malformedInvocation e) := by
  simp only [step, runNext, hin, hdec]

theorem step_act {s : State} {a : HostAction} {rest : List HostInput} (hin : s.inputs = .act a :: rest) :
    step s = .next (applyHostAction a (s.setInputs rest)) := by
  simp only [step, runNext, hin]

/-- A byte that R100 assigns to no operation is no selector (R128(c)). -/
theorem decodeSelector_unassigned {b : Byte} (bs : List Byte)
    (h : 0x20 ≤ b.toNat ∨ b ∈ [0x05#8, 0x06#8, 0x07#8, 0x12#8, 0x13#8, 0x14#8, 0x15#8, 0x16#8, 0x17#8]) :
    decodeSelector b bs = .error (.unassignedSelector b) := by
  unfold decodeSelector
  split
  case h_24 => rfl
  all_goals
    rename_i hsel
    obtain rfl := eq_ofNat_of_selector hsel
    exact absurd h (by decide)

/-- Settles O3: the cases of a step that runs no instruction. -/
theorem stepWithoutInstruction : Obligations.StepWithoutInstruction := by
  intro s rest
  refine ⟨fun hin => ?idle, fun a v hin => step_act hin, fun v hin => step_act hin, fun c hin => step_act hin,
    fun image hin => ?setTape, fun f bytes e hin hdec => step_malformed hin hdec,
    fun b bs hb hin => step_malformed hin (decodeSelector_unassigned bs hb)⟩
  case idle => simp only [step, runNext, hin]
  case setTape =>
    have hstale : (!s.tape.atReset) = decide (s.tape ≠ TapeUnit.reset s.tape.image) := by
      rw [TapeUnit.atReset, ← decide_not]
    rw [step_act hin, ← hstale]
    rfl

end Sys2Proof.Machine
end

section
/-! PROOF. The statements about the tact timing table (40_video_timing R141 to R156).

The one idea: `describeTact_eq` says what the table holds at tact `t` of a line, field by field, in the statements' own
definitions. Every statement about the table reads its fields off that. -/

namespace Sys2Proof.Machine

open Sys2Proof Sys2Proof.Spec

/-! ### The two screen addresses (R146, R147) -/

/-- The bit fields of a display row, moved to their places in the pixel address. -/
theorem pixelRow_bits : ∀ r < 256, ((r &&& 0xC0) <<< 5) + ((r &&& 0x07) <<< 8) + ((r &&& 0x38) <<< 2) =
    r / 64 * 2048 + r % 8 * 256 + r / 8 % 8 * 32 := by decide +kernel

theorem pixAddr_eq (g : Geometry) {r : Nat} (c : Nat) (hr : r < 256) :
    g.pixAddr r c = BitVec.ofNat 16 (pixelByteAddress g r c) := by
  rw [Geometry.pixAddr, pixelByteAddress]
  congr 1
  have := pixelRow_bits r hr
  omega

theorem attrAddr_eq (g : Geometry) (r c : Nat) : g.attrAddr r c = BitVec.ofNat 16 (attributeAddress g r c) := by
  rw [Geometry.attrAddr, attributeAddress, Nat.shiftRight_eq_div_pow, Nat.shiftLeft_eq]

/-! ### Where a tact lies in its line (R143, R144) -/

theorem displayLine_iff {g : Geometry} {line : Nat} :
    displayLine g line = true ↔ g.firstDisplayLine ≤ line ∧ line < g.firstDisplayLine + g.displayLines :=
  decide_eq_true_iff

theorem visible_iff {g : Geometry} {line t : Nat} : Spec.visible g line t = true ↔
    g.firstVisibleLine ≤ line ∧ line < g.firstVisibleLine + g.screenLines ∧ t < g.visibleT := decide_eq_true_iff

theorem Geometry.visible_eq (g : Geometry) (line t : Nat) : g.visible line t = Spec.visible g line t := by
  simp only [Geometry.visible, Spec.visible, Bool.decide_and, Bool.and_assoc]
  rfl

/-- A display line is visible up to the end of its right border. -/
theorem visible_of_displayLine {g : Geometry} {line t : Nat} (hl : displayLine g line = true) (ht : t < g.visibleT) :
    Spec.visible g line t = true := by
  rw [displayLine_iff] at hl
  rw [visible_iff]
  simp only [Geometry.firstDisplayLine, Geometry.screenLines] at *
  omega

/-! ### The phase of a tact (R145) -/

section Phase
variable {g : Geometry} {line t : Nat}

theorem phaseAt_invisible (h : Spec.visible g line t = false) : phaseAt g line t = .none := if_pos h

theorem phaseAt_fetchPixel (hl : displayLine g line = true) (ht : t + 2 = g.borderLeftT) :
    phaseAt g line t = .borderFetchPixel := by
  have hv := visible_of_displayLine hl (t := t) (by simp only [Geometry.visibleT]; omega)
  simp [phaseAt, hv, hl, ht]

theorem phaseAt_fetchAttr (hl : displayLine g line = true) (ht : t + 1 = g.borderLeftT) :
    phaseAt g line t = .borderFetchAttr := by
  have hv := visible_of_displayLine hl (t := t) (by simp only [Geometry.visibleT]; omega)
  simp [phaseAt, hv, hl, ht, show t + 2 ≠ g.borderLeftT by omega]

/-- Position `p` of the display area shows by its place in the eight tacts of two byte columns. -/
theorem phaseAt_display {p : Nat} (hl : displayLine g line = true) (hp : p < g.displayT) :
    phaseAt g line (g.borderLeftT + p) = displayPhase g.displayT p := by
  have hv := visible_of_displayLine hl (t := g.borderLeftT + p) (by simp only [Geometry.visibleT]; omega)
  have h2 : g.borderLeftT + p + 2 ≠ g.borderLeftT := by omega
  have h1 : g.borderLeftT + p + 1 ≠ g.borderLeftT := by omega
  simp [phaseAt, hv, hl, h2, h1, Nat.not_le.2 hp]

/-- Every other visible tact shows the border. -/
theorem phaseAt_border (hv : Spec.visible g line t = true)
    (h : displayLine g line = false ∨ (t + 2 ≠ g.borderLeftT ∧ t + 1 ≠ g.borderLeftT ∧
      (t < g.borderLeftT ∨ g.borderLeftT + g.displayT ≤ t))) : phaseAt g line t = .border := by
  rcases h with hl | ⟨h2, h1, hout⟩
  · simp [phaseAt, hv, hl]
  · cases hl : displayLine g line <;> simp [phaseAt, hv, hl, h2, h1, hout]

end Phase

/-! ### The whole descriptor -/

/-- The descriptor of tact `t` of a line as R144 to R148 give it, field by field. -/
def descriptorAt (g : Geometry) (line t : Nat) : TactDescriptor where
  phase := phaseAt g line t
  contentionDelay := BitVec.ofNat 3 (contentionAt g line t)
  pixelFetchAddress :=
    if fetchesPixel (phaseAt g line t) then
      BitVec.ofNat 16 (pixelByteAddress g (line - g.firstDisplayLine) ((t + 2 - g.borderLeftT) / 4))
    else 0
  attributeFetchAddress :=
    if fetchesAttribute (phaseAt g line t) then
      BitVec.ofNat 16 (attributeAddress g (line - g.firstDisplayLine) ((t + 1 - g.borderLeftT) / 4))
    else 0
  x := if Spec.visible g line t then Geometry.coord (2 * t) else 0
  y := if Spec.visible g line t then Geometry.coord (line - g.firstVisibleLine) else 0

/-- A descriptor with its phase and its two addresses as R145 to R147 give them. -/
def withPhaseAt (g : Geometry) (line t : Nat) (d : TactDescriptor) : TactDescriptor :=
  { d with
    phase := (descriptorAt g line t).phase
    pixelFetchAddress := (descriptorAt g line t).pixelFetchAddress
    attributeFetchAddress := (descriptorAt g line t).attributeFetchAddress }

/-- `AssignPhase` in the display area: the eight positions of two byte columns, the last two of which fetch only where
another column follows. -/
theorem assignPhase_display {g : Geometry} (hg : g.valid = true) {line p : Nat} (hl : displayLine g line = true)
    (hp : p < g.displayT) (d : TactDescriptor) (hpix : d.pixelFetchAddress = 0) (hattr : d.attributeFetchAddress = 0) :
    assignPhase g line (g.borderLeftT + p) d = withPhaseAt g line (g.borderLeftT + p) d := by
  obtain ⟨⟨-, hlines⟩, ⟨-, hwidth, -⟩, -⟩ := Geometry.valid_iff.mp hg
  have hrow : line - g.firstDisplayLine < 256 := by rw [displayLine_iff] at hl; omega
  have hin : g.inDisplay line (g.borderLeftT + p) = true := by
    simp [Geometry.inDisplay, Geometry.onDisplayLine_eq_displayLine hg, hl, hp]
  have hsub2 : g.borderLeftT + p + 2 - g.borderLeftT = p + 2 := by omega
  have hsub1 : g.borderLeftT + p + 1 - g.borderLeftT = p + 1 := by omega
  simp only [withPhaseAt, descriptorAt, phaseAt_display hl hp, assignPhase, hin, if_true, Nat.add_sub_cancel_left, hsub2,
    hsub1, pixAddr_eq g _ hrow, attrAddr_eq]
  have hcases : p % 8 = 0 ∨ p % 8 = 1 ∨ p % 8 = 2 ∨ p % 8 = 3 ∨ p % 8 = 4 ∨ p % 8 = 5 ∨ p % 8 = 6 ∨ p % 8 = 7 := by omega
  rcases hcases with h | h | h | h | h | h | h | h <;> 
    simp only [h, displayPhase, fetchesPixel, fetchesAttribute, hpix, hattr]
  iterate 6 · rfl
  · by_cases hlast : p + 2 < g.displayT
    · simp [hlast, show ¬ g.displayT < p + 3 by omega]
    · simp [hlast, show g.displayT < p + 3 by omega]
  · by_cases hlast : p + 1 < g.displayT
    · simp [hlast, show ¬ g.displayT < p + 3 by omega]
    · simp [hlast, show g.displayT < p + 3 by omega]

/-- `AssignPhase` on a visible tact outside the display area: a fetch just before it on a display line, else border. -/
theorem assignPhase_outside {g : Geometry} (hg : g.valid = true) {line t : Nat} (hv : Spec.visible g line t = true)
    (hout : displayLine g line = false ∨ t < g.borderLeftT ∨ g.borderLeftT + g.displayT ≤ t) (d : TactDescriptor)
    (hpix : d.pixelFetchAddress = 0) (hattr : d.attributeFetchAddress = 0) :
    assignPhase g line t d = withPhaseAt g line t d := by
  obtain ⟨⟨-, hlines⟩, -, ⟨hleft, -⟩, ⟨hpre2, hpre1⟩, -⟩ := Geometry.valid_iff.mp hg
  have hin : g.inDisplay line t = false := by
    rw [Geometry.inDisplay, Geometry.onDisplayLine_eq_displayLine hg]
    rcases hout with hl | h | h
    · simp [hl]
    · simp [Nat.not_le.2 h]
    · simp [Nat.not_lt.2 h]
  have hat2 : t = g.borderLeftT - 2 ↔ t + 2 = g.borderLeftT := by omega
  have hat1 : t = g.borderLeftT - 1 ↔ t + 1 = g.borderLeftT := by omega
  simp only [assignPhase, hin, Geometry.onDisplayLine_eq_displayLine hg, hpre2, hpre1, hat2, hat1, withPhaseAt, descriptorAt]
  cases hl : displayLine g line with
  | false => simp [phaseAt_border hv (.inl hl), fetchesPixel, fetchesAttribute, hpix, hattr]
  | true =>
    have hrow : line - g.firstDisplayLine < 256 := by rw [displayLine_iff] at hl; omega
    by_cases h2 : t + 2 = g.borderLeftT
    · simp [phaseAt_fetchPixel hl h2, fetchesPixel, fetchesAttribute, hattr, h2, pixAddr_eq g _ hrow]
    · by_cases h1 : t + 1 = g.borderLeftT
      · simp [phaseAt_fetchAttr hl h1, fetchesPixel, fetchesAttribute, hpix, h2, h1, attrAddr_eq]
      · simp [phaseAt_border hv (.inr ⟨h2, h1, by simpa [hl] using hout⟩), fetchesPixel, fetchesAttribute, hpix, hattr, h2,
          h1]

theorem assignPhase_eq {g : Geometry} (hg : g.valid = true) {line t : Nat} (hv : Spec.visible g line t = true)
    (d : TactDescriptor) (hpix : d.pixelFetchAddress = 0) (hattr : d.attributeFetchAddress = 0) :
    assignPhase g line t d = withPhaseAt g line t d := by
  by_cases hin : displayLine g line = true ∧ g.borderLeftT ≤ t ∧ t < g.borderLeftT + g.displayT
  · obtain ⟨hl, hlo, hhi⟩ := hin
    obtain ⟨p, rfl⟩ := Nat.exists_eq_add_of_le hlo
    exact assignPhase_display hg hl (by omega) d hpix hattr
  · refine assignPhase_outside hg hv ?_ d hpix hattr
    cases hl : displayLine g line with
    | false => exact .inl rfl
    | true => exact .inr (by simp only [hl, true_and] at hin; omega)

/-- Entry `line * LINE_T + t` of the table of a valid geometry is the descriptor of R144 to R148. -/
theorem describeTact_eq {g : Geometry} (hg : g.valid = true) {line t : Nat} (ht : t < g.lineT) :
    describeTact g (line * g.lineT + t) = descriptorAt g line t := by
  obtain ⟨hline, htact⟩ := Geometry.line_of_tact (line := line) ht
  simp only [describeTact, hline, htact, Geometry.visible_eq, contention_eq_contentionAt hg]
  cases hv : Spec.visible g line t with
  | false =>
    simp [descriptorAt, phaseAt_invisible hv, hv, TactDescriptor.idle, fetchesPixel, fetchesAttribute]
  | true =>
    rw [if_pos rfl, assignPhase_eq hg hv _ rfl rfl]
    simp [descriptorAt, withPhaseAt, hv]

/-- The table's entry at a line and a tact of it. -/
theorem getElem?_buildTable_line {g : Geometry} (hg : g.valid = true) {line t : Nat} (hl : line < g.rasterLines)
    (ht : t < g.lineT) : (buildTable g)[line * g.lineT + t]? = some (descriptorAt g line t) := by
  rw [getElem?_buildTable (Geometry.tact_lt hl ht), describeTact_eq hg ht]

/-- Settles O20: the table built is that of `descriptorAt`; an invalid geometry fails the one check. -/
theorem vidBuildBuildsTable : Obligations.VidBuildBuildsTable := by
  intro g s
  refine ⟨fun hg => ?invalid, fun hg => ⟨buildTable g, length_buildTable g, exec_vidBuild_valid hg s,
    fun line t hl ht => getElem?_buildTable_line hg hl ht⟩⟩
  case invalid =>
    calc exec (.vidBuild g) s
      _ = raise .geometryInvalid s := if_neg (Bool.eq_false_iff.mp hg)

/-! ### What the phase says of the descriptor (R144, R154) -/

theorem displayPhase_ne_none (width p : Nat) : displayPhase width p ≠ .none := by
  unfold displayPhase
  split_ifs <;> decide

theorem phaseAt_ne_none_iff {g : Geometry} {line t : Nat} : phaseAt g line t ≠ .none ↔ Spec.visible g line t = true := by
  cases hv : Spec.visible g line t with
  | false => simp [phaseAt_invisible hv]
  | true =>
    have : phaseAt g line t ≠ .none := by
      unfold phaseAt
      rw [if_neg (by simp [hv])]
      split_ifs
      iterate 4 · decide
      · exact displayPhase_ne_none _ _
    simp [this]

/-- Everything a tact can be: invisible, border, one of the two border fetches, or a position of the display area. -/
theorem phaseAt_cases (g : Geometry) (line t : Nat) :
    phaseAt g line t = .none ∨ phaseAt g line t = .border ∨
    (displayLine g line = true ∧ t + 2 = g.borderLeftT ∧ phaseAt g line t = .borderFetchPixel) ∨
    (displayLine g line = true ∧ t + 1 = g.borderLeftT ∧ phaseAt g line t = .borderFetchAttr) ∨
    (displayLine g line = true ∧ ∃ p < g.displayT, t = g.borderLeftT + p ∧
      phaseAt g line t = displayPhase g.displayT p) := by
  cases hl : displayLine g line with
  | false =>
    cases hv : Spec.visible g line t with
    | false => exact .inl (phaseAt_invisible hv)
    | true => exact .inr (.inl (phaseAt_border hv (.inl hl)))
  | true =>
    by_cases h2 : t + 2 = g.borderLeftT
    · exact .inr (.inr (.inl ⟨rfl, h2, phaseAt_fetchPixel hl h2⟩))
    by_cases h1 : t + 1 = g.borderLeftT
    · exact .inr (.inr (.inr (.inl ⟨rfl, h1, phaseAt_fetchAttr hl h1⟩)))
    by_cases hin : g.borderLeftT ≤ t ∧ t < g.borderLeftT + g.displayT
    · obtain ⟨p, rfl⟩ := Nat.exists_eq_add_of_le hin.1
      have hp : p < g.displayT := by omega
      exact .inr (.inr (.inr (.inr ⟨rfl, p, hp, rfl, phaseAt_display hl hp⟩)))
    · cases hv : Spec.visible g line t with
      | false => exact .inl (phaseAt_invisible hv)
      | true => exact .inr (.inl (phaseAt_border hv (.inr ⟨h2, h1, by omega⟩)))

theorem displayPhase_fetchesPixel {width p : Nat} (hw : width % 8 = 0) (hp : p < width)
    (h : fetchesPixel (displayPhase width p) = true) : p % 4 = 2 ∧ p + 2 < width := by
  unfold displayPhase at h
  split_ifs at h <;> simp only [fetchesPixel, Bool.false_eq_true] at h <;> omega

theorem displayPhase_fetchesAttribute {width p : Nat} (hw : width % 8 = 0) (hp : p < width)
    (h : fetchesAttribute (displayPhase width p) = true) : p % 4 = 3 ∧ p + 1 < width := by
  unfold displayPhase at h
  split_ifs at h <;> simp only [fetchesAttribute, Bool.false_eq_true] at h <;> omega

/-- A pixel fetch lies on a display line, two tacts before the column it is for. -/
theorem phaseAt_fetchesPixel {g : Geometry} (hg : g.valid = true) {line t : Nat}
    (h : fetchesPixel (phaseAt g line t) = true) :
    displayLine g line = true ∧ t + 2 < g.borderLeftT + g.displayT := by
  obtain ⟨-, ⟨hwide, hwidth, -⟩, -⟩ := Geometry.valid_iff.mp hg
  obtain hp | hp | ⟨hl, h2, -⟩ | ⟨-, -, hp⟩ | ⟨hl, p, hpw, rfl, hp⟩ := phaseAt_cases g line t
  case inr.inr.inl => exact ⟨hl, by omega⟩
  case inr.inr.inr.inr =>
    rw [hp] at h
    exact ⟨hl, by have := displayPhase_fetchesPixel hwidth hpw h; omega⟩
  all_goals rw [hp] at h; cases h

/-- A fetch of attributes lies on a display line, one tact before the column it is for. -/
theorem phaseAt_fetchesAttribute {g : Geometry} (hg : g.valid = true) {line t : Nat}
    (h : fetchesAttribute (phaseAt g line t) = true) :
    displayLine g line = true ∧ t + 1 < g.borderLeftT + g.displayT := by
  obtain ⟨-, ⟨hwide, hwidth, -⟩, -⟩ := Geometry.valid_iff.mp hg
  obtain hp | hp | ⟨-, -, hp⟩ | ⟨hl, h1, -⟩ | ⟨hl, p, hpw, rfl, hp⟩ := phaseAt_cases g line t
  case inr.inr.inr.inl => exact ⟨hl, by omega⟩
  case inr.inr.inr.inr =>
    rw [hp] at h
    exact ⟨hl, by have := displayPhase_fetchesAttribute hwidth hpw h; omega⟩
  all_goals rw [hp] at h; cases h

/-- No phase fetches both bytes. -/
theorem not_fetches_both (ph : VideoPhase) : fetchesPixel ph = true → fetchesAttribute ph = false := by
  cases ph <;> decide

/-- The screen area that a valid geometry leaves room for (R149): 0x1800 pixel bytes. -/
theorem pixelByteAddress_lt {g : Geometry} (hg : g.valid = true) {r c : Nat} (hr : r < 192) (hc : c < 32) :
    pixelByteAddress g r c < 65536 := by
  obtain ⟨-, -, -, -, -, hbase, -⟩ := Geometry.valid_iff.mp hg
  unfold pixelByteAddress
  omega

/-- And 0x300 bytes of attributes. -/
theorem attributeAddress_lt {g : Geometry} (hg : g.valid = true) {r c : Nat} (hr : r < 192) (hc : c < 32) :
    attributeAddress g r c < 65536 := by
  obtain ⟨-, -, -, -, -, -, hbase⟩ := Geometry.valid_iff.mp hg
  unfold attributeAddress
  omega

/-- Where no fetch of the kind happens, the address field is zero. -/
theorem descriptorAt_pixel_zero {g : Geometry} {line t : Nat} (h : fetchesPixel (descriptorAt g line t).phase = false) :
    (descriptorAt g line t).pixelFetchAddress = 0 := if_neg (Bool.eq_false_iff.mp h)

theorem descriptorAt_attribute_zero {g : Geometry} {line t : Nat}
    (h : fetchesAttribute (descriptorAt g line t).phase = false) :
    (descriptorAt g line t).attributeFetchAddress = 0 := if_neg (Bool.eq_false_iff.mp h)

/-- A pixel fetch reads inside the screen memory. -/
theorem descriptorAt_pixel_toNat {g : Geometry} (hg : g.valid = true) {line t : Nat}
    (h : fetchesPixel (descriptorAt g line t).phase = true) :
    (descriptorAt g line t).pixelFetchAddress.toNat =
      pixelByteAddress g (line - g.firstDisplayLine) ((t + 2 - g.borderLeftT) / 4) := by
  obtain ⟨⟨-, hlines⟩, ⟨-, -, hwidth⟩, -⟩ := Geometry.valid_iff.mp hg
  obtain ⟨hl, ht⟩ := phaseAt_fetchesPixel hg h
  rw [displayLine_iff] at hl
  have hlt := pixelByteAddress_lt hg (r := line - g.firstDisplayLine) (c := (t + 2 - g.borderLeftT) / 4) (by omega)
    (by omega)
  have haddr : (descriptorAt g line t).pixelFetchAddress = BitVec.ofNat 16 _ := if_pos h
  rw [haddr, BitVec.toNat_ofNat, Nat.mod_eq_of_lt hlt]

theorem descriptorAt_attribute_toNat {g : Geometry} (hg : g.valid = true) {line t : Nat}
    (h : fetchesAttribute (descriptorAt g line t).phase = true) :
    (descriptorAt g line t).attributeFetchAddress.toNat =
      attributeAddress g (line - g.firstDisplayLine) ((t + 1 - g.borderLeftT) / 4) := by
  obtain ⟨⟨-, hlines⟩, ⟨-, -, hwidth⟩, -⟩ := Geometry.valid_iff.mp hg
  obtain ⟨hl, ht⟩ := phaseAt_fetchesAttribute hg h
  rw [displayLine_iff] at hl
  have hlt := attributeAddress_lt hg (r := line - g.firstDisplayLine) (c := (t + 1 - g.borderLeftT) / 4) (by omega)
    (by omega)
  have haddr : (descriptorAt g line t).attributeFetchAddress = BitVec.ofNat 16 _ := if_pos h
  rw [haddr, BitVec.toNat_ofNat, Nat.mod_eq_of_lt hlt]

/-! ### The statements about every table -/

theorem VideoInv.getElem?_tt {v : Video} (hv : VideoInv v) {line t : Nat} (hl : line < v.geometry.rasterLines)
    (ht : t < v.geometry.lineT) : v.tt[line * v.geometry.lineT + t]? = some (descriptorAt v.geometry line t) := by
  rw [hv.table, getElem?_buildTable_line hv.geometry hl ht]

/-- Settles O21: the tact is one of a line, and a phase fetches at most one of the two bytes. -/
theorem tableCoversEveryTact : Obligations.TableCoversEveryTact := by
  intro v hv i hi
  have hg := hv.geometry
  have hpos := Geometry.lineT_pos hg
  have hentry := hv.getElem?_tt (line := i / v.geometry.lineT) (t := i % v.geometry.lineT)
    (Nat.div_lt_of_lt_mul (by rwa [Nat.mul_comm])) (Nat.mod_lt _ hpos)
  rw [Nat.div_add_mod'] at hentry
  refine ⟨_, hentry, fun hpix => ⟨?_, ?_⟩, fun hattr => ⟨?_, ?_⟩, fun hpix hattr => ⟨?_, ?_⟩⟩
  · exact descriptorAt_attribute_zero (not_fetches_both _ hpix)
  · rw [descriptorAt_pixel_toNat hg hpix, pixelByteAddress]; omega
  · exact descriptorAt_pixel_zero (Bool.eq_false_iff.mpr fun hpix => by simp [not_fetches_both _ hpix] at hattr)
  · rw [descriptorAt_attribute_toNat hg hattr, attributeAddress]; omega
  · exact descriptorAt_pixel_zero hpix
  · exact descriptorAt_attribute_zero hattr

theorem coord_toNat {n : Nat} (h : n < 65536) : (Geometry.coord n).toNat = n := by
  rw [Geometry.coord, if_pos h, BitVec.toNat_ofNat, Nat.mod_eq_of_lt h]

/-- The pixels of a visible tact lie at column `2 * t` of its line's row (R144), where the raster fits 16 bits. -/
theorem descriptorAt_coordinates {g : Geometry} (hw : g.screenWidth ≤ 65536) (hh : g.screenLines ≤ 65536) {line t : Nat}
    (hv : Spec.visible g line t = true) :
    (descriptorAt g line t).x.toNat = 2 * t ∧ (descriptorAt g line t).y.toNat + g.firstVisibleLine = line := by
  obtain ⟨hlo, hhi, ht⟩ := visible_iff.mp hv
  rw [Geometry.screenWidth] at hw
  have hx : (descriptorAt g line t).x = Geometry.coord (2 * t) := if_pos hv
  have hy : (descriptorAt g line t).y = Geometry.coord (line - g.firstVisibleLine) := if_pos hv
  rw [hx, hy, coord_toNat (by omega), coord_toNat (by omega)]
  omega

/-- Settles O22: visibility decides the phase and the coordinates; a row and a column inside the raster are inside the
buffer. -/
theorem visibleTactsHavePixels : Obligations.VisibleTactsHavePixels := by
  intro v hv hw hh line t hl ht
  refine ⟨_, hv.getElem?_tt hl ht, phaseAt_ne_none_iff, fun hnone => ?invisible, fun hphase => ?visible⟩
  case invisible =>
    have hinv : ¬ Spec.visible v.geometry line t = true := fun h => phaseAt_ne_none_iff.mpr h hnone
    exact ⟨if_neg hinv, if_neg hinv⟩
  case visible =>
    have hvis := phaseAt_ne_none_iff.mp hphase
    obtain ⟨hx, hy⟩ := descriptorAt_coordinates hw hh hvis
    obtain ⟨hlo, hhi, hcol⟩ := visible_iff.mp hvis
    refine ⟨hx, hy, ?_⟩
    generalize (descriptorAt v.geometry line t).y.toNat = row at hy ⊢
    have hrows : (row + 1) * v.geometry.screenWidth ≤ v.geometry.screenLines * v.geometry.screenWidth :=
      Nat.mul_le_mul_right _ (by omega)
    rw [Nat.succ_mul] at hrows
    have hcols : 2 * t + 1 < v.geometry.screenWidth := by rw [Geometry.screenWidth]; omega
    rw [hx, hv.size, Geometry.pixelCount, Nat.mul_comm v.geometry.screenWidth]
    omega

/-! ### The pipeline (R145) -/

/-- A display row is a line of the raster. -/
theorem displayRow_lt {g : Geometry} {r : Nat} (hr : r < g.displayLines) :
    g.firstDisplayLine + r < g.rasterLines ∧ displayLine g (g.firstDisplayLine + r) = true := by
  refine ⟨?_, displayLine_iff.mpr (by omega)⟩
  simp only [Geometry.rasterLines, Geometry.firstDisplayLine, Geometry.screenLines]
  omega

/-- A tact before the end of the display area is a tact of its line. -/
theorem lt_lineT {g : Geometry} {t : Nat} (ht : t < g.borderLeftT + g.displayT) : t < g.lineT := by
  rw [Geometry.lineT]
  omega

/-- The first four of eight positions show the first latch pair, the others the second. -/
theorem showsByte1_displayPhase (width p : Nat) : showsByte1 (displayPhase width p) = decide (p % 8 < 4) := by
  rw [Bool.eq_iff_iff, decide_eq_true_iff]
  unfold displayPhase
  split_ifs <;> simp only [showsByte1, Bool.false_eq_true, true_iff, false_iff] <;> omega

theorem showsByte2_displayPhase (width p : Nat) : showsByte2 (displayPhase width p) = decide (4 ≤ p % 8) := by
  rw [Bool.eq_iff_iff, decide_eq_true_iff]
  unfold displayPhase
  split_ifs <;> simp only [showsByte2, Bool.false_eq_true, true_iff, false_iff] <;> omega

/-- The pixel byte of column `c + 1` is fetched at position 2 of column `c`, into the other pair. -/
theorem displayPhase_fetchPixel {width c : Nat} (hc : 4 * c + 4 < width) : displayPhase width (4 * c + 2) =
    if c % 2 = 0 then .displayByte1FetchByte2 else .displayByte2FetchByte1 := by
  rcases Nat.mod_two_eq_zero_or_one c with h | h
  · simp [displayPhase, h, show (4 * c + 2) % 8 = 2 by omega]
  · simp [displayPhase, h, show (4 * c + 2) % 8 = 6 by omega, show ¬ width < 4 * c + 2 + 3 by omega]

/-- And its attributes at position 3. -/
theorem displayPhase_fetchAttr {width c : Nat} (hw : width % 8 = 0) (hc : 4 * c + 4 < width) :
    displayPhase width (4 * c + 3) = if c % 2 = 0 then .displayByte1FetchAttr2 else .displayByte2FetchAttr1 := by
  rcases Nat.mod_two_eq_zero_or_one c with h | h
  · simp [displayPhase, h, show (4 * c + 3) % 8 = 3 by omega]
  · simp [displayPhase, h, show (4 * c + 3) % 8 = 7 by omega, show ¬ width < 4 * c + 3 + 3 by omega]

section Column
variable {g : Geometry} (hg : g.valid = true) {line c : Nat} (hl : displayLine g line = true) (hc : c < g.displayT / 4)
include hg hl hc

/-- Two tacts before column `c`, its pixel byte is fetched into the pair of its parity. -/
theorem descriptorAt_columnPixel :
    (descriptorAt g line (g.borderLeftT + 4 * c - 2)).pixelFetchAddress =
      BitVec.ofNat 16 (pixelByteAddress g (line - g.firstDisplayLine) c) ∧
    (descriptorAt g line (g.borderLeftT + 4 * c - 2)).phase =
      if c = 0 then .borderFetchPixel else if c % 2 = 0 then .displayByte2FetchByte1 else .displayByte1FetchByte2 := by
  obtain ⟨-, -, ⟨hleft, -⟩, -⟩ := Geometry.valid_iff.mp hg
  have hcol : (g.borderLeftT + 4 * c - 2 + 2 - g.borderLeftT) / 4 = c := by omega
  have hphase : phaseAt g line (g.borderLeftT + 4 * c - 2) =
      if c = 0 then .borderFetchPixel else if c % 2 = 0 then .displayByte2FetchByte1 else .displayByte1FetchByte2 := by
    cases c with
    | zero => exact phaseAt_fetchPixel hl (by omega)
    | succ c =>
      rw [show g.borderLeftT + 4 * (c + 1) - 2 = g.borderLeftT + (4 * c + 2) by omega, phaseAt_display hl (by omega),
        displayPhase_fetchPixel (by omega), if_neg (Nat.succ_ne_zero c)]
      rcases Nat.mod_two_eq_zero_or_one c with h | h <;> simp [h, Nat.add_mod]
  have hfetch : fetchesPixel (phaseAt g line (g.borderLeftT + 4 * c - 2)) = true := by rw [hphase]; split_ifs <;> rfl
  exact ⟨(if_pos hfetch).trans (by rw [hcol]), hphase⟩

/-- One tact before column `c`, its attributes are fetched into the pair of its parity. -/
theorem descriptorAt_columnAttribute :
    (descriptorAt g line (g.borderLeftT + 4 * c - 1)).attributeFetchAddress =
      BitVec.ofNat 16 (attributeAddress g (line - g.firstDisplayLine) c) ∧
    (descriptorAt g line (g.borderLeftT + 4 * c - 1)).phase =
      if c = 0 then .borderFetchAttr else if c % 2 = 0 then .displayByte2FetchAttr1 else .displayByte1FetchAttr2 := by
  obtain ⟨-, ⟨-, hwidth, -⟩, ⟨hleft, -⟩, -⟩ := Geometry.valid_iff.mp hg
  have hcol : (g.borderLeftT + 4 * c - 1 + 1 - g.borderLeftT) / 4 = c := by omega
  have hphase : phaseAt g line (g.borderLeftT + 4 * c - 1) =
      if c = 0 then .borderFetchAttr else if c % 2 = 0 then .displayByte2FetchAttr1 else .displayByte1FetchAttr2 := by
    cases c with
    | zero => exact phaseAt_fetchAttr hl (by omega)
    | succ c =>
      rw [show g.borderLeftT + 4 * (c + 1) - 1 = g.borderLeftT + (4 * c + 3) by omega, phaseAt_display hl (by omega),
        displayPhase_fetchAttr hwidth (by omega), if_neg (Nat.succ_ne_zero c)]
      rcases Nat.mod_two_eq_zero_or_one c with h | h <;> simp [h, Nat.add_mod]
  have hfetch : fetchesAttribute (phaseAt g line (g.borderLeftT + 4 * c - 1)) = true := by
    rw [hphase]; split_ifs <;> rfl
  exact ⟨(if_pos hfetch).trans (by rw [hcol]), hphase⟩

end Column

/-- Settles O23: the entries of a column's four tacts and of the two fetches before them. -/
theorem pipelineLatency : Obligations.PipelineLatency := by
  intro v hv r c hr hc start
  have hg := hv.geometry
  obtain ⟨-, -, ⟨hleft, -⟩, -⟩ := Geometry.valid_iff.mp hg
  obtain ⟨hraster, hl⟩ := displayRow_lt hr
  have hentry {i t : Nat} (hi : i = (v.geometry.firstDisplayLine + r) * v.geometry.lineT + t)
      (ht : t < v.geometry.borderLeftT + v.geometry.displayT) :
      v.tt[i]? = some (descriptorAt v.geometry (v.geometry.firstDisplayLine + r) t) :=
    hi ▸ hv.getElem?_tt hraster (lt_lineT ht)
  have hrow : v.geometry.firstDisplayLine + r - v.geometry.firstDisplayLine = r := Nat.add_sub_cancel_left _ _
  obtain ⟨hpixel, hpixelPhase⟩ := descriptorAt_columnPixel hg hl hc
  obtain ⟨hattr, hattrPhase⟩ := descriptorAt_columnAttribute hg hl hc
  rw [hrow] at hpixel hattr
  refine ⟨fun k hk => ⟨_, hentry (t := v.geometry.borderLeftT + (4 * c + k)) (by omega) (by omega), ?_, ?_⟩,
    ⟨_, hentry (t := v.geometry.borderLeftT + 4 * c - 2) (by omega) (by omega), hpixel, ?_⟩,
    ⟨_, hentry (t := v.geometry.borderLeftT + 4 * c - 1) (by omega) (by omega), hattr, ?_⟩⟩
  · simp only [descriptorAt, phaseAt_display hl (show 4 * c + k < v.geometry.displayT by omega), showsByte1_displayPhase]
    congr 1; apply propext; omega
  · simp only [descriptorAt, phaseAt_display hl (show 4 * c + k < v.geometry.displayT by omega), showsByte2_displayPhase]
    congr 1; apply propext; omega
  · rw [hpixelPhase]; split_ifs <;> simp_all
  · rw [hattrPhase]; split_ifs <;> simp_all

/-! ### PRESET_48K (R156) -/

/-- The repeating phases of the 128 display tacts; the last column is followed by no fetch. -/
theorem displayPhase_128 : ∀ p < 126, displayPhase 128 p =
    [VideoPhase.displayByte1, .displayByte1, .displayByte1FetchByte2, .displayByte1FetchAttr2, .displayByte2,
      .displayByte2, .displayByte2FetchByte1, .displayByte2FetchAttr1].getD (p % 8) .none := by decide

/-- The contention pattern in its three-bit field. -/
theorem preset48K_pattern : ∀ j < 8, BitVec.ofNat 3 ([6, 5, 4, 3, 2, 1, 0, 0].getD j 0) =
    [6#3, 5, 4, 3, 2, 1, 0, 0].getD j 0 := by decide

/-- Settles O25: the phases of R145 and the delays of R148, with the preset's numbers. -/
theorem preset48KTable : Obligations.Preset48KTable := by
  have hg : Geometry.preset48K.valid = true := by decide
  have hvisible (line t : Nat) : Spec.visible Geometry.preset48K line t =
      decide (16 ≤ line ∧ line < 304 ∧ t < 176) := rfl
  have hdisplay (line : Nat) : displayLine Geometry.preset48K line = decide (64 ≤ line ∧ line < 256) := rfl
  refine ⟨by rw [length_buildTable]; rfl, fun line t hline ht => ⟨_, getElem?_buildTable_line hg hline ht, ?phase, ?delay⟩⟩
  case phase =>
    show phaseAt Geometry.preset48K line t = _
    split_ifs with h1 h2 h3 h4 h5 h6
    · exact phaseAt_invisible (by rw [hvisible, decide_eq_false_iff_not]; omega)
    all_goals have hv : Spec.visible Geometry.preset48K line t = true := by rw [hvisible, decide_eq_true_eq]; omega
    · exact phaseAt_border hv (.inl (by rw [hdisplay, decide_eq_false_iff_not]; omega))
    all_goals have hl : displayLine Geometry.preset48K line = true := by rw [hdisplay, decide_eq_true_eq]; omega
    · exact phaseAt_border hv (.inr (by simp only [Geometry.preset48K]; omega))
    · exact phaseAt_fetchPixel hl (by rw [h4]; rfl)
    · exact phaseAt_fetchAttr hl (by rw [h5]; rfl)
    all_goals obtain ⟨p, rfl⟩ := Nat.exists_eq_add_of_le (show 24 ≤ t by omega)
    · refine (phaseAt_display (g := Geometry.preset48K) hl (show p < 128 by omega)).trans ?_
      obtain rfl | rfl : p = 126 ∨ p = 127 := by omega
      · rfl
      · rfl
    · rw [Nat.add_sub_cancel_left, ← displayPhase_128 p (by omega)]
      exact phaseAt_display (g := Geometry.preset48K) hl (show p < 128 by omega)
  case delay =>
    show BitVec.ofNat 3 (if displayLine Geometry.preset48K line = true ∧ 23 ≤ t ∧ t < 151 then
      [6, 5, 4, 3, 2, 1, 0, 0].getD ((t - 23) % 8) 0 else 0) = _
    simp only [hdisplay, decide_eq_true_eq, and_assoc, apply_ite (BitVec.ofNat 3),
      preset48K_pattern _ (Nat.mod_lt (t - 23) (show 0 < 8 by decide)), BitVec.ofNat_eq_ofNat]

end Sys2Proof.Machine
end

section
/-! PROOF. The statements about rendering ranges of tacts (41_video_render R174 to R187): a range is its tacts, a display
line shows the screen memory, and the frame counter drives the flash phase. -/

namespace Sys2Proof.Machine

open Sys2Proof Sys2Proof.Spec

/-! ### A range of tacts (R174) -/

/-- The tacts rendered one operation at a time leave the video unit and the callbacks of the range. -/
theorem runCalls_vidRender (n : Nat) : ∀ (s : State) (tact : Nat), ∃ u,
    runCalls ((List.range' tact n).map fun tact => .vidRender tact tact) s =
      some (u, (renderTacts s.host s.video tact n).2) ∧
    u.video = (renderTacts s.host s.video tact n).1 := by
  induction n with
  | zero => exact fun s _ => ⟨s, rfl, rfl⟩
  | succ n ih =>
    intro s tact
    have hone := exec_vidRender_one s tact
    obtain ⟨u, hrun, hvideo⟩ := ih ((s.setVideo (renderTact s.host s.video (tact % s.video.geometry.frameT)).1).answer .done
      (renderTact s.host s.video (tact % s.video.geometry.frameT)).2) (tact + 1)
    refine ⟨u, ?_, hvideo⟩
    rw [List.range'_succ, List.map_cons, runCalls, hone]
    simp only [completeWith, hrun, Option.map_some]
    rfl

/-- Settles O26: the range operation writes the video unit and the callbacks, which are those of its tacts. -/
theorem renderRangeIsTactByTact : Obligations.RenderRangeIsTactByTact := by
  intro s fromTact toTact
  obtain ⟨u, hrun, hvideo⟩ := runCalls_vidRender (toTact + 1 - fromTact) s fromTact
  refine ⟨_, u, _, rfl, ?_, hrun⟩
  rw [hvideo]
  rfl

/-! ### The flash phase (R186) -/

/-- Settles O31: the remainder test of the model is divisibility. -/
theorem newframeCountsFrames : Obligations.NewframeCountsFrames := by
  intro s
  simp only [Nat.dvd_iff_mod_eq_zero]
  rfl

/-- The flash phase is that of the frame counter: odd flash periods are on. -/
def FlashInStep (s : State) : Prop :=
  s.video.flashPhase = true ↔ s.video.frameCount / s.params.flashToggleFrames % 2 = 1

/-- The state after VID.NEWFRAME. -/
def State.nextFrame (s : State) : State :=
  { s with
    video := { s.video with
      frameCount := s.video.frameCount + 1
      flashPhase :=
        if s.params.flashToggleFrames ∣ s.video.frameCount + 1 then !s.video.flashPhase else s.video.flashPhase }
    result := .done, calls := [] }

theorem FlashInStep.nextFrame {s : State} (h : FlashInStep s) : FlashInStep s.nextFrame := by
  have hdiv := Nat.succ_div (a := s.video.frameCount) (b := s.params.flashToggleFrames)
  unfold FlashInStep State.nextFrame at *
  by_cases hd : s.params.flashToggleFrames ∣ s.video.frameCount + 1
  · simp only [hd, if_true, Bool.not_eq_true', ← Bool.not_eq_true, h, hdiv]
    omega
  · simp only [hd, if_false, h, hdiv, Nat.add_zero]

/-- Frames one after another keep the flash phase in step. -/
theorem runAll_vidNewframe (n : Nat) : ∀ s : State, FlashInStep s → ∃ t,
    runAll (List.replicate n .vidNewframe) s = some t ∧ FlashInStep t ∧ t.params = s.params ∧
      t.video.frameCount = s.video.frameCount + n := by
  induction n with
  | zero => exact fun s hs => ⟨s, rfl, hs, rfl, rfl⟩
  | succ n ih =>
    intro s hs
    obtain ⟨t, hrun, ht, hparams, hcount⟩ := ih s.nextFrame hs.nextFrame
    refine ⟨t, (runAll_cons (newframeCountsFrames s)).trans hrun, ht, hparams, ?_⟩
    rw [hcount, Nat.add_comm n 1, ← Nat.add_assoc]
    rfl

/-- Settles O32: the flash phase is in step at frame 0 and stays so. -/
theorem flashPhasePeriod : Obligations.FlashPhasePeriod := by
  intro s n _ hcount hflash
  obtain ⟨t, hrun, hstep, hparams, hn⟩ := runAll_vidNewframe n s (by simp [FlashInStep, hcount, hflash])
  rw [hcount, Nat.zero_add] at hn
  exact ⟨t, hrun, hn, by rw [← hn, ← hparams]; exact hstep⟩

/-! ### The latches during a display line (R145, R178 to R185) -/

/-- The pixel latch of the pair that shows byte column `c`. -/
def Video.pixelLatch (v : Video) (c : Nat) : Byte := if c % 2 = 0 then v.pixelByte1 else v.pixelByte2

/-- The latch of attributes of the pair that shows byte column `c`. -/
def Video.attrLatch (v : Video) (c : Nat) : Byte := if c % 2 = 0 then v.attrByte1 else v.attrByte2

/-- What `RenderTact` leaves of the video unit. -/
theorem renderTact_rendered (h : HostWorld) (v : Video) (i : Nat) :
    ∃ pb, (renderTact h v i).1 = v.rendered pb (latchesAfter h v (v.descriptor i)) ∧
      PixelsWritten v.pb pb (v.pixelIndex (v.descriptor i)) (pixelsOf h v i (v.descriptor i)) := by
  obtain ⟨pb, hrender, hpixels⟩ := renderTact_spec h v i
  exact ⟨pb, congrArg Prod.fst hrender, hpixels⟩

section Latches
variable {h : HostWorld} {v : Video} {pb : List Byte} {d : TactDescriptor} (c : Nat)

/-- Without a pixel fetch the pixel latches stay. -/
theorem pixelLatch_kept (hd : fetchesPixel d.phase = false) :
    (v.rendered pb (latchesAfter h v d)).pixelLatch c = v.pixelLatch c := by
  unfold Video.rendered latchesAfter Video.pixelLatch
  cases hp : d.phase <;> simp_all [fetchesPixel]

theorem attrLatch_kept (hd : fetchesAttribute d.phase = false) :
    (v.rendered pb (latchesAfter h v d)).attrLatch c = v.attrLatch c := by
  unfold Video.rendered latchesAfter Video.attrLatch
  cases hp : d.phase <;> simp_all [fetchesAttribute]

/-- The pixel fetch for column `k` loads the latch of its pair. -/
theorem pixelLatch_fetched {k : Nat}
    (hd : d.phase =
      if k = 0 then .borderFetchPixel else if k % 2 = 0 then .displayByte2FetchByte1 else .displayByte1FetchByte2) :
    (v.rendered pb (latchesAfter h v d)).pixelLatch c =
      if c % 2 = k % 2 then h.mem.read d.pixelFetchAddress.toNat else v.pixelLatch c := by
  unfold Video.rendered latchesAfter Video.pixelLatch
  rcases Nat.mod_two_eq_zero_or_one k with hk | hk <;> rcases Nat.mod_two_eq_zero_or_one c with hc | hc <;> 
    split_ifs at hd <;> simp_all

theorem attrLatch_fetched {k : Nat}
    (hd : d.phase =
      if k = 0 then .borderFetchAttr else if k % 2 = 0 then .displayByte2FetchAttr1 else .displayByte1FetchAttr2) :
    (v.rendered pb (latchesAfter h v d)).attrLatch c =
      if c % 2 = k % 2 then h.mem.read d.attributeFetchAddress.toNat else v.attrLatch c := by
  unfold Video.rendered latchesAfter Video.attrLatch
  rcases Nat.mod_two_eq_zero_or_one k with hk | hk <;> rcases Nat.mod_two_eq_zero_or_one c with hc | hc <;> 
    split_ifs at hd <;> simp_all

end Latches

/-- The two pixels of position `q` of the display area come from the pair of its column. -/
theorem pixelsOf_display {h : HostWorld} {v : Video} {i q width : Nat} {d : TactDescriptor}
    (hd : d.phase = displayPhase width q) (hi : i % v.geometry.lineT = v.geometry.borderLeftT + q) :
    pixelsOf h v i d = some
      (pixelColour v.flashPhase ((v.pixelLatch (q / 4)).getLsbD (7 - 2 * (q % 4))) (v.attrLatch (q / 4)),
        pixelColour v.flashPhase ((v.pixelLatch (q / 4)).getLsbD (6 - 2 * (q % 4))) (v.attrLatch (q / 4))) := by
  have hborder : showsBorder (displayPhase width q) = false := by unfold displayPhase; split_ifs <;> rfl
  have hcol : q / 4 % 2 = 0 ↔ q % 8 < 4 := by omega
  simp only [pixelsOf, hd, hborder, showsByte1_displayPhase, showsByte2_displayPhase, hi, Nat.add_sub_cancel_left,
    Video.pixelLatch, Video.attrLatch, hcol, decide_eq_true_eq]
  by_cases h4 : q % 8 < 4
  · simp [h4]
  · simp [h4, Nat.not_lt.mp h4]

/-! ### A display line, tact by tact -/

/-- The colour of pixel `m` of display row `r` by the screen memory (R145 to R147, R172, R173). -/
def screenPixel (h : HostWorld) (g : Geometry) (flash : Bool) (r m : Nat) : Byte :=
  pixelColour flash ((h.mem.read (pixelByteAddress g r (m / 8))).getLsbD (7 - m % 8))
    (h.mem.read (attributeAddress g r (m / 8)))

/-- Where the first pixel of display row `r` lies in the buffer. -/
def rowStart (g : Geometry) (r : Nat) : Nat := (g.borderTopLines + r) * g.screenWidth + 2 * g.borderLeftT

/-- What is true after `n` tacts of the line, counted from the first fetch: a latch holds its column from the tact of the
fetch to the tact of the fetch after next, and the pixels of the display tacts passed are those of the screen memory. -/
structure LineShown (h : HostWorld) (g : Geometry) (flash : Bool) (r n : Nat) (v : Video) : Prop where
  pixel : ∀ c < g.displayT / 4, 4 * c < n → n ≤ 4 * c + 8 → v.pixelLatch c = h.mem.read (pixelByteAddress g r c)
  attr : ∀ c < g.displayT / 4, 4 * c + 1 < n → n ≤ 4 * c + 9 → v.attrLatch c = h.mem.read (attributeAddress g r c)
  shown : ∀ m < 2 * g.displayT, m + 4 < 2 * n → v.pb[rowStart g r + m]? = some (screenPixel h g flash r m)

theorem lineShown_zero (h : HostWorld) (g : Geometry) (flash : Bool) (r : Nat) (v : Video) : LineShown h g flash r 0 v :=
  ⟨fun _ _ h0 => absurd h0 (Nat.not_lt_zero _), fun _ _ h0 => absurd h0 (Nat.not_lt_zero _),
    fun _ _ h0 => absurd h0 (Nat.not_lt_zero _)⟩

/-- The descriptor of tact `n` of the line, counted from the first fetch. -/
def lineDescriptor (g : Geometry) (r n : Nat) : TactDescriptor :=
  descriptorAt g (g.firstDisplayLine + r) (g.borderLeftT + n - 2)

/-- The tacts from position 0 on show the display area. -/
theorem lineDescriptor_display {g : Geometry} {r q : Nat} (hr : r < g.displayLines) (hq : q < g.displayT) :
    (lineDescriptor g r (q + 2)).phase = displayPhase g.displayT q := by
  rw [lineDescriptor, ← Nat.add_assoc, Nat.add_sub_cancel]
  exact phaseAt_display (displayRow_lt hr).2 hq

section Line
variable {g : Geometry} (hg : g.valid = true) {r n : Nat} (hr : r < g.displayLines)
include hg hr

/-- The pixel fetches are the tacts 0, 4, 8 and so on, one for each column. -/
theorem lineDescriptor_fetchesPixel (hn : n < g.displayT + 2) (hf : fetchesPixel (lineDescriptor g r n).phase = true) :
    ∃ k < g.displayT / 4, n = 4 * k := by
  obtain ⟨-, ⟨hwide, hwidth, -⟩, ⟨hleft, -⟩, -⟩ := Geometry.valid_iff.mp hg
  have hl := (displayRow_lt hr).2
  match n with
  | 0 => exact ⟨0, by omega, rfl⟩
  | 1 =>
    have hattr : (lineDescriptor g r 1).phase = .borderFetchAttr := phaseAt_fetchAttr hl (by omega)
    rw [hattr] at hf
    cases hf
  | q + 2 =>
    rw [lineDescriptor_display hr (by omega)] at hf
    have := displayPhase_fetchesPixel hwidth (by omega) hf
    exact ⟨q / 4 + 1, by omega, by omega⟩

/-- The fetches of attributes are the tacts 1, 5, 9 and so on. -/
theorem lineDescriptor_fetchesAttribute (hn : n < g.displayT + 2)
    (hf : fetchesAttribute (lineDescriptor g r n).phase = true) : ∃ k < g.displayT / 4, n = 4 * k + 1 := by
  obtain ⟨-, ⟨hwide, hwidth, -⟩, ⟨hleft, -⟩, -⟩ := Geometry.valid_iff.mp hg
  have hl := (displayRow_lt hr).2
  match n with
  | 0 =>
    have hpix : (lineDescriptor g r 0).phase = .borderFetchPixel := phaseAt_fetchPixel hl (by omega)
    rw [hpix] at hf
    cases hf
  | 1 => exact ⟨0, by omega, rfl⟩
  | q + 2 =>
    rw [lineDescriptor_display hr (by omega)] at hf
    have := displayPhase_fetchesAttribute hwidth (by omega) hf
    exact ⟨q / 4 + 1, by omega, by omega⟩

end Line

section Step
variable {h : HostWorld} {v : Video} {r n : Nat} (hv : VideoInv v) (hr : r < v.geometry.displayLines)
  (hn : n < v.geometry.displayT + 2) (hs : LineShown h v.geometry v.flashPhase r n v)
include hv hr hn hs

/-- The pixel latches after tact `n`: a fetch loads the column of its tact into the pair of the column before last. -/
theorem LineShown.pixel_step (pb : List Byte) {c : Nat} (hc : c < v.geometry.displayT / 4) (h0 : 4 * c < n + 1)
    (h8 : n + 1 ≤ 4 * c + 8) :
    (v.rendered pb (latchesAfter h v (lineDescriptor v.geometry r n))).pixelLatch c =
      h.mem.read (pixelByteAddress v.geometry r c) := by
  have hg := hv.geometry
  obtain ⟨⟨-, hlines⟩, ⟨-, -, hwidth⟩, -⟩ := Geometry.valid_iff.mp hg
  cases hf : fetchesPixel (lineDescriptor v.geometry r n).phase with
  | false =>
    rw [pixelLatch_kept c hf]
    have hne : n ≠ 4 * c := by
      rintro rfl
      have hphase := (descriptorAt_columnPixel hg (displayRow_lt hr).2 hc).2
      rw [lineDescriptor, hphase] at hf
      split_ifs at hf <;> cases hf
    exact hs.pixel c hc (by omega) (by omega)
  | true =>
    obtain ⟨k, hk, rfl⟩ := lineDescriptor_fetchesPixel hg hr hn hf
    obtain ⟨haddr, hphase⟩ := descriptorAt_columnPixel hg (displayRow_lt hr).2 hk
    rw [lineDescriptor, pixelLatch_fetched c hphase]
    by_cases hck : c % 2 = k % 2
    · obtain rfl : c = k := by omega
      have hlt := pixelByteAddress_lt hg (r := r) (c := c) (by omega) (by omega)
      rw [if_pos rfl, haddr, Nat.add_sub_cancel_left, BitVec.toNat_ofNat, Nat.mod_eq_of_lt hlt]
    · rw [if_neg hck]
      exact hs.pixel c hc (by omega) (by omega)

/-- The latches of attributes after tact `n`. -/
theorem LineShown.attr_step (pb : List Byte) {c : Nat} (hc : c < v.geometry.displayT / 4) (h0 : 4 * c + 1 < n + 1)
    (h8 : n + 1 ≤ 4 * c + 9) :
    (v.rendered pb (latchesAfter h v (lineDescriptor v.geometry r n))).attrLatch c =
      h.mem.read (attributeAddress v.geometry r c) := by
  have hg := hv.geometry
  obtain ⟨⟨-, hlines⟩, ⟨-, -, hwidth⟩, ⟨hleft, -⟩, -⟩ := Geometry.valid_iff.mp hg
  have hat (k : Nat) : v.geometry.borderLeftT + (4 * k + 1) - 2 = v.geometry.borderLeftT + 4 * k - 1 := by omega
  cases hf : fetchesAttribute (lineDescriptor v.geometry r n).phase with
  | false =>
    rw [attrLatch_kept c hf]
    have hne : n ≠ 4 * c + 1 := by
      rintro rfl
      have hphase := (descriptorAt_columnAttribute hg (displayRow_lt hr).2 hc).2
      rw [lineDescriptor, hat, hphase] at hf
      split_ifs at hf <;> cases hf
    exact hs.attr c hc (by omega) (by omega)
  | true =>
    obtain ⟨k, hk, rfl⟩ := lineDescriptor_fetchesAttribute hg hr hn hf
    obtain ⟨haddr, hphase⟩ := descriptorAt_columnAttribute hg (displayRow_lt hr).2 hk
    rw [lineDescriptor, hat, attrLatch_fetched c hphase]
    by_cases hck : c % 2 = k % 2
    · obtain rfl : c = k := by omega
      have hlt := attributeAddress_lt hg (r := r) (c := c) (by omega) (by omega)
      rw [if_pos rfl, haddr, Nat.add_sub_cancel_left, BitVec.toNat_ofNat, Nat.mod_eq_of_lt hlt]
    · rw [if_neg hck]
      exact hs.attr c hc (by omega) (by omega)

/-- The pixels of position `q`, shown from latches that hold its column, are those of the screen memory. -/
theorem LineShown.pixelsOf_line {i q : Nat} (hq : n = q + 2)
    (hi : i % v.geometry.lineT = v.geometry.borderLeftT + q) :
    pixelsOf h v i (lineDescriptor v.geometry r n) = some
      (screenPixel h v.geometry v.flashPhase r (2 * q), screenPixel h v.geometry v.flashPhase r (2 * q + 1)) := by
  subst hq
  obtain ⟨-, ⟨-, hwidth, -⟩, -⟩ := Geometry.valid_iff.mp hv.geometry
  rw [pixelsOf_display (lineDescriptor_display hr (by omega)) hi,
    hs.pixel (q / 4) (by omega) (by omega) (by omega), hs.attr (q / 4) (by omega) (by omega) (by omega)]
  simp only [screenPixel, show 2 * q / 8 = q / 4 by omega, show (2 * q + 1) / 8 = q / 4 by omega,
    show 7 - 2 * q % 8 = 7 - 2 * (q % 4) by omega, show 7 - (2 * q + 1) % 8 = 6 - 2 * (q % 4) by omega]

end Step

/-- The buffer index of position `q` of a display row, and that the row lies in the buffer (R144). -/
theorem pixelIndex_lineDescriptor {v : Video} (hw : v.geometry.screenWidth ≤ 65536)
    (hh : v.geometry.screenLines ≤ 65536) {r q : Nat} (hr : r < v.geometry.displayLines)
    (hq : q < v.geometry.displayT) :
    v.pixelIndex (lineDescriptor v.geometry r (q + 2)) = rowStart v.geometry r + 2 * q := by
  have hvis := visible_of_displayLine (displayRow_lt hr).2
    (show v.geometry.borderLeftT + q < v.geometry.visibleT by rw [Geometry.visibleT]; omega)
  obtain ⟨hx, hy⟩ := descriptorAt_coordinates hw hh hvis
  have hrow : v.geometry.firstDisplayLine = v.geometry.firstVisibleLine + v.geometry.borderTopLines := rfl
  rw [Video.pixelIndex, lineDescriptor, ← Nat.add_assoc, Nat.add_sub_cancel, rowStart, hx,
    show (descriptorAt v.geometry (v.geometry.firstDisplayLine + r) (v.geometry.borderLeftT + q)).y.toNat =
      v.geometry.borderTopLines + r by omega]
  omega

theorem rowStart_lt {v : Video} (hv : VideoInv v) {r m : Nat} (hr : r < v.geometry.displayLines)
    (hm : m < 2 * v.geometry.displayT) : rowStart v.geometry r + m < v.pb.length := by
  have hrows : (v.geometry.borderTopLines + r + 1) * v.geometry.screenWidth ≤
      v.geometry.screenLines * v.geometry.screenWidth :=
    Nat.mul_le_mul_right _ (by rw [Geometry.screenLines]; omega)
  rw [Nat.succ_mul] at hrows
  have hcols : 2 * v.geometry.borderLeftT + m < v.geometry.screenWidth := by
    rw [Geometry.screenWidth, Geometry.visibleT]; omega
  rw [rowStart, hv.size, Geometry.pixelCount, Nat.mul_comm v.geometry.screenWidth]
  omega

/-- One tact of the line (R175). -/
theorem LineShown.step {h : HostWorld} {v : Video} {r n : Nat} (hv : VideoInv v) (hw : v.geometry.screenWidth ≤ 65536)
    (hh : v.geometry.screenLines ≤ 65536) (hr : r < v.geometry.displayLines) (hn : n < v.geometry.displayT + 2)
    (hs : LineShown h v.geometry v.flashPhase r n v) :
    LineShown h v.geometry v.flashPhase r (n + 1) (renderTact h v
      ((v.geometry.firstDisplayLine + r) * v.geometry.lineT + (v.geometry.borderLeftT + n - 2))).1 := by
  have hg := hv.geometry
  have ht : v.geometry.borderLeftT + n - 2 < v.geometry.lineT := by
    obtain ⟨-, ⟨hwide, -⟩, ⟨hleft, -⟩, -⟩ := Geometry.valid_iff.mp hg
    exact lt_lineT (by omega)
  have hd : v.descriptor ((v.geometry.firstDisplayLine + r) * v.geometry.lineT + (v.geometry.borderLeftT + n - 2)) =
      lineDescriptor v.geometry r n := by
    rw [hv.descriptor_eq, Nat.mod_eq_of_lt (Geometry.tact_lt (displayRow_lt hr).1 ht), describeTact_eq hg ht,
      lineDescriptor]
  obtain ⟨pb, hrender, hlength, hpixels⟩ := renderTact_rendered h v
    ((v.geometry.firstDisplayLine + r) * v.geometry.lineT + (v.geometry.borderLeftT + n - 2))
  rw [hrender, hd]
  rw [hd] at hpixels
  refine ⟨fun c => hs.pixel_step hv hr hn pb, fun c => hs.attr_step hv hr hn pb, fun m hm hmn => ?_⟩
  obtain ⟨q, rfl⟩ : ∃ q, n = q + 2 := ⟨n - 2, by omega⟩
  have hi : ((v.geometry.firstDisplayLine + r) * v.geometry.lineT + (v.geometry.borderLeftT + (q + 2) - 2)) %
      v.geometry.lineT = v.geometry.borderLeftT + q := (Geometry.line_of_tact ht).2
  rw [hs.pixelsOf_line hv hr hn rfl hi, pixelIndex_lineDescriptor hw hh hr (by omega)] at hpixels
  refine (hpixels _ (rowStart_lt hv hr hm)).trans ?_
  obtain rfl | rfl | hlt : m = 2 * q ∨ m = 2 * q + 1 ∨ m < 2 * q := by omega
  · exact if_pos rfl
  · exact (if_neg (by omega)).trans (if_pos rfl)
  · exact (if_neg (by omega)).trans ((if_neg (by omega)).trans (hs.shown m hm (by omega)))

/-! ### The invariant of the video unit under rendering -/

theorem pixelColour_lt (flash bit : Bool) (a : Byte) : (pixelColour flash bit a).toNat < 16 := by
  rw [← colour_eq]
  exact colour_lt flash bit a

theorem border_lt (b : Byte) : (b &&& 0x0F).toNat < 16 := by
  rw [BitVec.toNat_and]
  exact Nat.lt_of_le_of_lt Nat.and_le_right (by decide)

/-- Every pixel of a tact is a palette index. -/
theorem pixelsOf_lt {h : HostWorld} {v : Video} {i : Nat} {d : TactDescriptor} {c0 c1 : Byte}
    (hp : pixelsOf h v i d = some (c0, c1)) : c0.toNat < 16 ∧ c1.toNat < 16 := by
  unfold pixelsOf at hp
  split_ifs at hp <;> cases hp
  · exact ⟨border_lt _, border_lt _⟩
  · exact ⟨pixelColour_lt _ _ _, pixelColour_lt _ _ _⟩
  · exact ⟨pixelColour_lt _ _ _, pixelColour_lt _ _ _⟩

/-- Pixels written in the palette keep the buffer in the palette. -/
theorem PixelsWritten.palette {pb pb' : List Byte} {o : Nat} {px : Option (Byte × Byte)} (hw : PixelsWritten pb pb' o px)
    (hpx : ∀ c0 c1, px = some (c0, c1) → c0.toNat < 16 ∧ c1.toNat < 16) (hpb : ∀ b ∈ pb, b.toNat < 16) :
    ∀ b ∈ pb', b.toNat < 16 := by
  obtain ⟨hlength, hget⟩ := hw
  intro b hb
  obtain ⟨k, hk, rfl⟩ := List.mem_iff_getElem.mp hb
  have hgetk := hget k (hlength ▸ hk)
  rw [List.getElem?_eq_getElem hk] at hgetk
  match px, hpx with
  | none, _ => exact hpb _ (List.mem_of_getElem? hgetk.symm)
  | some (c0, c1), hpx =>
    obtain ⟨h0, h1⟩ := hpx c0 c1 rfl
    dsimp only at hgetk
    split_ifs at hgetk
    · rwa [Option.some.inj hgetk]
    · rwa [Option.some.inj hgetk]
    · exact hpb _ (List.mem_of_getElem? hgetk.symm)

theorem VideoInv.renderTact {v : Video} (hv : VideoInv v) (h : HostWorld) (i : Nat) :
    VideoInv (renderTact h v i).1 := by
  obtain ⟨pb, hrender, hpixels⟩ := renderTact_rendered h v i
  rw [hrender]
  exact ⟨hv.geometry, hv.table, hpixels.1.trans hv.size, PixelsWritten.palette hpixels (fun _ _ => pixelsOf_lt) hv.palette⟩

theorem VideoInv.renderTacts {h : HostWorld} (n : Nat) : ∀ {v : Video}, VideoInv v → ∀ tact,
    VideoInv (renderTacts h v tact n).1 := by
  induction n with
  | zero => exact fun hv _ => hv
  | succ n ih => exact fun hv tact => ih (hv.renderTact h _) (tact + 1)

/-! ### The whole line -/

/-- The first `n` tacts of a display line, rendered from the first fetch on. -/
theorem lineShown_renderTacts {h : HostWorld} {v : Video} (hv : VideoInv v) (hw : v.geometry.screenWidth ≤ 65536)
    (hh : v.geometry.screenLines ≤ 65536) {r : Nat} (hr : r < v.geometry.displayLines) (n : Nat)
    (hn : n ≤ v.geometry.displayT + 2) :
    LineShown h v.geometry v.flashPhase r n (renderTacts h v
      ((v.geometry.firstDisplayLine + r) * v.geometry.lineT + v.geometry.borderLeftT - 2) n).1 := by
  obtain ⟨-, -, ⟨hleft, -⟩, -⟩ := Geometry.valid_iff.mp hv.geometry
  induction n with
  | zero => exact lineShown_zero ..
  | succ n ih =>
    have ih := ih (by omega)
    have hinv := hv.renderTacts (h := h) n
      ((v.geometry.firstDisplayLine + r) * v.geometry.lineT + v.geometry.borderLeftT - 2)
    obtain ⟨hgeo, -, -, hflash, -⟩ := renderTacts_keeps h v
      ((v.geometry.firstDisplayLine + r) * v.geometry.lineT + v.geometry.borderLeftT - 2) n
    rw [renderTacts_add, renderTacts_one]
    generalize (renderTacts h v _ n).1 = u at ih hinv hgeo hflash ⊢
    rw [← hgeo, ← hflash] at ih ⊢
    rw [← hgeo] at hw hh hr hn hleft
    have htact := Geometry.tact_lt (displayRow_lt hr).1
      (lt_lineT (g := u.geometry) (t := u.geometry.borderLeftT + n - 2) (by omega))
    rw [show (u.geometry.firstDisplayLine + r) * u.geometry.lineT + u.geometry.borderLeftT - 2 + n =
      (u.geometry.firstDisplayLine + r) * u.geometry.lineT + (u.geometry.borderLeftT + n - 2) by omega,
      Nat.mod_eq_of_lt htact]
    exact ih.step hinv hw hh hr (by omega)

/-- Settles O30: the range is the `DISPLAY_T + 2` tacts of the line, after which every pixel of the row is shown. -/
theorem renderedLineShowsScreenMemory : Obligations.RenderedLineShowsScreenMemory := by
  intro s r hv g hw hh hr first
  obtain ⟨-, ⟨hwide, -⟩, ⟨hleft, -⟩, -⟩ := (Geometry.valid_iff (g := g)).mp hv.geometry
  have hfirst : first = (g.firstDisplayLine + r) * g.lineT + g.borderLeftT := rfl
  have hline := lineShown_renderTacts (h := s.host) hv hw hh hr (g.displayT + 2) le_rfl
  have hcount : tactsIn (first - 2) (first + g.displayT - 1) = g.displayT + 2 := by rw [tactsIn]; omega
  refine ⟨_, rfl, fun c hc k hk => ?_⟩
  have hpixel := hline.shown (8 * c + k) (show 8 * c + k < 2 * g.displayT by omega) (by omega)
  rw [screenPixel, show (8 * c + k) / 8 = c by omega, show (8 * c + k) % 8 = k by omega] at hpixel
  rw [hcount, Nat.add_assoc _ (8 * c) k]
  exact hpixel

end Sys2Proof.Machine
end

section
/-! PROOF. TAPE.EAR from any state and from a state in good order (42_tape_load R206 to R217): the same tact again, and
that the walk over the blocks goes on, forwards only. -/

namespace Sys2Proof.Machine

open Sys2Proof Sys2Proof.Spec

/-! ### The same tact again (R216)

A call that leaves the block unfinished leaves cursors that the same tact does not move: each phase function tests the
cursor that its call has just caught up. -/

section Again
variable {b : TapeBlock} {tact : Nat} {level : Bool}

theorem pauseEar_again {p p' : Playback} (hp : p.phase = .pause) (h : pauseEar tact p = (p', level))
    (hc : p'.phase ≠ .completed) : blockEar b tact p' = .ok (p', level) := by
  unfold pauseEar at h
  split at h
  case isTrue ht =>
    cases h
    simp only [blockEar, hp, pauseEar, ht, if_true]
  case isFalse => cases h; exact absurd rfl hc

theorem termSyncEar_again {p p' : Playback} (hp : p.phase = .termSync) (h : termSyncEar b tact p = (p', level))
    (hc : p'.phase ≠ .completed) : blockEar b tact p' = .ok (p', level) := by
  unfold termSyncEar at h
  split at h
  case isTrue ht =>
    cases h
    simp only [blockEar, hp, termSyncEar, ht, if_true]
  case isFalse => exact pauseEar_again rfl h hc

theorem dataEar_again {n : Nat} : ∀ {p p' : Playback}, p.phase = .data → dataEar b tact p n = (p', level) →
    p'.phase ≠ .completed → blockEar b tact p' = .ok (p', level) := by
  induction n with
  | zero => exact fun _ h hc => termSyncEar_again rfl h hc
  | succ n ih =>
    intro p p' hp h hc
    unfold dataEar at h
    split at h
    case isTrue ht =>
      cases h
      simp only [blockEar, hp, dataPasses, dataEar, ht, if_true]
    case isFalse hlow =>
      split at h
      case isTrue hhigh =>
        cases h
        simp only [blockEar, hp, dataPasses, dataEar, hlow, hhigh, if_false, if_true]
      case isFalse =>
        split at h
        · exact ih (p := { p.nextBit with bitPulseLength := _ }) hp h hc
        · exact termSyncEar_again rfl h hc

theorem syncEar_again {p p' : Playback} (hp : p.phase = .sync) (h : syncEar b tact p = .ok (p', level))
    (hc : p'.phase ≠ .completed) : blockEar b tact p' = .ok (p', level) := by
  have h0 := h
  unfold syncEar at h
  split at h
  case isTrue => cases h; simpa only [blockEar, hp] using h0
  case isFalse =>
    split at h
    case isTrue => cases h; simpa only [blockEar, hp] using h0
    case isFalse =>
      split at h
      · cases h
      · exact dataEar_again rfl (Except.ok.inj h) hc

theorem pilotEar_again {p p' : Playback} (hp : p.phase = .pilot) (h : pilotEar b tact p = .ok (p', level))
    (hc : p'.phase ≠ .completed) : blockEar b tact p' = .ok (p', level) := by
  have h0 := h
  unfold pilotEar at h
  split at h
  case isTrue => cases h; simpa only [blockEar, hp] using h0
  case isFalse => exact syncEar_again rfl h hc

/-- `BlockEar` at the same tact moves no cursor again, unless the block was completed. -/
theorem blockEar_again {p p' : Playback} (h : blockEar b tact p = .ok (p', level)) (hc : p'.phase ≠ .completed) :
    blockEar b tact p' = .ok (p', level) := by
  have h0 := h
  unfold blockEar at h
  split at h <;> rename_i hp
  · exact pilotEar_again hp h hc
  · exact syncEar_again hp h hc
  · exact dataEar_again hp (Except.ok.inj h) hc
  · exact termSyncEar_again hp (Except.ok.inj h) hc
  · exact pauseEar_again hp (Except.ok.inj h) hc
  · cases h; exact h0

end Again

/-- The tape unit stands in a block that the tact does not complete, at level `level`. -/
def SettledIn (tact : Nat) (level : Bool) (t : TapeUnit) : Prop :=
  ∃ b bs, t.remaining = b :: bs ∧ blockEar b tact t.play = .ok (t.play, level) ∧ t.play.phase ≠ .completed

theorem getElem?_of_remaining {t : TapeUnit} {b : TapeBlock} {bs : List TapeBlock} (h : t.remaining = b :: bs) :
    t.image[t.blockIndex]? = some b := by
  rw [← Nat.add_zero t.blockIndex, ← List.getElem?_drop]
  exact congrArg (·[0]?) h

theorem remaining_next {t : TapeUnit} {b : TapeBlock} {bs : List TapeBlock} (h : t.remaining = b :: bs) :
    { t with blockIndex := t.blockIndex + 1 }.remaining = bs := by
  simp only [TapeUnit.remaining] at h ⊢
  rw [← List.drop_drop, h, List.drop_one, List.tail_cons]

/-- The walk over the blocks ends past the last one, or settled in a block. -/
theorem earBlocks_settled {tact : Nat} {level : Bool} {bs : List TapeBlock} : ∀ {t t' : TapeUnit},
    t.remaining = bs → earBlocks tact bs t = .ok (t', level) →
    (t'.playerCompleted = true ∧ level = true) ∨
    (t'.playerCompleted = t.playerCompleted ∧ SettledIn tact level t') := by
  induction bs with
  | nil => intro t t' _ h; cases h
  | cons b bs ih =>
    intro t t' hrem h
    unfold earBlocks at h
    split at h
    · cases h
    · rename_i p l hear
      split at h
      case isTrue hc =>
        cases h
        exact .inr ⟨rfl, b, bs, hrem, blockEar_again hear hc, hc⟩
      case isFalse =>
        dsimp only at h
        split at h
        · cases h; exact .inl ⟨rfl, rfl⟩
        · split at h
          · cases h
          · rename_i t2 hinit
            obtain ⟨c, -, -, rfl⟩ := initBlock_ok hinit
            exact ih (t := { t with
              blockIndex := t.blockIndex + 1, play := started c p.pauseEndTact, lastTact := tact, initialised := true })
              (remaining_next hrem) h

/-- Settles O35: a call that completes leaves a state that answers the same tact alike. -/
theorem earRepeatsAtSameTact : Obligations.EarRepeatsAtSameTact := by
  intro s t tact h
  obtain ⟨hr, ⟨hidle, rfl⟩ | ⟨hm, hc, hi, rfl⟩ | ⟨hm, hc, hi, ht, rfl⟩ | ⟨hm, hc, hi, -, t', level, hwalk, rfl⟩⟩ :=
    execTapeEar_cases h
  · exact exec_tapeEar_idle (s := s.answer (.bit true) []) hr hidle
  · exact exec_tapeEar_unstarted (s := s.answer (.error .tapeNotInitialised) []) hr hm hc hi
  · exact exec_tapeEar_outOfOrder (s := s.answer (.error .tapeOrderViolation) []) hr hm hc hi ht
  · have hframe := earBlocks_frame (t := { s.tape with lastTact := tact }) rfl hi hwalk
    have hr' : TapeReady ((s.setTape t').answer (.bit level) []) := by
      show t'.imageStale = false
      rw [hframe]; exact hr
    obtain ⟨hdone, rfl⟩ | ⟨hsame, b, bs, hrem, hear, hp⟩ :=
      earBlocks_settled (t := { s.tape with lastTact := tact }) rfl hwalk
    · exact exec_tapeEar_idle hr' (.inr hdone)
    · have hm' : t'.mode = .load := by rw [hframe]; exact hm
      have hi' : t'.initialised = true := by rw [hframe]; exact hi
      have ht' : t'.lastTact = tact := by rw [hframe]
      refine (exec_tapeEar_within (s := (s.setTape t').answer (.bit level) []) hr' hm' (hsame.trans hc) hi' ht'.le
        (getElem?_of_remaining hrem) hear hp).trans ?_
      rw [← ht']
      rfl

/-! ### Playback in good order (R32, R33) -/

/-- The playback clauses of `TapeInv`: no byte cursor before the data, one mask bit, a pulse length of R13. -/
structure PlayInv (p : Playback) : Prop where
  cursor : p.phase = .pilot ∨ p.phase = .sync → p.byteIndex = 0
  mask : p.bitMask ∈ oneHotMasks
  pulse : p.bitPulseLength = 0 ∨ p.bitPulseLength = bit0Pl ∨ p.bitPulseLength = bit1Pl

theorem playInv_started (b : TapeBlock) (start : Nat) : PlayInv (started b start) :=
  ⟨fun _ => rfl, show 0x80#8 ∈ oneHotMasks by decide, .inl rfl⟩

theorem pulseLen_cases (byte mask : Byte) : pulseLen byte mask = bit0Pl ∨ pulseLen byte mask = bit1Pl := by
  unfold pulseLen
  split
  · exact .inl rfl
  · exact .inr rfl

/-- The mask stays one bit when it moves, and starts again at bit 7. -/
theorem nextMask_oneHot : ∀ m ∈ oneHotMasks, (if m >>> 1 = 0 then 0x80#8 else m >>> 1) ∈ oneHotMasks := by decide

/-- A phase behind the pilot and the sync pulses. -/
def PlayPhase.late : PlayPhase → Prop
  | .pilot | .sync => False
  | _ => True

/-- Behind the sync pulses the byte cursor is free. -/
theorem PlayInv.of_late {p : Playback} (hp : p.phase.late) (hmask : p.bitMask ∈ oneHotMasks)
    (hpulse : p.bitPulseLength = 0 ∨ p.bitPulseLength = bit0Pl ∨ p.bitPulseLength = bit1Pl) : PlayInv p where
  cursor h := by
    obtain h | h := h <;> rw [h] at hp <;> exact hp.elim
  mask := hmask
  pulse := hpulse

section Keeps
variable (b : TapeBlock) (tact : Nat)

theorem pauseEar_playInv {p : Playback} (h : PlayInv p) : PlayInv (pauseEar tact p).1 := by
  unfold pauseEar
  split
  · exact h
  · exact .of_late trivial h.mask h.pulse

theorem termSyncEar_playInv {p : Playback} (h : PlayInv p) : PlayInv (termSyncEar b tact p).1 := by
  unfold termSyncEar
  split
  · exact h
  · exact pauseEar_playInv tact (.of_late trivial h.mask h.pulse)

theorem dataEar_playInv (n : Nat) : ∀ {p : Playback}, p.phase = .data → PlayInv p → PlayInv (dataEar b tact p n).1 := by
  induction n with
  | zero => exact fun _ h => termSyncEar_playInv b tact (.of_late trivial h.mask h.pulse)
  | succ n ih =>
    intro p hp h
    have hmask : p.nextBit.bitMask ∈ oneHotMasks := nextMask_oneHot _ h.mask
    unfold dataEar
    split
    · exact h
    · split
      · exact h
      · split
        · exact ih (p := { p.nextBit with bitPulseLength := _ }) hp
            (.of_late (by rw [show p.nextBit.phase = .data from hp]; trivial) hmask (.inr (pulseLen_cases _ _)))
        · exact termSyncEar_playInv b tact (.of_late trivial hmask h.pulse)

variable {b} (hb : b.data ≠ [])
include hb

/-- Where the block has data and its cursor is at the start, the sync pulses lead into the data. -/
theorem syncEar_ok {p : Playback} (hp : p.phase = .sync) (h : PlayInv p) :
    ∃ p' level, syncEar b tact p = .ok (p', level) ∧ PlayInv p' := by
  obtain ⟨byte, hbyte⟩ : ∃ byte, b.data[p.byteIndex]? = some byte := by
    rw [h.cursor (.inr hp)]
    exact ⟨b.data.head hb, by rw [List.head_eq_getElem, List.getElem?_eq_getElem]⟩
  unfold syncEar
  split
  · exact ⟨_, _, rfl, h⟩
  · split
    · exact ⟨_, _, rfl, h⟩
    · rw [hbyte]
      exact ⟨_, _, rfl, dataEar_playInv b tact (dataPasses b)
        (p := { p with phase := .data, bitStartTact := p.sync2EndTact, bitPulseLength := pulseLen byte p.bitMask }) rfl
        (.of_late trivial h.mask (.inr (pulseLen_cases _ _)))⟩

theorem pilotEar_ok {p : Playback} (hp : p.phase = .pilot) (h : PlayInv p) :
    ∃ p' level, pilotEar b tact p = .ok (p', level) ∧ PlayInv p' := by
  unfold pilotEar
  split
  · exact ⟨_, _, rfl, h⟩
  · exact syncEar_ok tact hb rfl ⟨fun _ => h.cursor (.inl hp), h.mask, h.pulse⟩

/-- `BlockEar` goes on in a block with data and keeps the playback in good order. -/
theorem blockEar_ok {p : Playback} (h : PlayInv p) : ∃ p' level, blockEar b tact p = .ok (p', level) ∧ PlayInv p' := by
  unfold blockEar
  split <;> rename_i hp
  · exact pilotEar_ok tact hb hp h
  · exact syncEar_ok tact hb hp h
  · exact ⟨_, _, rfl, dataEar_playInv b tact (dataPasses b) hp h⟩
  · exact ⟨_, _, rfl, termSyncEar_playInv b tact h⟩
  · exact ⟨_, _, rfl, pauseEar_playInv tact h⟩
  · exact ⟨_, _, rfl, h⟩

end Keeps

/-! ### The walk over the blocks (R206) -/

/-- The tape unit moved on to the next block `c`, which starts at `start`, on the call at `tact` (R214). -/
def TapeUnit.movedOn (t : TapeUnit) (c : TapeBlock) (start tact : Nat) : TapeUnit :=
  { t with blockIndex := t.blockIndex + 1, play := started c start, lastTact := tact, initialised := true }

section Walk
variable {tact : Nat} {b : TapeBlock} {t : TapeUnit} {p : Playback} {level : Bool}

/-- The walk past the last block completes the tape. -/
theorem earBlocks_last (h : blockEar b tact t.play = .ok (p, level)) (hp : p.phase = .completed) :
    earBlocks tact [b] t = .ok ({ t with play := p, blockIndex := t.blockIndex + 1, playerCompleted := true }, true) := by
  simp [earBlocks, h, hp]

/-- The walk past another block goes on with the next, started where the pause ended. -/
theorem earBlocks_next {c : TapeBlock} {bs : List TapeBlock} (h : blockEar b tact t.play = .ok (p, level))
    (hp : p.phase = .completed) (hc : t.image[t.blockIndex + 1]? = some c) (hd : c.data ≠ []) :
    earBlocks tact (b :: c :: bs) t = earBlocks tact (c :: bs) (t.movedOn c p.pauseEndTact tact) := by
  have hinit := initBlock_some (t := { t with play := p, blockIndex := t.blockIndex + 1 }) p.pauseEndTact hc hd
  rw [earBlocks, h]
  simp only [hp, hinit]
  rfl

end Walk

/-- What the walk leaves: the playback in good order, and either the tape completed past its last block at level 1, or the
block index inside the image; the index never goes back. -/
structure WalkEnds (t t' : TapeUnit) (level : Bool) : Prop where
  play : PlayInv t'.play
  forwards : t.blockIndex ≤ t'.blockIndex
  ends : (t'.playerCompleted = true ∧ t'.blockIndex = t.image.length ∧ level = true) ∨
    (t'.playerCompleted = t.playerCompleted ∧ t'.blockIndex < t.image.length)

/-- The walk goes on where every block left has data. -/
theorem earBlocks_ok {tact : Nat} {bs : List TapeBlock} : ∀ {b : TapeBlock} {t : TapeUnit}, t.remaining = b :: bs →
    (∀ b' ∈ b :: bs, b'.data ≠ []) → PlayInv t.play →
    ∃ t' level, earBlocks tact (b :: bs) t = .ok (t', level) ∧ WalkEnds t t' level := by
  induction bs with
  | nil =>
    intro b t hrem hdata hplay
    have hlength : t.image.length = t.blockIndex + 1 := by
      have h := congrArg List.length hrem
      rw [TapeUnit.remaining, List.length_drop, List.length_singleton] at h
      omega
    obtain ⟨p, level, hear, hp⟩ := blockEar_ok tact (hdata b (by simp)) hplay
    by_cases hc : p.phase = .completed
    · exact ⟨_, _, earBlocks_last hear hc, hp, Nat.le_succ _, .inl ⟨rfl, hlength.symm, rfl⟩⟩
    · exact ⟨_, _, earBlocks_within hear hc, hp, le_rfl, .inr ⟨rfl, hlength ▸ Nat.lt_succ_self _⟩⟩
  | cons c bs ih =>
    intro b t hrem hdata hplay
    have hnext := remaining_next hrem
    obtain ⟨hlength, -⟩ := List.getElem?_eq_some_iff.mp (getElem?_of_remaining hrem)
    obtain ⟨p, level, hear, hp⟩ := blockEar_ok tact (hdata b (by simp)) hplay
    by_cases hc : p.phase = .completed
    · obtain ⟨t', level', hwalk, hends⟩ := ih (t := t.movedOn c p.pauseEndTact tact) hnext
        (fun b' hb' => hdata b' (List.mem_cons_of_mem _ hb')) (playInv_started _ _)
      rw [earBlocks_next hear hc (getElem?_of_remaining hnext) (hdata c (by simp))]
      exact ⟨t', level', hwalk, hends.play, Nat.le_of_succ_le hends.forwards, hends.ends⟩
    · exact ⟨_, _, earBlocks_within hear hc, hp, le_rfl, .inr ⟨rfl, hlength⟩⟩

theorem TapeInv.playInv {capacity : Nat} {t : TapeUnit} (h : TapeInv capacity t) : PlayInv t.play :=
  ⟨h.cursor, h.mask, h.pulse⟩

/-- TAPE.EAR that plays goes on in a state in good order. -/
theorem exec_tapeEar_playing {s : State} {tact : Nat} (hinv : TapeInv s.params.saveBufferCapacity s.tape)
    (hr : TapeReady s) (hm : s.tape.mode = .load) (hc : s.tape.playerCompleted = false)
    (hi : s.tape.initialised = true) (ht : s.tape.lastTact ≤ tact) :
    ∃ t level, exec (.tapeEar tact) s = complete (.bit level) (s.setTape t) ∧
      t = { s.tape with
        play := t.play, blockIndex := t.blockIndex, playerCompleted := t.playerCompleted, lastTact := tact } ∧
      WalkEnds s.tape t level := by
  obtain ⟨hindex, hempty⟩ := hinv.playing hr hi hc
  have hrem : s.tape.remaining = s.tape.image[s.tape.blockIndex] :: s.tape.image.drop (s.tape.blockIndex + 1) :=
    List.drop_eq_getElem_cons hindex
  have hdata : ∀ b ∈ s.tape.remaining, b.data ≠ [] := fun b hb hd =>
    (hasEmptyBlock_eq_false _).mp hempty ⟨b, List.mem_of_mem_drop hb, hd⟩
  obtain ⟨t, level, hwalk, hends⟩ := earBlocks_ok (tact := tact) (t := { s.tape with lastTact := tact }) hrem
    (hrem ▸ hdata) hinv.playInv
  refine ⟨t, level, (execTapeEar_playing hr hm hc hi ht).trans ?_,
    earBlocks_frame (t := { s.tape with lastTact := tact }) rfl hi hwalk, hends.play, hends.forwards, hends.ends⟩
  rw [hrem, hwalk]

/-- Settles O36: what the walk leaves, with the next state written out. -/
theorem earCompletes : Obligations.EarCompletes := by
  intro s tact hinv hr hm hc hi ht
  obtain ⟨t, level, hexec, hframe, hwalk⟩ := exec_tapeEar_playing hinv hr hm hc hi ht
  rw [hframe] at hexec
  refine ⟨level, t.play, t.blockIndex, t.playerCompleted, hexec, hwalk.forwards, ?_⟩
  obtain ⟨hdone, hindex, hlevel⟩ | ⟨hsame, hindex⟩ := hwalk.ends
  · exact ⟨hindex.le, by simp [hdone, hindex], fun _ => hlevel⟩
  · rw [hc] at hsame
    exact ⟨hindex.le, by simp [hsame, hindex.ne], fun h => by simp [hsame] at h⟩

end Sys2Proof.Machine
end

section
/-! PROOF. The EAR level follows the timeline of the whole tape (42_tape_load R201, R206 to R214).

The idea: what a cursor is for is the level from its tact on. `BlockCursor b S tact p` says that the playback state `p` of
block `b`, started at `S`, is caught up with `tact`; `blockEar_level` that one call answers the level of R201 and leaves
such a cursor again, or completes the block exactly at its end. The walk over the blocks and the polls of the host then
only pass this on. -/

namespace Sys2Proof.Machine

open Sys2Proof Sys2Proof.Spec

/-! ### The bits left (R77, R201) -/

/-- The bits of the data from bit `j` of byte `i` on. -/
def bitsFrom (data : List Byte) (i j : Nat) : List Bool := (dataBits data).drop (8 * i + j)

theorem length_dataBits (data : List Byte) : (dataBits data).length = 8 * data.length := by
  induction data with
  | nil => rfl
  | cons b bs ih =>
    rw [dataBits, List.flatMap_cons, List.length_append, List.length_cons, Nat.mul_succ, ← dataBits, ih]
    exact Nat.add_comm _ _

theorem byteBits_getElem? (b : Byte) : ∀ j < 8, (byteBits b)[j]? = some (b.getLsbD (7 - j)) := by
  intro j hj
  match j, hj with
  | 0, _ | 1, _ | 2, _ | 3, _ | 4, _ | 5, _ | 6, _ | 7, _ => rfl

theorem dataBits_getElem? {data : List Byte} {i j : Nat} {b : Byte} (hb : data[i]? = some b) (hj : j < 8) :
    (dataBits data)[8 * i + j]? = some (b.getLsbD (7 - j)) := by
  induction data generalizing i with
  | nil => cases hb
  | cons a data ih =>
    rw [dataBits, List.flatMap_cons, ← dataBits]
    cases i with
    | zero =>
      obtain rfl : a = b := by simpa using hb
      rw [Nat.mul_zero, Nat.zero_add, List.getElem?_append_left (by simpa [byteBits] using hj)]
      exact byteBits_getElem? a j hj
    | succ i =>
      rw [List.getElem?_append_right (by simp [byteBits]; omega), ← ih hb]
      congr 1
      simp only [byteBits, List.length_cons, List.length_nil]
      omega

/-- The first of the bits left. -/
theorem bitsFrom_cons {data : List Byte} {i j : Nat} {b : Byte} (hb : data[i]? = some b) (hj : j < 8) :
    bitsFrom data i j = b.getLsbD (7 - j) :: bitsFrom data i (j + 1) := by
  obtain ⟨hlt, hget⟩ := List.getElem?_eq_some_iff.mp (dataBits_getElem? hb hj)
  rw [bitsFrom, List.drop_eq_getElem_cons hlt, hget]
  rfl

theorem bitsFrom_nextByte (data : List Byte) (i : Nat) : bitsFrom data i 8 = bitsFrom data (i + 1) 0 := rfl

theorem bitsFrom_end {data : List Byte} {i : Nat} (h : data[i]? = none) : bitsFrom data i 0 = [] := by
  rw [bitsFrom, List.drop_eq_nil_iff, length_dataBits]
  have := List.getElem?_eq_none_iff.mp h
  omega

/-! ### The timeline of one block (R201) -/

/-- The tact at which the data of a block begins, counted from the block's start. -/
def dataStart (b : TapeBlock) : Nat := pilotCount b.data * 2168 + 667 + 735

/-- The tact at which the data ends. -/
def dataEnd (b : TapeBlock) : Nat := dataStart b + bitsTime (dataBits b.data)

theorem blockTime_eq (b : TapeBlock) : blockTime b = dataEnd b + 947 + b.pauseAfterMs.toNat * 3500 := rfl

theorem blockLevel_data {b : TapeBlock} {e : Nat} (h : dataStart b ≤ e) :
    blockLevel b e = bitsLevel (dataBits b.data) (e - dataStart b) := by
  unfold dataStart at *
  simp only [blockLevel]
  rw [if_neg (by omega), if_neg (by omega), if_neg (by omega)]

/-- Past the bits the level is that of the tail. -/
theorem bitsLevel_tail {bits : List Bool} {e : Nat} (h : bitsTime bits ≤ e) :
    bitsLevel bits e = tailLevel (e - bitsTime bits) := by
  induction bits generalizing e with
  | nil => rfl
  | cons b bits ih =>
    rw [bitsTime] at h ⊢
    rw [bitsLevel, if_neg (by omega), if_neg (by omega), ih (by omega), Nat.sub_sub]

theorem blockLevel_tail {b : TapeBlock} {e : Nat} (h : dataEnd b ≤ e) : blockLevel b e = decide (dataEnd b + 947 ≤ e) := by
  unfold dataEnd at *
  rw [blockLevel_data (by omega), bitsLevel_tail (by omega), tailLevel]
  congr 1
  apply propext
  omega

/-! ### Cursors -/

/-- A cursor at bit `j` of byte `i` of the data of a block started at `S`. -/
structure DataCursor (b : TapeBlock) (S i j : Nat) (p : Playback) : Prop where
  phase : p.phase = .data
  byte : ∃ v, b.data[i]? = some v ∧ p.bitPulseLength = halfWidth (v.getLsbD (7 - j))
  bit : j < 8
  byteIndex : p.byteIndex = i
  bitMask : p.bitMask = 0x80#8 >>> j
  /-- The bits left end where the data ends. -/
  ends : p.bitStartTact + bitsTime (bitsFrom b.data i j) = S + dataEnd b
  /-- The bits left give the level from the cursor's bit on. -/
  level : ∀ T, p.bitStartTact ≤ T → blockLevel b (T - S) = bitsLevel (bitsFrom b.data i j) (T - p.bitStartTact)

/-- The playback state of block `b`, started at `S`, caught up with `tact`. -/
inductive BlockCursor (b : TapeBlock) (S tact : Nat) : Playback → Prop where
  | pilot (h : S ≤ tact) : BlockCursor b S tact (started b S)
  | sync (h : S + pilotCount b.data * 2168 ≤ tact) : BlockCursor b S tact { started b S with phase := .sync }
  | data {p : Playback} {i j : Nat} (hp : DataCursor b S i j p) (h : p.bitStartTact ≤ tact) : BlockCursor b S tact p
  | termSync {p : Playback} (hp : p.phase = .termSync) (he : p.termSyncEndTact = S + dataEnd b + 947)
      (h : S + dataEnd b ≤ tact) : BlockCursor b S tact p
  | pause {p : Playback} (hp : p.phase = .pause) (he : p.pauseEndTact = S + blockTime b)
      (h : S + dataEnd b + 947 ≤ tact) : BlockCursor b S tact p

/-- The block is over: it was completed at its end. -/
structure BlockOver (b : TapeBlock) (S tact : Nat) (p : Playback) : Prop where
  phase : p.phase = .completed
  ends : p.pauseEndTact = S + blockTime b
  reached : S + blockTime b ≤ tact

/-- What one call leaves: the level of R201, and a cursor caught up or the block over. -/
def FollowsBlock (b : TapeBlock) (S tact : Nat) (r : Playback × Bool) : Prop :=
  r.2 = blockLevel b (tact - S) ∧
    (tact < S + blockTime b ∧ r.1.phase ≠ .completed ∧ BlockCursor b S tact r.1 ∨ BlockOver b S tact r.1)

section Phases
variable {b : TapeBlock} {S tact : Nat}

theorem pauseEar_level {p : Playback} (hp : p.phase = .pause) (he : p.pauseEndTact = S + blockTime b)
    (h : S + dataEnd b + 947 ≤ tact) : FollowsBlock b S tact (pauseEar tact p) := by
  have hlevel : blockLevel b (tact - S) = true := by
    rw [blockLevel_tail (by omega), decide_eq_true_eq]
    omega
  unfold pauseEar
  split
  case isTrue ht => exact ⟨hlevel.symm, .inl ⟨he ▸ ht, by rw [hp]; decide, .pause hp he h⟩⟩
  case isFalse ht => exact ⟨hlevel.symm, .inr ⟨rfl, he, by omega⟩⟩

theorem termSyncEar_level {p : Playback} (hp : p.phase = .termSync) (he : p.termSyncEndTact = S + dataEnd b + 947)
    (h : S + dataEnd b ≤ tact) : FollowsBlock b S tact (termSyncEar b tact p) := by
  have htime := blockTime_eq b
  unfold termSyncEar
  split
  case isTrue ht =>
    refine ⟨?_, .inl ⟨by omega, by rw [hp]; decide, .termSync hp he h⟩⟩
    rw [blockLevel_tail (by omega), eq_comm, decide_eq_false_iff_not]
    omega
  case isFalse ht =>
    refine pauseEar_level rfl ?_ (by omega)
    show p.termSyncEndTact + b.pauseAfterMs.toNat * 3500 = S + blockTime b
    omega

/-- The position of the bit behind bit `j` of byte `i`. -/
def nextPosition (i j : Nat) : Nat × Nat := if j = 7 then (i + 1, 0) else (i, j + 1)

theorem bitsFrom_nextPosition (data : List Byte) (i j : Nat) :
    bitsFrom data i (j + 1) = bitsFrom data (nextPosition i j).1 (nextPosition i j).2 := by
  unfold nextPosition
  split
  case isTrue hj => rw [hj]; exact bitsFrom_nextByte data i
  case isFalse => rfl

theorem nextPosition_bit_lt {i j : Nat} (hj : j < 8) : (nextPosition i j).2 < 8 := by
  unfold nextPosition
  split <;> dsimp only <;> omega

/-- The mask of bit `j` moved on is 0 exactly behind bit 0 of the byte. -/
theorem mask_shift : ∀ j : Nat, j < 8 →
    0x80#8 >>> j >>> 1 = 0x80#8 >>> (j + 1) ∧ (0x80#8 >>> (j + 1) = (0 : Byte) ↔ j = 7) := by decide

/-- The cursor moved on stands at the next position (R208). -/
theorem DataCursor.nextBit_position {p : Playback} {i j : Nat} (hp : DataCursor b S i j p) :
    p.nextBit.byteIndex = (nextPosition i j).1 ∧ p.nextBit.bitMask = 0x80#8 >>> (nextPosition i j).2 := by
  obtain ⟨hshift, hzero⟩ := mask_shift j hp.bit
  simp only [Playback.nextBit, nextPosition, hp.bitMask, hp.byteIndex, hshift, hzero]
  split
  · exact ⟨rfl, rfl⟩
  · exact ⟨rfl, rfl⟩

theorem DataCursor.bits_eq {p : Playback} {i j : Nat} (hp : DataCursor b S i j p) :
    ∃ bit, p.bitPulseLength = halfWidth bit ∧
      bitsFrom b.data i j = bit :: bitsFrom b.data (nextPosition i j).1 (nextPosition i j).2 := by
  obtain ⟨v, hv, hpulse⟩ := hp.byte
  exact ⟨_, hpulse, by rw [bitsFrom_cons hv hp.bit, bitsFrom_nextPosition]⟩

/-- The bit that is over is taken off the bits left. -/
theorem DataCursor.nextBit_bits {p : Playback} {i j : Nat} (hp : DataCursor b S i j p) :
    p.nextBit.bitStartTact + bitsTime (bitsFrom b.data (nextPosition i j).1 (nextPosition i j).2) = S + dataEnd b ∧
    ∀ T, p.nextBit.bitStartTact ≤ T → blockLevel b (T - S) =
      bitsLevel (bitsFrom b.data (nextPosition i j).1 (nextPosition i j).2) (T - p.nextBit.bitStartTact) := by
  obtain ⟨bit, hpulse, hbits⟩ := hp.bits_eq
  have hstart : p.nextBit.bitStartTact = p.bitStartTact + 2 * halfWidth bit := by rw [← hpulse]; rfl
  have hends := hp.ends
  rw [hbits, bitsTime] at hends
  rw [hstart]
  refine ⟨by omega, fun T hT => ?_⟩
  rw [hp.level T (by omega), hbits, bitsLevel, if_neg (by omega), if_neg (by omega), Nat.sub_sub]

/-- Where a byte is left, the cursor moved on is a cursor. -/
theorem DataCursor.next {p : Playback} {i j : Nat} {byte : Byte} (hp : DataCursor b S i j p)
    (hbyte : b.data[p.nextBit.byteIndex]? = some byte) :
    DataCursor b S (nextPosition i j).1 (nextPosition i j).2
      { p.nextBit with bitPulseLength := pulseLen byte p.nextBit.bitMask } := by
  obtain ⟨hindex, hmask⟩ := hp.nextBit_position
  obtain ⟨hends, hlevel⟩ := hp.nextBit_bits
  have hbit := nextPosition_bit_lt (i := i) hp.bit
  refine ⟨hp.phase, ⟨byte, hindex ▸ hbyte, ?_⟩, hbit, hindex, hmask, hends, hlevel⟩
  show pulseLen byte p.nextBit.bitMask = _
  rw [hmask, pulseLen_eq byte hbit]

/-- Where no byte is left, the data ends with the bit. -/
theorem DataCursor.nextBit_end {p : Playback} {i j : Nat} (hp : DataCursor b S i j p)
    (hbyte : b.data[p.nextBit.byteIndex]? = none) : p.nextBit.bitStartTact = S + dataEnd b := by
  obtain ⟨hindex, -⟩ := hp.nextBit_position
  obtain ⟨hends, -⟩ := hp.nextBit_bits
  obtain ⟨v, hv, -⟩ := hp.byte
  rw [hindex] at hbyte
  have hj : j = 7 := by
    by_contra hj
    simp [nextPosition, hj, hv] at hbyte
  have hnil : bitsFrom b.data (nextPosition i j).1 (nextPosition i j).2 = [] := by
    rw [hj] at hbyte ⊢
    exact bitsFrom_end hbyte
  rwa [hnil] at hends

theorem dataEar_level (n : Nat) : ∀ {p : Playback} {i j : Nat}, DataCursor b S i j p → p.bitStartTact ≤ tact →
    (bitsFrom b.data i j).length ≤ n → FollowsBlock b S tact (dataEar b tact p n) := by
  induction n with
  | zero =>
    intro p i j hp _ hn
    obtain ⟨bit, -, hbits⟩ := hp.bits_eq
    simp [hbits] at hn
  | succ n ih =>
    intro p i j hp hstart hn
    obtain ⟨bit, hpulse, hbits⟩ := hp.bits_eq
    have hends := hp.ends
    have hlevel := hp.level tact hstart
    have htime := blockTime_eq b
    rw [hbits] at hlevel hn hends
    rw [bitsTime] at hends
    rw [bitsLevel] at hlevel
    unfold dataEar
    rw [hpulse]
    split
    case isTrue ht =>
      rw [if_pos (by omega)] at hlevel
      exact ⟨hlevel.symm, .inl ⟨by omega, by rw [hp.phase]; decide, .data hp hstart⟩⟩
    case isFalse hlow =>
      split
      case isTrue ht =>
        rw [if_neg (by omega), if_pos (by omega)] at hlevel
        exact ⟨hlevel.symm, .inl ⟨by omega, by rw [hp.phase]; decide, .data hp hstart⟩⟩
      case isFalse hhigh =>
        have hpast : p.nextBit.bitStartTact ≤ tact := by
          show p.bitStartTact + 2 * p.bitPulseLength ≤ tact
          omega
        split
        case h_1 byte hbyte => exact ih (hp.next hbyte) hpast (Nat.le_of_succ_le_succ hn)
        case h_2 hbyte =>
          have hend := hp.nextBit_end hbyte
          exact termSyncEar_level rfl (congrArg (· + 947) hend) (hend ▸ hpast)

/-- The bound on the passes suffices for all the bits. -/
theorem length_bitsFrom_le (b : TapeBlock) (i j : Nat) : (bitsFrom b.data i j).length ≤ dataPasses b := by
  rw [bitsFrom, List.length_drop, length_dataBits, dataPasses]
  omega

variable (hb : b.data ≠ [])
include hb

/-- The sync pulses and, behind them, the first bit (R208). -/
theorem syncEar_level (h : S + pilotCount b.data * 2168 ≤ tact) :
    ∃ r, syncEar b tact { started b S with phase := .sync } = .ok r ∧ FollowsBlock b S tact r := by
  have htime := blockTime_eq b
  have hdata : dataEnd b = dataStart b + bitsTime (dataBits b.data) := rfl
  have hstart : dataStart b = pilotCount b.data * 2168 + 667 + 735 := rfl
  obtain ⟨v, hv⟩ : ∃ v, b.data[0]? = some v :=
    ⟨b.data.head hb, by rw [List.head_eq_getElem, List.getElem?_eq_getElem]⟩
  have hlevel : blockLevel b (tact - S) = if tact < S + pilotCount b.data * 2168 + 667 then false
      else if tact < S + dataStart b then true else bitsLevel (dataBits b.data) (tact - S - dataStart b) := by
    have hS : S ≤ tact := Nat.le_of_add_right_le h
    simp only [blockLevel]
    rw [if_neg (by omega)]
    refine if_congr ?_ rfl (if_congr ?_ rfl rfl)
    · rw [Nat.sub_lt_iff_lt_add' hS, Nat.add_assoc S]
    · rw [Nat.sub_lt_iff_lt_add' hS, hstart]
  have hcursor : BlockCursor b S tact { started b S with phase := .sync } := .sync h
  generalize hp : ({ started b S with phase := .sync } : Playback) = p at hcursor ⊢
  have hsync : p.phase ≠ .completed := by rw [← hp]; exact PlayPhase.noConfusion
  have hsync1 : p.sync1EndTact = S + pilotCount b.data * 2168 + 667 := by rw [← hp]; rfl
  have hsync2 : p.sync2EndTact = S + dataStart b := by rw [← hp]; simp only [started, hstart]; omega
  unfold syncEar
  rw [hsync1, hsync2]
  split
  case isTrue ht =>
    rw [if_pos ht] at hlevel
    exact ⟨_, rfl, hlevel.symm, .inl ⟨by omega, hsync, hcursor⟩⟩
  case isFalse h1 =>
    rw [if_neg h1] at hlevel
    split
    case isTrue ht =>
      rw [if_pos ht] at hlevel
      exact ⟨_, rfl, hlevel.symm, .inl ⟨by omega, hsync, hcursor⟩⟩
    case isFalse h2 =>
      have hindex : p.byteIndex = 0 := by rw [← hp]; rfl
      have hmask : p.bitMask = 0x80#8 >>> 0 := by rw [← hp]; rfl
      have hv' : b.data[p.byteIndex]? = some v := by rw [hindex, hv]
      rw [hv']
      refine ⟨_, rfl, dataEar_level _ (i := 0) (j := 0)
        ⟨rfl, ⟨v, hv, hmask ▸ pulseLen_eq v (k := 0) (by decide)⟩, by decide, hindex, hmask, ?_, fun T hT => ?_⟩
        (Nat.not_lt.mp h2) (length_bitsFrom_le b 0 0)⟩
      · show S + dataStart b + bitsTime (dataBits b.data) = S + dataEnd b
        omega
      · have hT : S + dataStart b ≤ T := hT
        show blockLevel b (T - S) = bitsLevel (dataBits b.data) (T - (S + dataStart b))
        rw [blockLevel_data (by omega), Nat.sub_sub]

theorem pilotEar_level (h : S ≤ tact) :
    ∃ r, pilotEar b tact (started b S) = .ok r ∧ FollowsBlock b S tact r := by
  have htime := blockTime_eq b
  have hdata : dataEnd b = dataStart b + bitsTime (dataBits b.data) := rfl
  have hstart : dataStart b = pilotCount b.data * 2168 + 667 + 735 := rfl
  have hpilot : (started b S).pilotEndTact = S + pilotCount b.data * 2168 := rfl
  unfold pilotEar
  rw [hpilot]
  split
  case isTrue ht =>
    refine ⟨_, rfl, ?_, .inl ⟨by omega, show PlayPhase.pilot ≠ .completed by decide, .pilot h⟩⟩
    simp only [blockLevel]
    rw [if_pos (by omega)]
    rfl
  case isFalse ht => exact syncEar_level hb (Nat.not_lt.mp ht)

end Phases

/-- One call in a block: the level of R201, whatever phase the cursor was left in (R208). -/
theorem blockEar_level {b : TapeBlock} {S last tact : Nat} {p : Playback} (hb : b.data ≠ [])
    (hp : BlockCursor b S last p) (ht : last ≤ tact) :
    ∃ p' level, blockEar b tact p = .ok (p', level) ∧ FollowsBlock b S tact (p', level) := by
  have hgoal {e : Except Fault (Playback × Bool)} (h : ∃ r, e = .ok r ∧ FollowsBlock b S tact r) :
      ∃ p' level, e = .ok (p', level) ∧ FollowsBlock b S tact (p', level) := by
    obtain ⟨⟨p', level⟩, he, hf⟩ := h
    exact ⟨p', level, he, hf⟩
  cases hp with
  | pilot h => exact hgoal (pilotEar_level hb (h.trans ht))
  | sync h => exact hgoal (syncEar_level hb (h.trans ht))
  | data hp h =>
    have hear : blockEar b tact p = .ok (dataEar b tact p (dataPasses b)) := by rw [blockEar, hp.phase]
    exact hgoal ⟨_, hear, dataEar_level _ hp (h.trans ht) (length_bitsFrom_le b _ _)⟩
  | termSync hp he h =>
    have hear : blockEar b tact p = .ok (termSyncEar b tact p) := by rw [blockEar, hp]
    exact hgoal ⟨_, hear, termSyncEar_level hp he (h.trans ht)⟩
  | pause hp he h =>
    have hear : blockEar b tact p = .ok (pauseEar tact p) := by rw [blockEar, hp]
    exact hgoal ⟨_, hear, pauseEar_level hp he (h.trans ht)⟩

/-! ### The whole tape (R206, R214) -/

/-- From `tact` on the tape unit, standing in a block of the tape, gives the levels `f`. -/
def FollowsTape (f : Nat → Bool) (tact : Nat) (t : TapeUnit) : Prop :=
  ∃ b bs S, t.remaining = b :: bs ∧ BlockCursor b S tact t.play ∧ ∀ T, tact ≤ T → f T = tapeLevel (b :: bs) (T - S)

/-- What a call leaves: the tape over, at level 1 from then on, or followed further. -/
def TapeOutcome (f : Nat → Bool) (tact : Nat) (t t' : TapeUnit) : Prop :=
  (t'.playerCompleted = true ∧ ∀ T, tact ≤ T → f T = true) ∨
    (t'.playerCompleted = t.playerCompleted ∧ FollowsTape f tact t')

theorem earBlocks_level {f : Nat → Bool} {tact : Nat} {bs : List TapeBlock} :
    ∀ {b : TapeBlock} {t : TapeUnit} {S last : Nat}, t.remaining = b :: bs → (∀ b' ∈ b :: bs, b'.data ≠ []) →
      BlockCursor b S last t.play → last ≤ tact → (∀ T, tact ≤ T → f T = tapeLevel (b :: bs) (T - S)) →
      ∃ t', earBlocks tact (b :: bs) t = .ok (t', f tact) ∧ TapeOutcome f tact t t' := by
  induction bs with
  | nil =>
    intro b t S last hrem hdata hcursor ht hf
    have htime := blockTime_eq b
    obtain ⟨p, level, hear, hlevel, ⟨hin, hp, hnext⟩ | ⟨hp, -, hover⟩⟩ := blockEar_level (hdata b (by simp)) hcursor ht
    · rw [hf tact le_rfl, tapeLevel, if_pos (by omega), ← hlevel]
      exact ⟨_, earBlocks_within hear hp, .inr ⟨rfl, b, [], S, hrem, hnext, hf⟩⟩
    · have hend : ∀ T, tact ≤ T → f T = true := fun T hT => by rw [hf T hT, tapeLevel, if_neg (by omega), tapeLevel]
      rw [hend tact le_rfl]
      exact ⟨_, earBlocks_last hear hp, .inl ⟨rfl, hend⟩⟩
  | cons c bs ih =>
    intro b t S last hrem hdata hcursor ht hf
    have htime := blockTime_eq b
    have hnextRem := remaining_next hrem
    obtain ⟨p, level, hear, hlevel, ⟨hin, hp, hnext⟩ | ⟨hp, hend, hover⟩⟩ :=
      blockEar_level (hdata b (by simp)) hcursor ht
    · rw [hf tact le_rfl, tapeLevel, if_pos (by omega), ← hlevel]
      exact ⟨_, earBlocks_within hear hp, .inr ⟨rfl, b, c :: bs, S, hrem, hnext, hf⟩⟩
    · rw [earBlocks_next hear hp (getElem?_of_remaining hnextRem) (hdata c (by simp)), hend]
      refine ih (t := t.movedOn c (S + blockTime b) tact) (S := S + blockTime b) hnextRem
        (fun b' hb' => hdata b' (List.mem_cons_of_mem _ hb')) (.pilot hover) le_rfl fun T hT => ?_
      rw [hf T hT, tapeLevel, if_neg (by omega), Nat.sub_sub]

/-! ### Polls -/

/-- After a call at `tact` the machine plays and gives the levels `f`. -/
structure Plays (f : Nat → Bool) (tact : Nat) (s : State) : Prop where
  ready : TapeReady s
  mode : s.tape.mode = .load
  data : ¬ HasEmptyBlock s.tape.image
  tape : (s.tape.playerCompleted = true ∧ ∀ T, tact ≤ T → f T = true) ∨
    (s.tape.playerCompleted = false ∧ s.tape.initialised = true ∧ s.tape.lastTact ≤ tact ∧ FollowsTape f tact s.tape)

/-- One poll: the level of the timeline, and the machine plays on. -/
theorem Plays.poll {f : Nat → Bool} {last tact : Nat} {s : State} (h : Plays f last s) (ht : last ≤ tact) :
    ∃ t, exec (.tapeEar tact) s = .next t ∧ t.result = .bit (f tact) ∧ Plays f tact t := by
  obtain ⟨hr, hm, hd, ⟨hc, hf⟩ | ⟨hc, hi, hl, b, bs, S, hrem, hcursor, hf⟩⟩ := h
  · rw [hf tact ht]
    exact ⟨_, exec_tapeEar_idle hr (.inr hc), rfl, hr, hm, hd, .inl ⟨hc, fun T hT => hf T (ht.trans hT)⟩⟩
  · have hdata : ∀ b' ∈ b :: bs, b'.data ≠ [] := fun b' hb' hnil =>
      hd ⟨b', List.mem_of_mem_drop (hrem ▸ hb' : b' ∈ s.tape.remaining), hnil⟩
    obtain ⟨t', hwalk, hout⟩ := earBlocks_level (t := { s.tape with lastTact := tact }) hrem hdata hcursor ht
      fun T hT => hf T (ht.trans hT)
    have hframe := earBlocks_frame (t := { s.tape with lastTact := tact }) rfl hi hwalk
    have hexec : exec (.tapeEar tact) s = complete (.bit (f tact)) (s.setTape t') :=
      (execTapeEar_playing hr hm hc hi (hl.trans ht)).trans (by rw [hrem, hwalk])
    refine ⟨_, hexec, rfl, ?_, ?_, ?_, ?_⟩
    · show t'.imageStale = false
      rw [hframe]; exact hr
    · show t'.mode = .load
      rw [hframe]; exact hm
    · show ¬ HasEmptyBlock t'.image
      rw [hframe]; exact hd
    · obtain hdone | ⟨hsame, hfollows⟩ := hout
      · exact .inl hdone
      · refine .inr ⟨hsame.trans hc, ?_, ?_, hfollows⟩
        · show t'.initialised = true
          rw [hframe]; exact hi
        · show t'.lastTact ≤ tact
          rw [hframe]

/-- However often it is polled, the last poll gives the level at its tact. -/
theorem Plays.polls {f : Nat → Bool} {tact : Nat} (polls : List Nat) : ∀ {last : Nat} {s : State}, Plays f last s →
    List.Pairwise (· ≤ ·) (last :: (polls ++ [tact])) →
    ∃ t, runAll ((polls ++ [tact]).map .tapeEar) s = some t ∧ t.result = .bit (f tact) := by
  induction polls with
  | nil =>
    intro last s h horder
    obtain ⟨t, hexec, hresult, -⟩ := h.poll (tact := tact) (List.rel_of_pairwise_cons horder (by simp))
    exact ⟨t, runAll_cons hexec, hresult⟩
  | cons p polls ih =>
    intro last s h horder
    obtain ⟨t, hexec, -, hplays⟩ := h.poll (tact := p) (List.rel_of_pairwise_cons horder (by simp))
    obtain ⟨u, hrun, hresult⟩ := ih hplays (List.pairwise_cons.mp horder).2
    exact ⟨u, (runAll_cons hexec).trans hrun, hresult⟩

/-- Settles O37: TAPE.INITPLAY starts the block with a cursor at its pilot, and every poll follows the timeline. -/
theorem earFollowsTimeline : Obligations.EarFollowsTimeline := by
  intro s start tact polls hr hm hk he horder
  have hb : s.tape.image[s.tape.blockIndex]? = some s.tape.image[s.tape.blockIndex] := List.getElem?_eq_getElem hk
  have hinit := exec_tapeInitplay_playing start hr hb he
  have hplays : Plays (fun T => tapeLevel (s.tape.image.drop s.tape.blockIndex) (T - start)) start
      ((s.setTape (s.tape.playing s.tape.image[s.tape.blockIndex] start)).answer .done []) :=
    ⟨hr, hm, he, .inr ⟨rfl, rfl, le_rfl, _, _, start, List.drop_eq_getElem_cons hk, .pilot le_rfl,
      fun T _ => by rw [List.drop_eq_getElem_cons hk]⟩⟩
  obtain ⟨t, hrun, hresult⟩ := hplays.polls polls horder
  exact ⟨t, (runAll_cons hinit).trans hrun, hresult⟩

end Sys2Proof.Machine
end

section
/-! PROOF. A byte sequence saved with nominal pulses comes out as its block (43_tape_save R240 to R254).

A transition stamps the save state with its tact and its level, and the pulse's class decides the rest. So the pulses are
fed to the block assembler alone (`SaveState.feed`), and the machine adds the stamps (`runPulses_feed`). -/

namespace Sys2Proof.Machine

open Sys2Proof Sys2Proof.Spec

/-! ### The assembler alone -/

/-- The save state with another last transition. -/
def SaveState.stamped (v : SaveState) (tact : Nat) (value : Bool) : SaveState :=
  { v with micBitState := value, lastActivityTact := tact }

@[simp] theorem stamped_phase (v : SaveState) (tact : Nat) (value : Bool) :
    (v.stamped tact value).phase = v.phase := rfl

theorem dataHalf_stamped (capacity : Nat) (bit : Bool) (v : SaveState) (tact : Nat) (value : Bool) :
    dataHalf capacity bit (v.stamped tact value) = (dataHalf capacity bit v).stamped tact value := by
  simp only [dataHalf, apply_ite (SaveState.stamped · tact value)]
  rfl

/-- The step looks at neither the level nor the tact of the last transition. -/
theorem step_stamped (p : Params) (c : PulseClass) (v : SaveState) (tact : Nat) (value : Bool) :
    SaveState.step p c (v.stamped tact value) =
      ((SaveState.step p c v).1.stamped tact value, (SaveState.step p c v).2) := by
  cases hp : v.phase with
  | none => simp only [SaveState.step, stamped_phase, hp, SaveState.stepNone]; split <;> rfl
  | pilot =>
    simp only [SaveState.step, stamped_phase, hp, stepPilot_eq, apply_ite (SaveState.stamped · tact value)]
    rfl
  | sync1 => simp only [SaveState.step, stamped_phase, hp, SaveState.stepSync1]; split <;> rfl
  | sync2 => simp only [SaveState.step, stamped_phase, hp, stepSync2_eq]; split <;> rfl
  | data =>
    simp only [SaveState.step, stamped_phase, hp, stepData_eq, dataHalf_stamped, apply_ite (SaveState.stamped · tact value)]
    rfl
  | error => simp only [SaveState.step, stamped_phase, hp]

/-- Pulses of the given widths, one after another: the assembler's state and the events. -/
def SaveState.feed (p : Params) : List Nat → SaveState → SaveState × List Event
  | [], v => (v, [])
  | w :: ws, v =>
    let r := SaveState.step p (classify w) v
    ((SaveState.feed p ws r.1).1, r.2 ++ (SaveState.feed p ws r.1).2)

theorem feed_append {p : Params} {xs ys : List Nat} {v v1 v2 : SaveState} {es1 es2 : List Event}
    (h1 : SaveState.feed p xs v = (v1, es1)) (h2 : SaveState.feed p ys v1 = (v2, es2)) :
    SaveState.feed p (xs ++ ys) v = (v2, es1 ++ es2) := by
  induction xs generalizing v es1 with
  | nil => cases h1; exact h2
  | cons x xs ih =>
    simp only [SaveState.feed, Prod.mk.injEq] at h1
    obtain ⟨hv, rfl⟩ := h1
    have h := ih (v := (SaveState.step p (classify x) v).1) (Prod.ext hv rfl)
    simp only [List.cons_append, SaveState.feed, h, List.append_assoc]

/-- A single pulse. -/
theorem feed_single (p : Params) (w : Nat) (v : SaveState) :
    SaveState.feed p [w] v = SaveState.step p (classify w) v := by
  simp only [SaveState.feed, List.append_nil]

theorem feed_stamped (p : Params) (ws : List Nat) (v : SaveState) (tact : Nat) (value : Bool) :
    SaveState.feed p ws (v.stamped tact value) =
      ((SaveState.feed p ws v).1.stamped tact value, (SaveState.feed p ws v).2) := by
  induction ws generalizing v with
  | nil => rfl
  | cons w ws ih => simp only [SaveState.feed, step_stamped, ih]

/-- In SAVE mode the machine runs the assembler on the pulses. -/
theorem runPulses_feed (ws : List Nat) : ∀ {s : State}, TapeReady s → s.tape.mode = .save →
    ∃ u tact value, runPulses ws s = some u ∧ u.tape.mode = .save ∧
      u.tape.save = (SaveState.feed s.params ws s.tape.save).1.stamped tact value ∧
      u.events = s.events ++ (SaveState.feed s.params ws s.tape.save).2 := by
  induction ws with
  | nil => exact fun {s} _ hm => ⟨s, _, _, rfl, hm, rfl, (List.append_nil _).symm⟩
  | cons w ws ih =>
    intro s hr hm
    let tact := s.tape.save.lastActivityTact + w
    let value := !s.tape.save.micBitState
    let r := SaveState.step s.params (classify w) s.tape.save
    have hstep : SaveState.step s.params (pulseClassOf (tact - s.tape.save.lastActivityTact)) (transitioned s tact value) =
        (r.1.stamped tact value, r.2) := by
      rw [Nat.add_sub_cancel_left, ← classify_eq_pulseClassOf]
      exact step_stamped s.params (classify w) s.tape.save tact value
    have hexec : exec (.tapeMic tact value) s = .next _ :=
      micGives_of_step ⟨hr, hm, by simp [value], Nat.le_add_right _ _⟩ hstep
    obtain ⟨u, tact', value', hrun, hmode, hsave, hevents⟩ := ih (s := { s with
      tape := { s.tape with save := r.1.stamped tact value }, events := s.events ++ r.2, result := .done, calls := [] })
      hr hm
    refine ⟨u, tact', value', ?_, hmode, ?_, ?_⟩
    · rw [runPulses, hexec]
      exact hrun
    · rw [hsave]
      simp only [feed_stamped]
      rfl
    · rw [hevents]
      simp only [feed_stamped, List.append_assoc]
      rfl

/-! ### The parts of a block's pulse train (R254) -/

theorem classify_pilot : classify 2168 = .pilot := by decide
theorem classify_sync1 : classify 667 = .sync1 := by decide
theorem classify_sync2 : classify 735 = .sync2 := by decide
theorem classify_termSync : classify 947 = .termSync := by decide

/-- A bit's half-pulse is of its class (R232). -/
theorem classify_halfWidth (bit : Bool) : classify (halfWidth bit) = if bit then .bit1 else .bit0 := by
  cases bit <;> decide

theorem step_data_half {p : Params} {v : SaveState} (hv : v.phase = .data) (bit : Bool) :
    SaveState.step p (classify (halfWidth bit)) v = (v.dataPulse p.saveBufferCapacity bit, []) := by
  rw [classify_halfWidth, SaveState.step, hv]
  cases bit <;> rfl

/-- Pilot pulses are counted. -/
theorem feed_pilot {p : Params} (n : Nat) : ∀ {v : SaveState}, v.phase = .pilot →
    SaveState.feed p (List.replicate n 2168) v = ({ v with pilotPulseCount := v.pilotPulseCount + n }, []) := by
  induction n with
  | zero => exact fun _ => rfl
  | succ n ih =>
    intro v hv
    have hstep : SaveState.step p (classify 2168) v = ({ v with pilotPulseCount := v.pilotPulseCount + 1 }, []) := by
      simp only [classify_pilot, SaveState.step, hv, SaveState.stepPilot, if_true]
    rw [List.replicate_succ, SaveState.feed, hstep]
    dsimp only
    rw [ih (v := { v with pilotPulseCount := v.pilotPulseCount + 1 }) hv]
    simp only [Nat.add_assoc, Nat.add_comm 1 n]
    rfl

/-- The pilot from the beginning, and the two sync pulses. -/
theorem feed_lead {p : Params} {n : Nat} (hn : 3000 ≤ n) {v : SaveState} (hv : v.phase = .none) :
    SaveState.feed p (List.replicate n 2168 ++ [667, 735]) v = ({ v with phase := .sync2, pilotPulseCount := n }, []) := by
  obtain ⟨m, rfl⟩ : ∃ m, n = m + 1 := ⟨n - 1, by omega⟩
  have hfirst : SaveState.feed p [2168] v = ({ v with phase := .pilot, pilotPulseCount := 1 }, []) := by
    rw [feed_single, classify_pilot, SaveState.step, hv]
    rfl
  have hrest := feed_pilot (p := p) m (v := { v with phase := .pilot, pilotPulseCount := 1 }) rfl
  have hsync : SaveState.feed p [667, 735] { v with phase := .pilot, pilotPulseCount := 1 + m } =
      ({ v with phase := .sync2, pilotPulseCount := 1 + m }, []) := by
    have h3000 : minPilotPulseCount ≤ 1 + m := by rw [minPilotPulseCount]; omega
    simp [SaveState.feed, classify_sync1, classify_sync2, SaveState.step, SaveState.stepPilot, SaveState.stepSync1, h3000]
  rw [List.replicate_succ, Nat.add_comm m 1]
  exact feed_append (xs := 2168 :: List.replicate m 2168) (feed_append (xs := [2168]) hfirst hrest) hsync

/-- The save state in the middle of the data: the bytes of `buffer` are complete, and of the next one `offset` bits. -/
def SaveState.inData (v : SaveState) (buffer : List Byte) (offset : BitVec 3) (byte : Byte) : SaveState :=
  { v with phase := .data, dataBuffer := buffer, bitOffset := offset, currentByte := byte, prevPulse := .noPulse }

/-- A byte with one more bit shifted in at the bottom. -/
def shiftedIn (byte : Byte) (bit : Bool) : Byte := (byte <<< 1) ||| BitVec.setWidth 8 (BitVec.ofBool bit)

/-- The two half-pulses of every bit. -/
def bitPulses (bits : List Bool) : List Nat := bits.flatMap (fun b => [halfWidth b, halfWidth b])

section Data
variable {p : Params} {v : SaveState} {buffer : List Byte} {offset : BitVec 3} {byte : Byte} {bit : Bool}

/-- The two half-pulses of a bit shift it in. -/
theorem feed_bit : SaveState.feed p (bitPulses [bit]) (v.inData buffer offset byte) =
    ((v.inData buffer offset byte).shiftBit p.saveBufferCapacity bit, []) := by
  let half := { v.inData buffer offset byte with prevPulse := halfOf bit }
  have hfirst : (v.inData buffer offset byte).dataPulse p.saveBufferCapacity bit = half := by cases bit <;> rfl
  have hsecond : half.dataPulse p.saveBufferCapacity bit =
      (v.inData buffer offset byte).shiftBit p.saveBufferCapacity bit := by cases bit <;> rfl
  have hstep : SaveState.step p (classify (halfWidth bit)) half = _ := step_data_half rfl bit
  change SaveState.feed p [halfWidth bit, halfWidth bit] _ = _
  simp only [SaveState.feed, step_data_half (v := v.inData buffer offset byte) rfl bit, hfirst, hstep, hsecond,
    List.append_nil]

/-- A bit that does not complete its byte. -/
theorem feed_bit_inner (ho : offset ≠ 7) : SaveState.feed p (bitPulses [bit]) (v.inData buffer offset byte) =
    (v.inData buffer (offset + 1) (shiftedIn byte bit), []) :=
  feed_bit.trans (congrArg (·, []) (if_neg ho))

/-- The eighth bit completes the byte. -/
theorem feed_bit_last (hb : buffer.length < p.saveBufferCapacity) :
    SaveState.feed p (bitPulses [bit]) (v.inData buffer 7 byte) =
      (v.inData (buffer ++ [shiftedIn byte bit]) 0 0, []) := by
  have hshift : (v.inData buffer 7 byte).shiftBit p.saveBufferCapacity bit =
      v.inData (buffer ++ [shiftedIn byte bit]) 0 0 := by
    rw [SaveState.shiftBit, if_pos (by rfl), if_neg (by exact hb.ne)]
    rfl
  rw [feed_bit, hshift]

/-- A byte is what its bits give, shifted in from the most significant one. -/
theorem foldl_shiftedIn_byteBits : ∀ b : Byte, (byteBits b).foldl shiftedIn 0 = b := by decide +kernel

/-- The pulses of a byte append it to the buffer. -/
theorem feed_byte (hb : buffer.length < p.saveBufferCapacity) (b : Byte) :
    SaveState.feed p (bitPulses (byteBits b)) (v.inData buffer 0 0) = (v.inData (buffer ++ [b]) 0 0, []) := by
  have hbits : SaveState.feed p (bitPulses (byteBits b)) (v.inData buffer 0 0) =
      (v.inData (buffer ++ [(byteBits b).foldl shiftedIn 0]) 0 0, []) := by
    refine feed_append (xs := bitPulses [_]) (feed_bit_inner (by decide)) ?_
    refine feed_append (xs := bitPulses [_]) (es2 := []) (feed_bit_inner (by decide)) ?_
    refine feed_append (xs := bitPulses [_]) (es2 := []) (feed_bit_inner (by decide)) ?_
    refine feed_append (xs := bitPulses [_]) (es2 := []) (feed_bit_inner (by decide)) ?_
    refine feed_append (xs := bitPulses [_]) (es2 := []) (feed_bit_inner (by decide)) ?_
    refine feed_append (xs := bitPulses [_]) (es2 := []) (feed_bit_inner (by decide)) ?_
    refine feed_append (xs := bitPulses [_]) (es2 := []) (feed_bit_inner (by decide)) ?_
    exact feed_bit_last hb
  rw [hbits, foldl_shiftedIn_byteBits]

end Data

/-- The pulses of a byte sequence append it to the buffer, while it has room. -/
theorem feed_bytes {p : Params} {v : SaveState} (bs : List Byte) : ∀ {buffer : List Byte},
    buffer.length + bs.length ≤ p.saveBufferCapacity →
    SaveState.feed p (bitPulses (dataBits bs)) (v.inData buffer 0 0) = (v.inData (buffer ++ bs) 0 0, []) := by
  induction bs with
  | nil => intro buffer _; rw [List.append_nil]; rfl
  | cons b bs ih =>
    intro buffer hroom
    rw [List.length_cons] at hroom
    have hrest := ih (buffer := buffer ++ [b]) (by simp only [List.length_append, List.length_singleton]; omega)
    rw [List.append_assoc] at hrest
    have hsplit : bitPulses (dataBits (b :: bs)) = bitPulses (byteBits b) ++ bitPulses (dataBits bs) := by
      simp only [bitPulses, dataBits, List.flatMap_cons, List.flatMap_append]
    rw [hsplit]
    exact feed_append (feed_byte (by omega) b) hrest

/-- The first half-pulse of the data finds an empty buffer. -/
theorem feed_begin {p : Params} {v : SaveState} (hv : v.phase = .sync2) {bs : List Byte} (hbs : bs ≠ []) :
    SaveState.feed p (bitPulses (dataBits bs)) v = SaveState.feed p (bitPulses (dataBits bs)) (v.inData [] 0 0) := by
  obtain ⟨b, bs, rfl⟩ := List.exists_cons_of_ne_nil hbs
  have hfirst (bit : Bool) : SaveState.step p (classify (halfWidth bit)) v =
      SaveState.step p (classify (halfWidth bit)) (v.inData [] 0 0) := by
    rw [step_data_half (v := v.inData [] 0 0) rfl, classify_halfWidth, SaveState.step, hv]
    cases bit <;> rfl
  change SaveState.feed p (halfWidth (b.getLsbD 7) :: _) v = SaveState.feed p (halfWidth (b.getLsbD 7) :: _) _
  simp only [SaveState.feed, hfirst]

/-- The terminating pulse closes the block. -/
theorem feed_close (p : Params) (v : SaveState) {bs : List Byte} (hbs : bs ≠ []) :
    SaveState.feed p [947] (v.inData bs 0 0) =
      ({ abandoned (v.inData bs 0 0) with dataBlockCount := v.dataBlockCount + 1 },
        .blockSaved ⟨bs, p.savePauseMs⟩ ::
          (if v.dataBlockCount = 0 ∧ bs.length = 19 then [.nameSaved ((bs.drop 2).take 10)] else [])) := by
  have hstep : SaveState.step p .termSync (v.inData bs 0 0) = ((v.inData bs 0 0).stepData p.saveBufferCapacity .termSync,
      if PulseClass.termSync = .termSync then (v.inData bs 0 0).closeEvents p.savePauseMs else []) := rfl
  have hclose : PulseClass.termSync = .termSync ∧ (v.inData bs 0 0).dataBuffer ≠ [] := ⟨rfl, hbs⟩
  rw [feed_single, classify_termSync, hstep, stepData_eq, closeEvents_eq, if_neg (by decide), if_pos hclose, if_pos hclose]
  rfl

/-- The whole train, from the beginning of a session. -/
theorem feed_savePulses {p : Params} {n : Nat} (hn : 3000 ≤ n) {bs : List Byte} (hbs : bs ≠ [])
    (hroom : bs.length ≤ p.saveBufferCapacity) {v : SaveState} (hv : v.phase = .none) :
    SaveState.feed p (savePulses n bs) v =
      ({ abandoned (({ v with phase := .sync2, pilotPulseCount := n } : SaveState).inData bs 0 0) with
          dataBlockCount := v.dataBlockCount + 1 },
        .blockSaved ⟨bs, p.savePauseMs⟩ ::
          (if v.dataBlockCount = 0 ∧ bs.length = 19 then [.nameSaved ((bs.drop 2).take 10)] else [])) := by
  have hdata := (feed_begin (p := p) (v := { v with phase := .sync2, pilotPulseCount := n }) rfl hbs).trans
    (feed_bytes bs (buffer := []) (by rwa [List.length_nil, Nat.zero_add]))
  exact feed_append (feed_append (feed_lead hn hv) hdata) (feed_close p _ hbs)

/-- Settles O41: TAPE.ENTERSAVE leaves the assembler at its beginning, and the train is its pilot, its syncs, the bits of
its bytes and the pulse that closes the block. -/
theorem saveRoundTrip : Obligations.SaveRoundTrip := by
  intro s tact n bs hr hm hn hbs hroom
  have henter : exec (.tapeEntersave tact) s = .next { s with
      tape := { s.tape with mode := .save, save := { SaveState.reset with lastActivityTact := tact } }
      events := s.events ++ [.enteredSave], result := .done, calls := [] } :=
    (exec_tapeEntersave hr).trans (enterSave_passive hm)
  obtain ⟨u, tact', value', hrun, hmode, hsave, hevents⟩ := runPulses_feed (savePulses n bs) (s := { s with
    tape := { s.tape with mode := .save, save := { SaveState.reset with lastActivityTact := tact } }
    events := s.events ++ [.enteredSave], result := .done, calls := [] }) hr rfl
  refine ⟨_, u, henter, hrun, hmode, ?_, ?_, ?_⟩
  · rw [hsave, feed_savePulses hn hbs hroom rfl]; rfl
  · rw [hsave, feed_savePulses hn hbs hroom rfl]; rfl
  · rw [hevents, feed_savePulses hn hbs hroom rfl]
    simp [SaveState.reset]

end Sys2Proof.Machine
end

section
/-! PROOF. The statements about whole exchanges with the floppy controller (45_fdc_protocol, 46_fdc_commands): a command is
its bytes, what a command left is drained byte by byte, and a sector written is read back. -/

namespace Sys2Proof.Machine

open Sys2Proof Sys2Proof.Spec

theorem runAll_append (is js : List Instr) : ∀ s : State, runAll (is ++ js) s = (runAll is s).bind (runAll js) := by
  induction is with
  | nil => exact fun _ => rfl
  | cons i is ih =>
    intro s
    rw [List.cons_append, runAll, runAll]
    cases exec i s with
    | next t => exact ih t
    | _ => rfl

/-! ### A command is its bytes (R130, R132) -/

/-- Bytes written one after another are one run of the unit (R304). -/
theorem runAll_fdcWrite {bs : List Byte} (hbs : bs ≠ []) : ∀ s : State, runAll (bs.map .fdcWrite) s =
    some ((s.setFloppy (writeAll s.params bs (s.fdc, s.disk))).answer .done []) := by
  induction bs with
  | nil => exact absurd rfl hbs
  | cons b bs ih =>
    intro s
    have hexec : exec (.fdcWrite b) s = .next _ := exec_fdcWrite_of_writeByte rfl
    rw [List.map_cons, runAll_cons hexec]
    cases bs with
    | nil => rfl
    | cons c cs => rw [ih (List.cons_ne_nil c cs)]; rfl

/-- Every FDC instruction writes its words. -/
theorem exec_fdc {i : Instr} (hi : i.format = .fdc) (s : State) : exec i s = commandBytes (encode i) s := by
  cases i with
  | fdcSpecify | fdcSenseDriveStatus | fdcRecalibrate | fdcSenseInterruptStatus | fdcSeek | fdcReadId | fdcReadData
  | fdcFormatTrack | fdcWriteData | fdcNone => rfl
  | _ => cases hi

theorem encode_ne_nil_of_fdc {i : Instr} (hi : i.format = .fdc) : encode i ≠ [] := by
  cases i with
  | fdcSpecify | fdcSenseDriveStatus | fdcRecalibrate | fdcSenseInterruptStatus | fdcSeek | fdcReadId | fdcReadData
  | fdcFormatTrack | fdcWriteData | fdcNone => exact List.cons_ne_nil _ _
  | _ => cases hi

/-- Settles O49: the instruction and the writes are the same run of the unit over the same bytes. -/
theorem fdcCommandsAreWrittenBytes : Obligations.FdcCommandsAreWrittenBytes := fun _ s hi =>
  ⟨_, exec_fdc hi s, runAll_fdcWrite (encode_ne_nil_of_fdc hi) s⟩

/-! ### What a command left is drained (R314) -/

/-- The phase that a main status register shows (R320). -/
def phaseOfStatus (msr : Byte) : FdcPhase :=
  if msr = 0x80 then .acceptingCommand
  else if msr = 0x90 then .receivingParameters
  else if msr = 0xB0 then .receivingData
  else if msr = 0xF0 then .sendingData
  else .sendingResult

theorem phaseOfStatus_eq {f : FdcState} {ph : FdcPhase} (h : f.inPhase ph) :
    phaseOfStatus f.mainStatusRegister = ph := by
  obtain ⟨-, -, hmsr⟩ := (inPhase_iff f ph).1 h
  rw [hmsr]
  cases ph <;> decide

/-- A unit is in one phase only (R300). -/
theorem inPhase_unique {f : FdcState} {ph q : FdcPhase} (hph : f.inPhase ph) (hq : f.inPhase q) : q = ph :=
  (phaseOfStatus_eq hq).symm.trans (phaseOfStatus_eq hph)

theorem idle_finished (f : FdcState) : Idle (finished f) := (inPhase_iff ..).2 ⟨rfl, rfl, rfl⟩

theorem inPhase_sending_nil (f : FdcState) (result : List Byte) : (sending f [] result).inPhase .sendingResult :=
  (inPhase_iff ..).2 ⟨rfl, rfl, rfl⟩

theorem inPhase_sending {f : FdcState} {data : List Byte} (hd : data ≠ []) (result : List Byte) :
    (sending f data result).inPhase .sendingData :=
  (inPhase_iff ..).2 ⟨rfl, decide_eq_true hd, if_neg hd⟩

/-- The bytes that the unit still has to be read: data, then result; none where it is idle. -/
inductive Unread (f : FdcState) : List Byte → List Byte → Prop
  | idle : Idle f → Unread f [] []
  | result {result : List Byte} : f.inPhase .sendingResult → f.pendingResultBytes.drop f.resultCursor = result →
      result ≠ [] → Unread f [] result
  | data {data result : List Byte} : f.inPhase .sendingData → f.pendingDataBytes.drop f.dataCursor = data → data ≠ [] →
      f.pendingResultBytes.drop f.resultCursor = result → result ≠ [] → Unread f data result

theorem Unread.of_sending {f : FdcState} {data result : List Byte} (hr : result ≠ []) :
    Unread (sending f data result) data result := by
  cases data with
  | nil => exact .result (inPhase_sending_nil f result) rfl hr
  | cons v data => exact .data (inPhase_sending (List.cons_ne_nil v data) result) rfl (List.cons_ne_nil v data) rfl hr

theorem Unread.idle_iff {f : FdcState} {data result : List Byte} (h : Unread f data result) :
    Idle f ↔ data ++ result = [] := by
  cases h with
  | idle hidle => exact ⟨fun _ => rfl, fun _ => hidle⟩
  | result hph _ hne =>
    exact ⟨fun hidle => absurd (inPhase_unique hph hidle) (by decide), fun h => absurd h hne⟩
  | data hph _ hne _ _ =>
    exact ⟨fun hidle => absurd (inPhase_unique hph hidle) (by decide), fun h => absurd (List.append_eq_nil_iff.1 h).1 hne⟩

/-- The head of a list's rest is the element at the cursor, and the next rest its tail. -/
theorem drop_eq_cons {l rest : List Byte} {n : Nat} {v : Byte} (h : l.drop n = v :: rest) :
    l[n]? = some v ∧ l.drop (n + 1) = rest ∧ (n + 1 = l.length ↔ rest = []) := by
  have hget : l[n]? = some v := by rw [← List.head?_drop, h]; rfl
  have hdrop : l.drop (n + 1) = rest := by rw [← List.tail_drop, h]; rfl
  refine ⟨hget, hdrop, ?_⟩
  have hlen := congrArg List.length h
  rw [List.length_drop, List.length_cons] at hlen
  rw [← List.length_eq_zero_iff]
  omega

/-- One read takes the first unread byte. -/
theorem Unread.readByteOf {f : FdcState} {data result rest : List Byte} {v : Byte} (h : Unread f data result)
    (hv : data ++ result = v :: rest) :
    ∃ f' es data' result', Machine.readByteOf f = (f', v, es) ∧ Unread f' data' result' ∧ data' ++ result' = rest := by
  cases h with
  | idle => cases hv
  | result hph hdrop hne =>
    obtain ⟨hget, hrest, hlast⟩ := drop_eq_cons (hdrop.trans hv)
    have hread := readByteOf_result hph hget
    by_cases hr : rest = []
    · exact ⟨_, _, [], [], hread.trans (if_pos (hlast.2 hr)), .idle (idle_finished _), hr.symm⟩
    · exact ⟨_, _, [], rest, hread.trans (if_neg (mt hlast.1 hr)), .result hph hrest hr, rfl⟩
  | data hph hdrop hne hres hrne =>
    obtain ⟨w, data', rfl⟩ := List.exists_cons_of_ne_nil hne
    obtain ⟨rfl, rfl⟩ := List.cons.inj hv
    obtain ⟨hget, hrest, hlast⟩ := drop_eq_cons hdrop
    have hread := readByteOf_data hph hget
    have hafter : FdcState.inPhase { f with
        dataCursor := f.dataCursor + 1, executionStatus := false, mainStatusRegister := 0xD0 } .sendingResult :=
      (inPhase_iff ..).2 ⟨((inPhase_iff f _).1 hph).1, rfl, rfl⟩
    by_cases hd : data' = []
    · exact ⟨_, _, [], result, hread.trans (if_pos (hlast.2 hd)), .result hafter hres hrne, by rw [hd]; rfl⟩
    · exact ⟨_, _, data', result, hread.trans (if_neg (mt hlast.1 hd)), .data hph hrest hd hres hrne, rfl⟩

/-- A read moves no drive. -/
theorem readByteOf_trackPerDrive (f : FdcState) : (readByteOf f).1.trackPerDrive = f.trackPerDrive := by
  simp only [readByteOf]
  split_ifs <;> rfl

/-- `t` is reached from `s` by reads that left `bytes` unread; reads leave the disk, the parameters and the drives. -/
structure ReadTo (s t : State) (bytes : List Byte) : Prop where
  unread : ∃ data result, Unread t.fdc data result ∧ data ++ result = bytes
  disk : t.disk = s.disk
  params : t.params = s.params
  tracks : t.fdc.trackPerDrive = s.fdc.trackPerDrive

/-- FDC.READ returns the first unread byte. -/
theorem exec_fdcRead_unread {s : State} {data result rest : List Byte} {v : Byte} (h : Unread s.fdc data result)
    (hv : data ++ result = v :: rest) : ∃ t, exec .fdcRead s = .next t ∧ t.result = .byte v ∧ ReadTo s t rest := by
  obtain ⟨f', es, data', result', hread, h', hrest⟩ := h.readByteOf hv
  have htracks : f'.trackPerDrive = s.fdc.trackPerDrive := by rw [← readByteOf_trackPerDrive s.fdc, hread]
  exact ⟨_, exec_fdcRead_of_readByteOf hread, rfl, ⟨data', result', h', hrest⟩, rfl, rfl, htracks⟩

/-- Reading as far as the byte `k` of what is unread. -/
theorem runAll_fdcRead (k : Nat) : ∀ {s : State} {data result : List Byte} {v : Byte}, Unread s.fdc data result →
    (data ++ result)[k]? = some v →
    ∃ t, runAll (List.replicate (k + 1) .fdcRead) s = some t ∧ t.result = .byte v ∧
      ReadTo s t ((data ++ result).drop (k + 1)) := by
  induction k with
  | zero =>
    intro s data result v h hv
    obtain ⟨rest, hrest⟩ : ∃ rest, data ++ result = v :: rest := List.head?_eq_some_iff.1 (by rwa [List.head?_eq_getElem?])
    obtain ⟨t, hexec, hresult, hread⟩ := exec_fdcRead_unread h hrest
    exact ⟨t, runAll_cons hexec, hresult, by rwa [hrest]⟩
  | succ k ih =>
    intro s data result v h hv
    obtain ⟨w, rest, hrest⟩ := List.exists_cons_of_ne_nil (l := data ++ result) (by rintro h; rw [h] at hv; cases hv)
    obtain ⟨t, hexec, -, ⟨data', result', h', hrest'⟩, hdisk, hparams, htracks⟩ := exec_fdcRead_unread h hrest
    rw [hrest, List.getElem?_cons_succ, ← hrest'] at hv
    obtain ⟨u, hrun, hresult, hread⟩ := ih h' hv
    refine ⟨u, (runAll_cons hexec).trans hrun, hresult, ?_, hread.disk.trans hdisk, hread.params.trans hparams,
      hread.tracks.trans htracks⟩
    rw [hrest, List.drop_succ_cons, ← hrest']
    exact hread.unread

/-- Settles O48: the unread bytes are the data and the result, and the unit is idle when none is left. -/
theorem readsDrainDataThenResult : Obligations.ReadsDrainDataThenResult := by
  intro s f data result hs hr k v hv
  have h : Unread s.fdc data result := hs ▸ Unread.of_sending hr
  obtain ⟨t, hrun, hresult, ⟨data', result', h', hdrop⟩, -, -, -⟩ := runAll_fdcRead k h hv
  have hk : k < (data ++ result).length := (List.getElem?_eq_some_iff.1 hv).1
  refine ⟨t, hrun, hresult, ?_⟩
  rw [h'.idle_iff, hdrop, List.drop_eq_nil_iff, ← List.length_append]
  omega

/-! ### The data bytes of WriteData (R304, R366) -/

/-- The unit in the middle of WriteData's data: `pre` received, `n` bytes awaited. -/
def dataReceived (f : FdcState) (pre : List Byte) (n : Nat) : FdcState :=
  { receivingData f (pre.length + n) with
    pendingDataBytes := pre ++ List.replicate n 0, dataCursor := pre.length }

theorem dataReceived_nil (f : FdcState) (n : Nat) : dataReceived f [] n = receivingData f n := by
  simp only [dataReceived, receivingData, List.length_nil, Nat.zero_add, List.nil_append]

theorem dataStored_dataReceived (f : FdcState) (pre : List Byte) (n : Nat) (b : Byte) :
    dataStored (dataReceived f pre (n + 1)) b = dataReceived f (pre ++ [b]) n := by
  have hbytes : (pre ++ List.replicate (n + 1) (0 : Byte)).set pre.length b = pre ++ [b] ++ List.replicate n 0 := by
    simp [List.replicate_succ]
  have hlen : pre.length + (n + 1) = (pre ++ [b]).length + n := by
    rw [List.length_append, List.length_singleton, Nat.add_assoc, Nat.add_comm n 1]
  simp only [dataStored, dataReceived, receivingData, hbytes, hlen, List.length_append, List.length_singleton]

/-- The last awaited data byte ends WriteData with all of them in the buffer (R367). -/
theorem writeAll_dataReceived (p : Params) (f : FdcState) (d : Option Disk) (rest : List Byte) :
    ∀ pre : List Byte, rest ≠ [] →
      writeAll p rest (dataReceived f pre rest.length, d) = writeDataFinish p (dataReceived f (pre ++ rest) 0) d := by
  induction rest with
  | nil => exact fun _ h => absurd rfl h
  | cons b rest ih =>
    intro pre _
    have hbyte : writeByte p b (dataReceived f pre (rest.length + 1), d) =
        receiveData p b (dataReceived f pre (rest.length + 1), d) := writeByte_data ((inPhase_iff ..).2 ⟨rfl, rfl, rfl⟩)
    have hcursor : (dataReceived f pre (rest.length + 1)).dataCursor + 1 = (dataReceived f pre (rest.length + 1)).dataLen ↔
        rest = [] := by
      rw [← List.length_eq_zero_iff]
      show pre.length + 1 = pre.length + (rest.length + 1) ↔ _
      omega
    rw [writeAll, List.length_cons, hbyte]
    by_cases hr : rest = []
    · rw [receiveData_last (hcursor.2 hr), dataStored_dataReceived, hr]
      rfl
    · rw [receiveData_more (mt hcursor.1 hr), dataStored_dataReceived, ih (pre ++ [b]) hr, List.append_assoc]
      rfl

/-! ### A sector through the controller -/

section Selected
variable (f : FdcState) (cmd : FloppyCommand) (p : RwParams)

/-- The unit with a command's parameters received and its drive and head selected. -/
def issued : FdcState := selected (received f cmd p.toBytes) p.hdUs

theorem trackByte_issued : trackByte (issued f cmd p) = driveGet f.trackPerDrive (usOf p.hdUs) := rfl

theorem headByte_issued : headByte (issued f cmd p) = (hdOf p.hdUs).setWidth 8 := by
  simp [headByte, issued, selected, driveGet, driveSet, hdOf]

end Selected

/-- HD is bit 2 of the HD/US byte (R109). -/
theorem hdOf_setWidth : ∀ b : Byte, ((hdOf b).setWidth 8 : Byte).toNat = b.toNat / 4 % 2 := by decide +kernel

theorem lengthOf_le (n dtl : Byte) : lengthOf n dtl ≤ 512 := by
  unfold lengthOf
  split
  · have := dtl.isLt; omega
  · exact le_rfl

/-- WriteData's data bytes, written where they are awaited, end as the sector and leave the seven result bytes. -/
theorem writeAll_sector {prm : Params} {f : FdcState} {d : Disk} {p : RwParams} {data : List Byte} (hne : data ≠ [])
    (he : diskError (some d) (headByte (issued f .writeData p)).toNat p.c.toNat p.r.toNat data.length = none) :
    ∃ f' result, writeAll prm data (receivingData (issued f .writeData p) data.length, some d) =
        (f', some { d with
          region := d.region.writeBytes (offsetOf d (headByte (issued f .writeData p)).toNat p.c.toNat p.r.toNat) data }) ∧
      Unread f' [] result ∧ result.length = 7 ∧ f'.trackPerDrive = f.trackPerDrive := by
  let g := dataReceived (issued f .writeData p) data 0
  have hbuffer : g.pendingDataBytes = data := List.append_nil data
  have hparams : g.rwParams = p := rwParams_awaiting f .writeData p
  obtain ⟨⟨x0, s1, s2⟩, hstatus⟩ : ∃ status, rwStatus prm (driveGet g.headPerDrive g.selectedDrive) g.rwParams.r = status :=
    ⟨_, rfl⟩
  have hfinish := writeDataFinish_ok (f := g) (d := d) (by rw [hbuffer, hparams]; exact he) hstatus
  rw [hbuffer, hparams] at hfinish
  have hwrite := writeAll_dataReceived prm (issued f .writeData p) (some d) data [] hne
  rw [dataReceived_nil, List.nil_append] at hwrite
  exact ⟨_, _, hwrite.trans hfinish, .of_sending (List.cons_ne_nil _ _), rfl, rfl⟩

/-- Settles O56: the data bytes fill the buffer, which ends as the sector; the result is drained, and ReadData of the
sector finds what was written. -/
theorem sectorRoundTripThroughController : Obligations.SectorRoundTripThroughController := by
  intro s d hi hi' p data hidle hs hinv hc h1 h9 htrack hhead hne hlen
  have hd := hinv.fixedGeometry
  have h512 : data.length ≤ 512 := hlen ▸ lengthOf_le _ _
  have hpos : 1 ≤ data.length := List.length_pos_iff.2 hne
  have hh : ((hdOf p.hdUs).setWidth 8 : Byte) = p.h := BitVec.eq_of_toNat_eq (by rw [hdOf_setWidth, hhead])
  have hplaced {f : FdcState} {cmd : FloppyCommand} (ht : f.trackPerDrive = s.fdc.trackPerDrive) :
      ¬ Mispositioned (issued f cmd p) p := by
    rw [Mispositioned, trackByte_issued, headByte_issued, ht, hh, ← hlen]
    exact not_or.2 ⟨by omega, not_or.2 ⟨not_not.2 htrack, not_not.2 rfl⟩⟩
  have hhd (f : FdcState) (cmd : FloppyCommand) : headByte (issued f cmd p) = p.h := by rw [headByte_issued, hh]
  have hg : OnGeometry p.h.toNat p.c.toNat p.r.toNat := ⟨by omega, hc, h1, h9⟩
  have herr {d : Disk} (hd : FixedGeometry d) (f : FdcState) (cmd : FloppyCommand) :
      diskError (some d) (headByte (issued f cmd p)).toNat p.c.toNat p.r.toNat (lengthOf p.n p.dtl) = none := by
    rw [hhd, ← hlen]
    exact hd.diskError_none hg hpos h512
  have hstart : exec (.fdcWriteData hi p) s = .next { s with
      fdc := receivingData (issued s.fdc .writeData p) data.length, result := .done, calls := [] } := by
    rw [hlen]
    exact ((writeDataWritesSector s).1 hi p hidle).2 (hplaced rfl) (hs ▸ herr hd s.fdc .writeData)
  obtain ⟨f', result, hwrite, hunread, hseven, htracks⟩ := writeAll_sector (prm := s.params) (f := s.fdc) hne
    (hlen ▸ herr hd s.fdc .writeData)
  let d' : Disk := { d with region := d.region.writeBytes (offsetOf d p.h.toNat p.c.toNat p.r.toNat) data }
  have hdata : runAll (data.map .fdcWrite) { s with
        fdc := receivingData (issued s.fdc .writeData p) data.length, result := .done, calls := [] } =
      some { s with fdc := f', disk := some d', result := .done, calls := [] } := by
    rw [hhd] at hwrite
    rw [runAll_fdcWrite hne]
    dsimp only
    rw [hs, hwrite]
    rfl
  obtain ⟨u, hreads, -, ⟨data', result', hunread', hdrop⟩, hdisk, hparams, htracks'⟩ := runAll_fdcRead 6
    (s := ({ s with
      fdc := f', disk := some d', result := .done, calls := [] })) hunread (List.getElem?_eq_getElem (by simp [hseven]))
  have hidle' : Idle u.fdc := hunread'.idle_iff.2 (by rw [hdrop, List.drop_eq_nil_iff]; simp [hseven])
  obtain ⟨⟨x0, s1, s2⟩, hstatus⟩ : ∃ status, rwStatus u.params
    (driveGet (issued u.fdc .readData p).headPerDrive (issued u.fdc .readData p).selectedDrive) p.r = status := ⟨_, rfl⟩
  have hread := ((readDataSendsSector u hi' p hidle').2 (hplaced (htracks'.trans htracks))
    (hdisk ▸ herr (d := d') (hd.withRegion _) u.fdc .readData) d' x0 s1 s2 hdisk hstatus)
  have hbytes : bytesAt d'.region (offsetOf d' (headByte (issued u.fdc .readData p)).toNat p.c.toNat p.r.toNat)
      (lengthOf p.n p.dtl) = data := by
    rw [hhd, ← hlen, ← readBytes_eq]
    exact Memory.readBytes_writeBytes_self _ _ _
  have hrest := (congrArg (Option.bind · (runAll [.fdcReadData hi' p])) hreads).trans (runAll_cons hread)
  refine ⟨_, Eq.trans ?_ hrest, inPhase_sending (ne_of_eq_of_ne hbytes hne) _, hbytes, rfl⟩
  rw [runAll_append, runAll_append, List.singleton_append, runAll_cons hstart, hdata]
  rfl

end Sys2Proof.Machine
end

section
/-! PROOF. The invariants of the floppy unit and of the disk store (45_fdc_protocol R322, 47_disk_image R392): every
operation keeps them.

A unit with nothing left to be read is at rest (`FdcRest`); a command only moves drives and status registers before it ends
in one of three ways, and each ending makes a unit in good order of a unit at rest. -/

namespace Sys2Proof.Machine

open Sys2Proof Sys2Proof.Spec

/-! ### Good order, by phase (R300, R322) -/

/-- The clauses of `FdcInv` that the phase does not give. -/
theorem FdcInv.of_inPhase {f : FdcState} {ph : FdcPhase} (hph : f.inPhase ph)
    (hidle : ph = .acceptingCommand → f.paramsReceived = 0)
    (hdio : ph.row.2.2.1 = true ↔ f.resultCursor < f.pendingResultBytes.length)
    (hparams : ph = .receivingParameters → f.paramsReceived < f.activeCommand.paramCount)
    (hdataIn : ph = .receivingData →
      f.dataCursor < f.dataLen ∧ f.dataLen = f.pendingDataBytes.length ∧ 1 ≤ f.dataLen ∧ f.dataLen ≤ 512)
    (hdataOut : ph = .sendingData → f.dataCursor < f.pendingDataBytes.length)
    (htracks : ∀ d : BitVec 2, (driveGet f.trackPerDrive d).toNat ≤ 79)
    (hlengths : f.pendingResultBytes.length ≤ 7 ∧ f.pendingDataBytes.length ≤ 512 ∧ f.dataLen ≤ 512) : FdcInv f := by
  obtain ⟨haccepting, hexec, hmsr⟩ := (inPhase_iff f ph).1 hph
  have hrow : (ph.row.1 = true → ph = .acceptingCommand ∧ ph.row.2.1 = false) ∧
      (ph.row.1 = true ↔ ph.row.2.2.2 = 0x80) ∧ ph.row.2.2.2.getLsbD 5 = ph.row.2.1 := by cases ph <;> decide
  obtain ⟨hrowIdle, hrowAccepting, hrowExm⟩ := hrow
  exact {
    phase := ⟨ph, hph⟩
    idle := fun h => ⟨hidle (hrowIdle (haccepting ▸ h)).1, hexec.trans (hrowIdle (haccepting ▸ h)).2⟩
    accepting := by rw [haccepting, hmsr]; exact hrowAccepting
    dioResult := by rw [dio_of_inPhase hph]; exact hdio
    exm := by rw [FdcState.exm, hmsr, hexec]; exact hrowExm
    params := fun h => hparams (inPhase_unique h hph)
    dataIn := fun h => hdataIn (inPhase_unique h hph)
    dataOut := fun h => hdataOut (inPhase_unique h hph)
    tracks := htracks
    lengths := hlengths }

/-- The unit has nothing left to be read. -/
structure FdcRest (f : FdcState) : Prop where
  tracks : ∀ d : BitVec 2, (driveGet f.trackPerDrive d).toNat ≤ 79
  result : f.pendingResultBytes.length ≤ 7
  data : f.pendingDataBytes.length ≤ 512
  dataLen : f.dataLen ≤ 512
  drained : f.pendingResultBytes.length ≤ f.resultCursor

theorem FdcInv.rest {f : FdcState} (h : FdcInv f) (hdio : f.dio = false) : FdcRest f where
  tracks := h.tracks
  result := h.lengths.1
  data := h.lengths.2.1
  dataLen := h.lengths.2.2
  drained := Nat.le_of_not_lt fun hlt => by rw [h.dioResult.2 hlt] at hdio; cases hdio

/-! ### The three endings (R312, R324, R366) -/

section Endings
variable {f : FdcState} (h : FdcRest f)
include h

theorem FdcRest.sendResult {data result : List Byte} (hd : data.length ≤ 512) (h1 : 1 ≤ result.length)
    (h7 : result.length ≤ 7) : FdcInv (f.sendResult data result) := by
  rw [sendResult_eq]
  cases data with
  | nil =>
    exact .of_inPhase (inPhase_sending_nil f result) nofun ⟨fun _ => h1, fun _ => rfl⟩ nofun
      nofun nofun h.tracks ⟨h7, hd, h.dataLen⟩
  | cons v data =>
    exact .of_inPhase (inPhase_sending (List.cons_ne_nil v data) result) nofun ⟨fun _ => h1, fun _ => rfl⟩
      nofun nofun (fun _ => Nat.succ_pos _) h.tracks ⟨h7, hd, h.dataLen⟩

theorem FdcRest.finished : FdcInv (finished f) :=
  .of_inPhase (idle_finished f) (fun _ => rfl) ⟨nofun, fun hlt => absurd hlt h.drained.not_gt⟩
    nofun nofun nofun h.tracks ⟨h.result, h.data, h.dataLen⟩

theorem FdcRest.beginReceiveData {len : Nat} (ha : f.acceptingCommand = false) (h1 : 1 ≤ len) (h512 : len ≤ 512) :
    FdcInv (f.beginReceiveData len) :=
  .of_inPhase (ph := .receivingData) ((inPhase_iff ..).2 ⟨ha, rfl, rfl⟩) nofun
    ⟨nofun, fun hlt => absurd hlt h.drained.not_gt⟩ nofun
    (fun _ => ⟨h1, (List.length_replicate ..).symm, h1, h512⟩) nofun h.tracks
    ⟨h.result, (List.length_replicate ..).trans_le h512, h512⟩

theorem FdcRest.abnormal (c hd r n : Byte) : FdcInv (f.abnormal c hd r n) :=
  FdcRest.sendResult (f := { f with st0 := st0Abnormal, st1 := 0, st2 := 0 })
    ⟨h.tracks, h.result, h.data, h.dataLen, h.drained⟩ (Nat.zero_le _) (Nat.le_add_left ..) le_rfl

theorem FdcRest.standardResult (p : Params) (sector : Byte) {data : List Byte} (hdata : data.length ≤ 512)
    (c hd r n : Byte) : FdcInv (f.standardResult p sector data c hd r n) :=
  let status := rwStatus p f.hd sector
  FdcRest.sendResult (f := { f with
      st0 := st0Of status.1 f.hd f.selectedDrive, st1 := status.2.1, st2 := status.2.2 })
    ⟨h.tracks, h.result, h.data, h.dataLen, h.drained⟩ hdata (Nat.le_add_left ..) le_rfl

/-! ### What a command does before it ends -/

theorem FdcRest.selectDriveHead (p0 : Byte) : FdcRest (f.selectDriveHead p0) :=
  ⟨h.tracks, h.result, h.data, h.dataLen, h.drained⟩

theorem FdcRest.setSector (sc : Byte) : FdcRest (f.setSector sc) :=
  ⟨h.tracks, h.result, h.data, h.dataLen, h.drained⟩

theorem FdcRest.setTrack {tr : Byte} (ht : tr.toNat ≤ 79) : FdcRest (f.setTrack tr) where
  tracks d := by
    have hother := h.tracks d
    simp only [FdcState.setTrack, driveGet, driveSet, Vector.getElem_set] at hother ⊢
    split
    · exact ht
    · exact hother
  result := h.result
  data := h.data
  dataLen := h.dataLen
  drained := h.drained

end Endings

/-! ### The disk store (R392, R400) -/

/-- The disk attached, if any, is in good order. -/
def DisksInv (disk : Option Disk) : Prop := ∀ d, disk = some d → DiskInv d

/-- What the checks let pass is attached and has no error of R404. -/
theorem diskCheck_eq_ok {disk : Option Disk} {head track sector n : Nat} {d : Disk}
    (h : diskCheck disk head track sector n = .ok d) : disk = some d ∧ diskError disk head track sector n = none := by
  cases he : diskError disk head track sector n with
  | some e => rw [diskCheck_error he] at h; cases h
  | none =>
    cases disk with
    | none => cases he
    | some d0 => rw [diskCheck_ok he] at h; cases h; exact ⟨rfl, rfl⟩

/-- R404 lets no other length pass. -/
theorem length_of_diskError_none {disk : Option Disk} {head track sector n : Nat}
    (h : diskError disk head track sector n = none) : 1 ≤ n ∧ n ≤ 512 := by
  cases disk with
  | none => cases h
  | some d =>
    by_contra hn
    simp only [diskError, hn, not_false_eq_true, if_true] at h
    split_ifs at h

theorem FixedGeometry.onGeometry {d : Disk} (hd : FixedGeometry d) {head track sector n : Nat}
    (h : diskError (some d) head track sector n = none) : OnGeometry head track sector := by
  rw [hd.diskError_eq] at h
  split_ifs at h with h1 h2 h3 h4
  exact ⟨by omega, h2, h3.1, h3.2⟩

/-- Every sector of the geometry lies inside the image, behind its header. -/
theorem sectorOffset_inside {head track sector : Nat} (hg : OnGeometry head track sector) :
    8 ≤ sectorOffset head track sector ∧ sectorOffset head track sector + 512 ≤ diskImageSize := by
  obtain ⟨hhead, htrack, hfirst, hlast⟩ := hg
  unfold sectorOffset diskImageSize
  omega

/-- A write to a sector of the geometry keeps the disk in good order. -/
theorem DiskInv.write {d : Disk} (hd : DiskInv d) {head track sector : Nat} {data : List Byte}
    (hg : OnGeometry head track sector) (hlen : data.length ≤ 512) :
    DiskInv { d with region := d.region.writeBytes (sectorOffset head track sector) data } := by
  obtain ⟨hheader, hinside⟩ := sectorOffset_inside hg
  exact {
    geometry := hd.geometry
    canonical := Memory.wf_writeBytes _ _ hd.canonical
    inside := Memory.within_writeBytes _ hd.inside (by omega)
    header := (Memory.readBytes_writeBytes_outside _ _ (.inl (by omega))).trans hd.header }

/-- A write that the store takes keeps the disk in good order. -/
theorem DisksInv.diskWrite {disk : Option Disk} (h : DisksInv disk) {head track sector : Nat} {data : List Byte} {d : Disk}
    (hw : diskWrite disk head track sector data = .ok d) : DiskInv d := by
  unfold Machine.diskWrite at hw
  split at hw
  · cases hw
  · rename_i d0 hcheck
    obtain ⟨rfl, herr⟩ := diskCheck_eq_ok hcheck
    have hd := h d0 rfl
    have hg := hd.fixedGeometry.onGeometry herr
    cases hw
    rw [offset_eq, hd.fixedGeometry.offsetOf_eq]
    exact hd.write hg (length_of_diskError_none herr).2

theorem DisksInv.some {d : Disk} (h : DiskInv d) : DisksInv (some d) := fun _ hd => Option.some.inj hd ▸ h

theorem DisksInv.formatSectors {head track : Nat} {image : List Byte} (n : Nat) : ∀ {s : Nat} {disk disk' : Option Disk},
    DisksInv disk → formatSectors head track image n s disk = .ok disk' → DisksInv disk' := by
  induction n with
  | zero => intro s disk disk' h hf; cases hf; exact h
  | succ n ih =>
    intro s disk disk' h hf
    unfold Machine.formatSectors at hf
    split at hf
    · cases hf
    · exact ih (.some (h.diskWrite ‹_›)) hf

/-- The created image and every image that DSK.OPEN accepts are in good order (R394, R396). -/
theorem diskInv_created : DiskInv Disk.created where
  geometry := ⟨rfl, rfl, rfl⟩
  canonical := Memory.wf_ofBytes _
  inside := by decide
  header := by decide

theorem diskInv_ofImage {image : List Byte} (h : openError image = none) : DiskInv (Disk.ofImage image) := by
  unfold openError at h
  split_ifs at h with h8 hheader hshort hlong
  have hlength : image.length = diskImageSize := by unfold diskImageSize; omega
  refine ⟨⟨rfl, rfl, rfl⟩, Memory.wf_ofBytes _, ?_, ?_⟩
  · have hwithin := Memory.within_ofBytes 0 image
    rwa [Nat.zero_add, hlength] at hwithin
  · refine Eq.trans (List.ext_getElem ?_ fun i h1 h2 => ?_) (not_not.1 hheader)
    · simp; omega
    · rw [Memory.getElem_readBytes, Nat.zero_add, List.getElem_take]
      exact (read_ofBytes_zero image i).trans (List.getD_eq_getElem ..)

/-! ### The commands (46_fdc_commands) -/

section Commands
variable (p : Params) {f : FdcState} (disk : Option Disk)

theorem runReadData_fdcInv (h : FdcRest f) : FdcInv (runReadData p f disk) := by
  have hsel := h.selectDriveHead f.rwParams.hdUs
  simp only [runReadData]
  split
  · exact hsel.abnormal ..
  · split
    · exact hsel.abnormal ..
    · rename_i bs hread
      refine (hsel.setSector _).standardResult p _ ?_ ..
      unfold diskRead at hread
      split at hread
      · cases hread
      · rename_i d hcheck
        cases hread
        rw [Memory.length_readBytes]
        exact (length_of_diskError_none (diskCheck_eq_ok hcheck).2).2

theorem runWriteData_fdcInv (h : FdcRest f) (ha : f.acceptingCommand = false) : FdcInv (runWriteData f disk) := by
  have hsel := h.selectDriveHead f.rwParams.hdUs
  simp only [runWriteData]
  split
  · exact hsel.abnormal ..
  · split
    · exact hsel.abnormal ..
    · rename_i d hcheck
      obtain ⟨h1, h512⟩ := length_of_diskError_none (diskCheck_eq_ok hcheck).2
      exact hsel.beginReceiveData ha h1 h512

theorem runReadId_fdcInv (h : FdcRest f) : FdcInv (runReadId p f disk) := by
  have hsel := h.selectDriveHead (f.param 0)
  simp only [runReadId]
  split
  · exact hsel.abnormal ..
  · exact hsel.standardResult p _ (Nat.zero_le _) ..

theorem runFormatTrack_fdcInv (h : FdcRest f) : FdcInv (runFormatTrack p f disk).1 := by
  have hsel := h.selectDriveHead f.formatParams.hdUs
  simp only [runFormatTrack]
  split
  · exact hsel.abnormal ..
  · split
    · exact hsel.abnormal ..
    · exact hsel.standardResult p _ (Nat.zero_le _) ..

theorem runFormatTrack_disksInv (f : FdcState) (h : DisksInv disk) : DisksInv (runFormatTrack p f disk).2 := by
  simp only [runFormatTrack]
  split
  · exact h
  · split
    · exact h
    · exact h.formatSectors _ ‹_›

theorem writeDataFinish_fdcInv (h : FdcRest f) : FdcInv (writeDataFinish p f disk).1 := by
  simp only [writeDataFinish]
  split
  · exact h.abnormal ..
  · exact (h.setSector _).standardResult p _ (Nat.zero_le _) ..

theorem writeDataFinish_disksInv (f : FdcState) (h : DisksInv disk) : DisksInv (writeDataFinish p f disk).2 := by
  simp only [writeDataFinish]
  split
  · exact h
  · exact .some (h.diskWrite ‹_›)

theorem seekTrack_le (ncn : Byte) : (seekTrack ncn).toNat ≤ 79 := by
  unfold seekTrack
  split
  · exact le_rfl
  · omega

theorem runSpecify_fdcInv (h : FdcRest f) : FdcInv (runSpecify f) :=
  FdcRest.finished (f := { f with
    stepRateTime := srtOf (f.param 0), headUnloadTime := hutOf (f.param 0), headLoadTime := hltOf (f.param 1)
    nonDmaMode := ndOf (f.param 1) }) ⟨h.tracks, h.result, h.data, h.dataLen, h.drained⟩

theorem runSenseDriveStatus_fdcInv (h : FdcRest f) : FdcInv (runSenseDriveStatus p f) :=
  let g := f.selectDriveHead (f.param 0)
  FdcRest.sendResult (f := { g with st3 := st3Of p.fdcSt3Flags g.tr g.hd g.selectedDrive })
    ⟨h.tracks, h.result, h.data, h.dataLen, h.drained⟩ (Nat.zero_le _) le_rfl (Nat.le_add_left ..)

theorem runSenseInterruptStatus_fdcInv (h : FdcRest f) : FdcInv (runSenseInterruptStatus p f) :=
  FdcRest.sendResult (f := { f with st0 := st0Of p.fdcSisSt0High f.hd f.selectedDrive })
    ⟨h.tracks, h.result, h.data, h.dataLen, h.drained⟩ (Nat.zero_le _) (Nat.le_add_left ..) (Nat.le_add_left ..)

/-- `Execute()` of a unit at rest leaves one in good order (R310). WriteData's data phase keeps the acceptance as it
was, so it has to be over. -/
theorem executeCommand_fdcInv (h : FdcRest f) (hn : f.activeCommand ≠ .none)
    (ha : f.activeCommand = .writeData → f.acceptingCommand = false) : FdcInv (executeCommand p f disk).1 := by
  unfold executeCommand
  split
  case h_1 => exact runSpecify_fdcInv h
  case h_2 => exact runSenseDriveStatus_fdcInv p h
  case h_3 => exact (((h.selectDriveHead _).setTrack (Nat.zero_le _)).setSector 1).finished
  case h_4 => exact runSenseInterruptStatus_fdcInv p h
  case h_5 => exact (((h.selectDriveHead _).setTrack (seekTrack_le _)).setSector 1).finished
  case h_6 => exact runReadId_fdcInv p disk h
  case h_7 => exact runReadData_fdcInv p disk h
  case h_8 => exact runFormatTrack_fdcInv p disk h
  case h_9 hc => exact runWriteData_fdcInv disk h (ha hc)
  case h_10 hc => exact absurd hc hn

/-- Only FormatTrack writes to the disk while it is executed; WriteData does at its last byte. -/
theorem executeCommand_disksInv (f : FdcState) (h : DisksInv disk) : DisksInv (executeCommand p f disk).2 := by
  unfold executeCommand
  split
  case h_8 => exact runFormatTrack_disksInv p disk f h
  all_goals exact h

end Commands

/-! ### FDC.WRITE and FDC.READ (R304, R314) -/

section Bytes
variable (p : Params) (b : Byte) {f : FdcState} (disk : Option Disk)

theorem receiveData_fdcInv (h : FdcInv f) (hph : f.inPhase .receivingData) : FdcInv (receiveData p b (f, disk)).1 := by
  have hrest := h.rest (dio_of_inPhase hph)
  obtain ⟨hcursor, hlen, h1, h512⟩ := h.dataIn hph
  by_cases hlast : f.dataCursor + 1 = f.dataLen
  · rw [receiveData_last hlast]
    exact writeDataFinish_fdcInv p disk (f := dataStored f b)
      ⟨hrest.tracks, hrest.result, (List.length_set ..).trans_le hrest.data, h512, hrest.drained⟩
  · rw [receiveData_more hlast]
    exact .of_inPhase (f := dataStored f b) (ph := .receivingData) hph nofun
      ⟨nofun, fun hlt => absurd hlt hrest.drained.not_gt⟩ nofun
      (fun _ => ⟨by show f.dataCursor + 1 < f.dataLen; omega, hlen.trans (List.length_set ..).symm, h1, h512⟩) nofun
      hrest.tracks ⟨hrest.result, (List.length_set ..).trans_le hrest.data, h512⟩

theorem acceptCommandByte_fdcInv (h : FdcInv f) (hph : f.inPhase .acceptingCommand) :
    FdcInv (acceptCommandByte p b (f, disk)).1 := by
  have hrest := h.rest (dio_of_inPhase hph)
  have htaken : FdcRest (commandTaken f b) :=
    ⟨hrest.tracks, hrest.result, hrest.data, hrest.dataLen, hrest.drained⟩
  by_cases hc : (fdcDecode b).1 = .none
  · rw [acceptCommandByte_absorbed hc]
    exact .of_inPhase (f := commandTaken f b) hph (fun _ => rfl)
      ⟨nofun, fun hlt => absurd hlt hrest.drained.not_gt⟩ nofun nofun nofun hrest.tracks
      ⟨hrest.result, hrest.data, hrest.dataLen⟩
  · by_cases h0 : (fdcDecode b).2 = 0
    · rw [acceptCommandByte_executed hc h0]
      refine executeCommand_fdcInv p disk htaken hc fun hw => ?_
      rw [fdcDecode_count, show (fdcDecode b).1 = .writeData from hw] at h0
      cases h0
    · rw [acceptCommandByte_parameters h0]
      refine .of_inPhase (ph := .receivingParameters) ((inPhase_iff ..).2 ⟨rfl, ((inPhase_iff f _).1 hph).2.1, rfl⟩) nofun
        ⟨nofun, fun hlt => absurd hlt hrest.drained.not_gt⟩ (fun _ => ?_) nofun nofun hrest.tracks
        ⟨hrest.result, hrest.data, hrest.dataLen⟩
      show 0 < (fdcDecode b).1.paramCount
      rw [← fdcDecode_count]
      exact Nat.pos_of_ne_zero h0

theorem receiveParam_fdcInv (h : FdcInv f) (hph : f.inPhase .receivingParameters) :
    FdcInv (receiveParam p b (f, disk)).1 := by
  have hrest := h.rest (dio_of_inPhase hph)
  have hparams := h.params hph
  obtain ⟨ha, -, -⟩ := (inPhase_iff f _).1 hph
  have hlt : f.paramsReceived < 8 := hparams.trans_le (paramCount_le_eight _)
  have hstored : FdcRest (paramStored f ⟨f.paramsReceived, hlt⟩ b) :=
    ⟨hrest.tracks, hrest.result, hrest.data, hrest.dataLen, hrest.drained⟩
  rw [receiveParam_eq (k := ⟨f.paramsReceived, hlt⟩) rfl]
  split
  · exact executeCommand_fdcInv p disk hstored
      (fun hn => absurd hparams (by rw [show f.activeCommand = .none from hn]; exact Nat.not_lt_zero _)) fun _ => ha
  · exact .of_inPhase (f := paramStored f ⟨f.paramsReceived, hlt⟩ b) (ph := .receivingParameters) hph nofun
      ⟨nofun, fun hlt => absurd hlt hrest.drained.not_gt⟩
      (fun _ => by show f.paramsReceived + 1 < f.activeCommand.paramCount; dsimp only at *; omega) nofun nofun hrest.tracks
      ⟨hrest.result, hrest.data, hrest.dataLen⟩

/-- FDC.WRITE keeps the unit in good order, phase by phase. -/
theorem writeByte_fdcInv (h : FdcInv f) : FdcInv (writeByte p b (f, disk)).1 := by
  obtain ⟨ph, hph⟩ := h.phase
  cases ph with
  | acceptingCommand => rw [writeByte_idle hph]; exact acceptCommandByte_fdcInv p b disk h hph
  | receivingParameters => rw [writeByte_params hph]; exact receiveParam_fdcInv p b disk h hph
  | receivingData => rw [writeByte_data hph]; exact receiveData_fdcInv p b disk h hph
  | sendingData | sendingResult => rw [writeByte_dio (dio_of_inPhase hph)]; exact h

theorem writeByte_disksInv (f : FdcState) (h : DisksInv disk) : DisksInv (writeByte p b (f, disk)).2 := by
  simp only [writeByte, receiveData, acceptCommandByte, receiveParam]
  split_ifs
  exacts [h, writeDataFinish_disksInv p disk _ h, h, h, executeCommand_disksInv p disk _ h, h,
    executeCommand_disksInv p disk _ h, h]

/-- FDC.READ keeps the unit in good order, phase by phase. -/
theorem readByteOf_fdcInv (h : FdcInv f) : FdcInv (readByteOf f).1 := by
  obtain ⟨ph, hph⟩ := h.phase
  cases ph with
  | acceptingCommand | receivingParameters | receivingData => rw [readByteOf_noDio (dio_of_inPhase hph)]; exact h
  | sendingData =>
    have hcursor := h.dataOut hph
    have hresult := h.dioResult.1 (dio_of_inPhase hph)
    obtain ⟨ha, -, -⟩ := (inPhase_iff f _).1 hph
    rw [readByteOf_data hph (List.getElem?_eq_getElem hcursor)]
    split
    · exact .of_inPhase (ph := .sendingResult) ((inPhase_iff ..).2 ⟨ha, rfl, rfl⟩) nofun ⟨fun _ => hresult, fun _ => rfl⟩
        nofun nofun nofun h.tracks h.lengths
    · exact .of_inPhase (f := { f with dataCursor := f.dataCursor + 1 }) (ph := .sendingData) hph nofun
        ⟨fun _ => hresult, fun _ => rfl⟩ nofun nofun (fun _ => by dsimp only; omega) h.tracks h.lengths
  | sendingResult =>
    have hresult := h.dioResult.1 (dio_of_inPhase hph)
    rw [readByteOf_result hph (List.getElem?_eq_getElem hresult)]
    split
    case isTrue hlast =>
      exact FdcRest.finished (f := { f with resultCursor := f.resultCursor + 1 })
        ⟨h.tracks, h.lengths.1, h.lengths.2.1, h.lengths.2.2, hlast.ge⟩
    case isFalse =>
      exact .of_inPhase (f := { f with resultCursor := f.resultCursor + 1 }) (ph := .sendingResult) hph nofun
        ⟨fun _ => by dsimp only; omega, fun _ => rfl⟩ nofun nofun nofun h.tracks h.lengths

/-- The bytes of a command, one after another (R132). -/
theorem writeAll_fdcInv (bs : List Byte) : ∀ {u : Floppy}, FdcInv u.1 → FdcInv (writeAll p bs u).1 := by
  induction bs with
  | nil => exact fun hf => hf
  | cons b bs ih => exact fun hf => ih (writeByte_fdcInv p b _ hf)

theorem writeAll_disksInv (bs : List Byte) : ∀ {u : Floppy}, DisksInv u.2 → DisksInv (writeAll p bs u).2 := by
  induction bs with
  | nil => exact fun hd => hd
  | cons b bs ih => exact fun hd => ih (writeByte_disksInv p b _ _ hd)

end Bytes

/-! ### Every operation -/

theorem fdcInv_reset : FdcInv FdcState.reset :=
  .of_inPhase (ph := .acceptingCommand) ((inPhase_iff ..).2 ⟨rfl, rfl, rfl⟩) (fun _ => rfl) (by decide) nofun nofun nofun
    (by decide) (by decide)

/-- Every operation keeps the floppy unit in good order (R322). -/
theorem exec_fdcInv {i : Instr} {s t : State} (hf : FdcInv s.fdc) (h : exec i s = .next t) : FdcInv t.fdc := by
  obtain ⟨-, -, -, -, hother, -⟩ := unitsAreIsolated i s t h
  cases i with
  | fdcReset => cases h; exact fdcInv_reset
  | fdcWrite b => cases h; exact writeByte_fdcInv _ b _ hf
  | fdcRead => cases h; exact readByteOf_fdcInv hf
  | fdcStatus => cases h; exact hf
  | fdcSpecify | fdcSenseDriveStatus | fdcRecalibrate | fdcSenseInterruptStatus | fdcSeek | fdcReadId | fdcReadData
  | fdcFormatTrack | fdcWriteData | fdcNone => cases h; exact writeAll_fdcInv _ _ hf
  | _ => rw [hother nofun]; exact hf

/-- Every operation keeps the disk in good order (R396, R400). -/
theorem exec_disksInv {i : Instr} {s t : State} (hd : DisksInv s.disk) (h : exec i s = .next t) : DisksInv t.disk := by
  obtain ⟨-, -, -, -, -, hother, -⟩ := unitsAreIsolated i s t h
  cases i with
  | fdcReset | fdcRead | fdcStatus => cases h; exact hd
  | fdcWrite b => cases h; exact writeByte_disksInv _ b _ _ hd
  | fdcSpecify | fdcSenseDriveStatus | fdcRecalibrate | fdcSenseInterruptStatus | fdcSeek | fdcReadId | fdcReadData
  | fdcFormatTrack | fdcWriteData | fdcNone => cases h; exact writeAll_disksInv _ _ hd
  | dskCreate => cases h; exact .some diskInv_created
  | dskOpen image =>
    cases he : openError image with
    | some e => rw [exec_dskOpen_of_error he] at h; cases h; exact hd
    | none => rw [exec_dskOpen_of_no_error he] at h; cases h; exact .some (diskInv_ofImage he)
  | dskRead head track sector n =>
    have h : execDskRead head track sector n s = .next t := h
    unfold execDskRead at h
    split at h <;> cases h <;> exact hd
  | dskWrite head track sector data =>
    have h : execDskWrite head track sector data s = .next t := h
    unfold execDskWrite at h
    split at h
    · cases h; exact hd
    · cases h; exact .some (hd.diskWrite ‹_›)
  | _ => rw [hother nofun nofun]; exact hd

/-- Settles O12: the clauses of `FdcInv` after the operation; no two phases share a row. -/
theorem floppyInvariantKept : Obligations.FloppyInvariantKept := by
  intro i s t hf h
  have ht := exec_fdcInv hf h
  obtain ⟨ph, hph⟩ := ht.phase
  exact ⟨ht, ⟨ph, hph, fun q hq => inPhase_unique hph hq⟩, ⟨ht.accepting, ht.idle⟩, ht.dioResult, ht.exm, ht.params,
    ht.dataIn, ht.dataOut⟩

end Sys2Proof.Machine
end

section
/-! PROOF. The machine invariant (10_state R23 to R52): the power-on state meets it and every step keeps it, unit by unit. -/

namespace Sys2Proof.Machine

open Sys2Proof Sys2Proof.Spec

/-! ### The video unit (R23 to R25) -/

theorem videoInv_build {g : Geometry} (hg : g.valid = true) (frameCount : Nat) (flash : Bool) :
    VideoInv (buildVideo g frameCount flash) where
  geometry := hg
  table := rfl
  size := List.length_replicate ..
  palette b hb := by rw [List.eq_of_mem_replicate hb]; decide

/-- Every operation keeps the video unit in good order. -/
theorem exec_videoInv {i : Instr} {s t : State} (hp : ParamsInv s.params) (hv : VideoInv s.video)
    (h : exec i s = .next t) : VideoInv t.video := by
  obtain ⟨-, -, hother, -⟩ := unitsAreIsolated i s t h
  cases i with
  | vidReset => cases h; exact videoInv_build hp.geometry 0 false
  | vidBuild g =>
    cases hg : g.valid with
    | true => rw [exec_vidBuild_valid hg] at h; cases h; exact videoInv_build hg _ _
    | false => rw [(vidBuildBuildsTable g s).1 hg] at h; cases h; exact hv
  | vidRender fromTact toTact => cases h; exact hv.renderTacts _ _
  | vidNewframe => cases h; exact ⟨hv.geometry, hv.table, hv.size, hv.palette⟩
  | vidContend => cases h; exact hv
  | _ => rw [hother nofun]; exact hv

/-! ### The block assembler (R35) -/

/-- The save-side clauses of `TapeInv`. -/
structure SaveInv (capacity : Nat) (v : SaveState) : Prop where
  buffer : v.dataBuffer.length ≤ capacity
  noError : v.phase ≠ .error

section Save
variable {capacity : Nat} {v : SaveState}

theorem saveInv_abandoned (capacity : Nat) (v : SaveState) : SaveInv capacity (abandoned v) :=
  ⟨Nat.zero_le _, show SavePhase.none ≠ .error by decide⟩

theorem SaveInv.withPhase (h : SaveInv capacity v) {ph : SavePhase} (hph : ph ≠ .error) (count : Nat) :
    SaveInv capacity { v with phase := ph, pilotPulseCount := count } := ⟨h.buffer, hph⟩

/-- A half-pulse of a bit fills the buffer up to its capacity and not beyond (R242). -/
theorem SaveInv.dataHalf (h : SaveInv capacity v) (bit : Bool) : SaveInv capacity (dataHalf capacity bit v) := by
  have hbuffer := h.buffer
  simp only [Spec.dataHalf]
  split_ifs with _ _ _ hfull
  · exact ⟨hbuffer, h.noError⟩
  · exact ⟨hbuffer, h.noError⟩
  · exact saveInv_abandoned capacity v
  · refine ⟨?_, h.noError⟩
    rw [List.length_append, List.length_singleton]
    omega
  · exact saveInv_abandoned capacity v

/-- One step of the assembler keeps it in good order, phase by phase (R240). -/
theorem SaveInv.step {p : Params} (h : SaveInv p.saveBufferCapacity v) (c : PulseClass) :
    SaveInv p.saveBufferCapacity (SaveState.step p c v).1 := by
  have habandoned := saveInv_abandoned p.saveBufferCapacity v
  unfold SaveState.step
  cases hp : v.phase with
  | none =>
    dsimp only [SaveState.stepNone]
    split
    · exact h.withPhase (by decide) 1
    · exact h
  | pilot =>
    dsimp only
    rw [stepPilot_eq]
    split_ifs
    · exact ⟨h.buffer, h.noError⟩
    · exact ⟨h.buffer, show SavePhase.sync1 ≠ .error by decide⟩
    · exact habandoned
  | sync1 =>
    dsimp only [SaveState.stepSync1]
    split
    · exact ⟨h.buffer, show SavePhase.sync2 ≠ .error by decide⟩
    · exact habandoned
  | sync2 =>
    dsimp only
    rw [stepSync2_eq]
    split
    · exact ⟨Nat.zero_le _, show SavePhase.data ≠ .error by decide⟩
    · exact habandoned
  | data =>
    dsimp only
    rw [stepData_eq]
    split_ifs
    · exact h.dataHalf _
    · exact ⟨habandoned.buffer, habandoned.noError⟩
    · exact habandoned
  | error => exact h

end Save

/-! ### The tape unit (R31 to R36) -/

section Tape
variable {capacity : Nat} {t : TapeUnit}

theorem TapeInv.saveInv (h : TapeInv capacity t) : SaveInv capacity t.save := ⟨h.buffer, h.noError⟩

/-- The cursor clauses, the playback and the assembler make the whole. -/
theorem TapeInv.of_parts (hblock : t.imageStale = false → t.blockIndex ≤ t.image.length)
    (hplaying : t.imageStale = false → t.initialised = true → t.playerCompleted = false →
      t.blockIndex < t.image.length ∧ t.hasEmptyBlock = false)
    (hplay : PlayInv t.play) (hsave : SaveInv capacity t.save) : TapeInv capacity t :=
  ⟨hblock, hplaying, hplay.cursor, hplay.mask, hplay.pulse, hsave.buffer, hsave.noError⟩

theorem TapeInv.withMode (h : TapeInv capacity t) (m : TapeMode) : TapeInv capacity { t with mode := m } :=
  .of_parts h.block h.playing h.playInv h.saveInv

theorem TapeInv.withSave (h : TapeInv capacity t) {v : SaveState} (hv : SaveInv capacity v) (m : TapeMode) :
    TapeInv capacity { t with mode := m, save := v } :=
  .of_parts h.block h.playing h.playInv hv

theorem playInv_reset : PlayInv Playback.reset :=
  ⟨fun _ => rfl, show 0x80#8 ∈ oneHotMasks by decide, .inl rfl⟩

theorem saveInv_reset (tact : Nat) : SaveInv capacity { SaveState.reset with lastActivityTact := tact } :=
  ⟨Nat.zero_le _, show SavePhase.none ≠ .error by decide⟩

theorem tapeInv_reset (image : List TapeBlock) : TapeInv capacity (TapeUnit.reset image) :=
  .of_parts (fun _ => Nat.zero_le _) (fun _ hi => by cases hi) playInv_reset (saveInv_reset 0)

/-- A block with data started where no block is empty. -/
theorem TapeInv.started {k : Nat} {b : TapeBlock} (h : TapeInv capacity t) (he : t.hasEmptyBlock = false)
    (hb : t.image[k]? = some b) (m : TapeMode) (tact : Nat) :
    TapeInv capacity { t with
      mode := m, blockIndex := k, playerCompleted := false, initialised := true, lastTact := tact
      play := started b tact } := by
  obtain ⟨hk, -⟩ := List.getElem?_eq_some_iff.1 hb
  exact .of_parts (fun _ => hk.le) (fun _ _ _ => ⟨hk, he⟩) (playInv_started b tact) h.saveInv

end Tape

section Transitions
variable {s t : State} {tact : Nat}

theorem enterLoad_tapeInv (ht : TapeInv s.params.saveBufferCapacity s.tape) (h : enterLoad tact s = .next t) :
    TapeInv s.params.saveBufferCapacity t.tape := by
  obtain ⟨-, rfl⟩ | ⟨-, -, rfl⟩ | ⟨-, -, rfl⟩ | ⟨-, he, k, b, -, hb, -, rfl⟩ := enterLoad_cases h
  · exact ht
  · exact ht
  · exact .of_parts (fun _ => Nat.zero_le _) (fun _ hi => by cases hi) ht.playInv ht.saveInv
  · exact ht.started he hb .load tact

theorem leaveLoad_tapeInv (ht : TapeInv s.params.saveBufferCapacity s.tape) (h : leaveLoad s = .next t) :
    TapeInv s.params.saveBufferCapacity t.tape := by
  obtain ⟨-, rfl⟩ | ⟨-, rfl⟩ := leaveLoad_cases h
  · exact ht.withMode .passive
  · exact ht

theorem enterSave_tapeInv (ht : TapeInv s.params.saveBufferCapacity s.tape) (h : enterSave tact s = .next t) :
    TapeInv s.params.saveBufferCapacity t.tape := by
  obtain ⟨-, rfl⟩ | ⟨-, rfl⟩ := enterSave_cases h
  · exact ht.withSave (saveInv_reset tact) .save
  · exact ht

theorem leaveSave_tapeInv (ht : TapeInv s.params.saveBufferCapacity s.tape) (h : leaveSave s = .next t) :
    TapeInv s.params.saveBufferCapacity t.tape := by
  obtain ⟨-, rfl⟩ | ⟨-, rfl⟩ := leaveSave_cases h
  · exact ht.withMode .passive
  · exact ht

theorem fastLoad_tapeInv (ht : TapeInv s.params.saveBufferCapacity s.tape) (h : fastLoad s = .next t) :
    TapeInv s.params.saveBufferCapacity t.tape := by
  obtain ⟨-, rfl⟩ | ⟨b, cs, hb, rfl⟩ := fastLoad_cases h
  · exact ht
  · obtain ⟨hk, -⟩ := List.getElem?_eq_some_iff.1 hb
    exact .of_parts (fun _ => hk) (fun _ hi => by cases hi) ht.playInv ht.saveInv

theorem execTapeEar_tapeInv (ht : TapeInv s.params.saveBufferCapacity s.tape) (h : execTapeEar tact s = .next t) :
    TapeInv s.params.saveBufferCapacity t.tape := by
  obtain ⟨hr, ⟨-, rfl⟩ | ⟨-, -, -, rfl⟩ | ⟨-, -, -, -, rfl⟩ | ⟨hm, hc, hi, hle, -⟩⟩ := execTapeEar_cases h
  · exact ht
  · exact ht
  · exact ht
  · obtain ⟨u, level, hexec, hframe, hwalk⟩ := exec_tapeEar_playing ht hr hm hc hi hle
    have hu : t.tape = u := by
      rw [complete_next.1 (hexec.symm.trans h)]
      rfl
    have hempty := (ht.playing hr hi hc).2
    rw [hu, hframe]
    refine .of_parts (fun _ => ?_) (fun _ _ hc' => ⟨?_, hempty⟩) hwalk.play ht.saveInv
    · obtain ⟨-, hindex, -⟩ | ⟨-, hindex⟩ := hwalk.ends
      · exact hindex.le
      · exact hindex.le
    · obtain ⟨hdone, -, -⟩ | ⟨-, hindex⟩ := hwalk.ends
      · rw [hdone] at hc'; cases hc'
      · exact hindex

/-- Every operation keeps the tape unit in good order. -/
theorem exec_tapeInv {i : Instr} (ht : TapeInv s.params.saveBufferCapacity s.tape) (h : exec i s = .next t) :
    TapeInv s.params.saveBufferCapacity t.tape := by
  obtain ⟨-, -, -, hother, -⟩ := unitsAreIsolated i s t h
  cases i with
  | tapeReset => cases h; exact tapeInv_reset s.tape.image
  | tapeSetmode pc tact =>
    obtain ⟨-, ⟨-, -, -, h⟩ | ⟨-, -, -, h⟩ | ⟨-, -, -, h⟩ | ⟨-, -, h⟩ | ⟨-, -, h⟩ | ⟨-, rfl⟩⟩ := execTapeSetmode_cases h
    · exact fastLoad_tapeInv ht h
    · exact enterLoad_tapeInv ht h
    · exact enterSave_tapeInv ht h
    · exact leaveLoad_tapeInv ht h
    · exact leaveSave_tapeInv ht h
    · exact ht
  | tapeEnterload => exact enterLoad_tapeInv ht (guardTape_next h).2
  | tapeLeaveload => exact leaveLoad_tapeInv ht (guardTape_next h).2
  | tapeEntersave => exact enterSave_tapeInv ht (guardTape_next h).2
  | tapeLeavesave => exact leaveSave_tapeInv ht (guardTape_next h).2
  | tapeInitplay start =>
    obtain ⟨-, ⟨-, rfl⟩ | ⟨-, -, rfl⟩ | ⟨he, b, hb, -, rfl⟩⟩ := execTapeInitplay_cases h
    · exact ht
    · exact ht
    · exact ht.started he hb s.tape.mode start
  | tapeEar => exact execTapeEar_tapeInv ht h
  | tapeMic tact value =>
    obtain ⟨-, ⟨-, rfl⟩ | ⟨-, -, -, rfl⟩ | ⟨-, -, -, v, es, hv, rfl⟩⟩ := execTapeMic_cases h
    · exact ht
    · exact ht
    · have hv : (s.tape.save.transition s.params tact value).1 = v := congrArg Prod.fst hv
      exact ht.withSave (hv ▸ SaveInv.step (v := { s.tape.save with micBitState := value, lastActivityTact := tact })
        ⟨ht.buffer, ht.noError⟩ _) s.tape.mode
  | tapeFastload tact =>
    obtain ⟨-, -, h⟩ := execTapeFastload_cases (tact := tact) h
    exact fastLoad_tapeInv ht h
  | _ => rw [hother nofun]; exact ht

end Transitions

/-! ### The host's memory -/

/-- A canonical memory of 64 KiB. -/
def HostMemoryInv (m : Memory) : Prop := Memory.wf m = true ∧ Memory.within 65536 m = true

theorem HostMemoryInv.write {m : Memory} (h : HostMemoryInv m) (a : Addr) (v : Byte) :
    HostMemoryInv (m.write a.toNat v) :=
  ⟨Memory.wf_write _ _ h.1, Memory.within_write _ h.2 a.isLt⟩

theorem HostMemoryInv.copyBody (bs : List Byte) : ∀ {m : Memory} {a : Addr}, HostMemoryInv m →
    HostMemoryInv (copyBody m a bs) := by
  induction bs with
  | nil => exact fun h => h
  | cons v bs ih => exact fun h => ih (h.write _ v)

theorem fastLoad_hostMemoryInv {s t : State} (hm : HostMemoryInv s.host.mem) (h : fastLoad s = .next t) :
    HostMemoryInv t.host.mem := by
  obtain ⟨-, rfl⟩ | ⟨b, cs, -, rfl⟩ := fastLoad_cases h
  · exact hm
  · simp only [State.answer_host, State.setHost_host]
    split
    · exact hm.copyBody _
    · exact hm

/-- Every operation keeps the host's memory canonical: only `FastLoad` writes to it (R285). -/
theorem exec_hostMemoryInv {i : Instr} {s t : State} (hm : HostMemoryInv s.host.mem) (h : exec i s = .next t) :
    HostMemoryInv t.host.mem := by
  obtain ⟨-, -, -, -, -, -, hother, -⟩ := unitsAreIsolated i s t h
  cases i with
  | tapeSetmode pc tact =>
    obtain ⟨-, ⟨-, -, -, h⟩ | ⟨-, -, -, h⟩ | ⟨-, -, -, h⟩ | ⟨-, -, h⟩ | ⟨-, -, h⟩ | ⟨-, rfl⟩⟩ := execTapeSetmode_cases h
    · exact fastLoad_hostMemoryInv hm h
    · rw [enterLoad_keeps_host h]; exact hm
    · rw [enterSave_keeps_host h]; exact hm
    · rw [leaveLoad_keeps_host h]; exact hm
    · rw [leaveSave_keeps_host h]; exact hm
    · exact hm
  | tapeFastload tact =>
    obtain ⟨-, -, h⟩ := execTapeFastload_cases (tact := tact) h
    exact fastLoad_hostMemoryInv hm h
  | tapeReset => rw [complete_next.1 h]; exact hm
  | tapeEnterload => rw [enterLoad_keeps_host (guardTape_next h).2]; exact hm
  | tapeLeaveload => rw [leaveLoad_keeps_host (guardTape_next h).2]; exact hm
  | tapeEntersave => rw [enterSave_keeps_host (guardTape_next h).2]; exact hm
  | tapeLeavesave => rw [leaveSave_keeps_host (guardTape_next h).2]; exact hm
  | tapeInitplay =>
    obtain ⟨-, ⟨-, rfl⟩ | ⟨-, -, rfl⟩ | ⟨-, b, -, -, rfl⟩⟩ := execTapeInitplay_cases h <;> exact hm
  | tapeEar =>
    obtain ⟨-, ⟨-, rfl⟩ | ⟨-, -, -, rfl⟩ | ⟨-, -, -, -, rfl⟩ | ⟨-, -, -, -, t', level, -, rfl⟩⟩ := execTapeEar_cases h <;>
      exact hm
  | tapeMic =>
    obtain ⟨-, ⟨-, rfl⟩ | ⟨-, -, -, rfl⟩ | ⟨-, -, -, v, es, -, rfl⟩⟩ := execTapeMic_cases h <;> exact hm
  | _ => rw [hother (.inr nofun)]; exact hm

/-! ### The whole machine -/

/-- The pending inputs are no part of the invariant. -/
theorem MachineInv.setInputs {s : State} (h : MachineInv s) (is : List HostInput) : MachineInv (s.setInputs is) :=
  ⟨h.params, h.video, h.tape, h.fdc, h.disk, h.hostMemory⟩

/-- Every operation keeps the machine invariant. -/
theorem MachineInv.exec {i : Instr} {s t : State} (hs : MachineInv s) (h : exec i s = .next t) : MachineInv t := by
  obtain ⟨hparams, -⟩ := unitsAreIsolated i s t h
  exact {
    params := hparams ▸ hs.params
    video := exec_videoInv hs.params hs.video h
    tape := hparams ▸ exec_tapeInv hs.tape h
    fdc := exec_fdcInv hs.fdc h
    disk := exec_disksInv hs.disk h
    hostMemory := exec_hostMemoryInv hs.hostMemory h }

/-- A new tape image meets a unit in its reset state, or leaves the unit stuck (93 U7). -/
theorem TapeInv.setImage {capacity : Nat} {t : TapeUnit} (h : TapeInv capacity t) (image : List TapeBlock) :
    TapeInv capacity { t with image := image, imageStale := !t.atReset } := by
  refine .of_parts (fun hstale => ?_) (fun hstale hi => ?_) h.playInv h.saveInv
  all_goals
    have hreset : t = TapeUnit.reset t.image := of_decide_eq_true (Bool.not_eq_eq_eq_not.1 hstale)
  · show t.blockIndex ≤ _
    rw [hreset]
    exact Nat.zero_le _
  · have hi : t.initialised = true := hi
    rw [hreset] at hi
    cases hi

/-- Every action of the host keeps the machine invariant (R22, R88). -/
theorem MachineInv.applyHostAction {s : State} (hs : MachineInv s) (a : HostAction) :
    MachineInv (applyHostAction a s) := by
  cases a with
  | memWrite addr v =>
    exact ⟨hs.params, hs.video, hs.tape, hs.fdc, hs.disk, HostMemoryInv.write hs.hostMemory addr v⟩
  | setBorder | setCpu => exact ⟨hs.params, hs.video, hs.tape, hs.fdc, hs.disk, hs.hostMemory⟩
  | setTape image => exact ⟨hs.params, hs.video, hs.tape.setImage image, hs.fdc, hs.disk, hs.hostMemory⟩

/-- Settles O11: a step is nothing, an action of the host, or an operation. -/
theorem stepKeepsInvariant : Obligations.StepKeepsInvariant := by
  intro s t hs h
  have h : runNext s = .next t := h
  unfold runNext at h
  split at h
  · cases h; exact hs
  · cases h; exact (hs.setInputs _).applyHostAction _
  · split at h
    · cases h
    · exact (hs.setInputs _).exec h

theorem MachineInv.powerOn {p : Params} (hp : ParamsInv p) : MachineInv (State.powerOn p) where
  params := hp
  video := videoInv_build hp.geometry 0 false
  tape := tapeInv_reset []
  fdc := fdcInv_reset
  disk := nofun
  hostMemory := ⟨rfl, rfl⟩

/-- Settles O10: the power-on state is built from the units' reset states. -/
theorem powerOnMeetsInvariant : Obligations.PowerOnMeetsInvariant :=
  ⟨fun _ => .powerOn, .powerOn ⟨by decide, by decide, by decide⟩⟩

end Sys2Proof.Machine
end

section
/-! PROOF. How operations end (44_tape_mode R270 to R283, 60_exceptions R420 to R430, 70_reset_and_hazards R460): what goes
on, what stops, what raises, what the tape mode becomes, and what the resets leave. -/

namespace Sys2Proof.Machine

open Sys2Proof Sys2Proof.Spec

/-! ### Reset (R460, R461) -/

/-- Settles O9: each reset writes every element of its unit, so what the units held before does not show. -/
theorem powerOnIsThreeResets : Obligations.PowerOnIsThreeResets := by
  intro p v tu f himage
  have htape : TapeUnit.reset tu.image = TapeUnit.reset [] := by rw [himage]
  refine ⟨?_, rfl⟩
  show some { State.powerOn p with tape := TapeUnit.reset tu.image } = some (State.powerOn p)
  rw [htape]
  rfl

/-! ### What goes on (R430, 93 U7) -/

theorem goes_completeWith (r : OpResult) (cs : List Callback) (s : State) : Goes (completeWith r cs s) := ⟨_, rfl⟩

theorem goes_complete (r : OpResult) (s : State) : Goes (complete r s) := ⟨_, rfl⟩

theorem goes_raise (e : OpError) (s : State) : Goes (raise e s) := ⟨_, rfl⟩

section Goes
variable (s : State) (tact : Nat)

theorem leaveLoad_goes : Goes (leaveLoad s) := by
  unfold leaveLoad
  split
  · exact goes_complete _ _
  · exact goes_complete _ _

theorem leaveSave_goes : Goes (leaveSave s) := by
  unfold leaveSave
  split
  · exact goes_complete _ _
  · exact goes_complete _ _

theorem enterSave_goes : Goes (enterSave tact s) := by
  unfold enterSave
  split
  · exact goes_complete _ _
  · exact goes_complete _ _

/-- `EnterLoad` starts a block that its checks found to have data (R276). -/
theorem enterLoad_goes : Goes (enterLoad tact s) := by
  by_cases hm : s.tape.mode = .passive
  case neg => exact enterLoad_ignored hm ▸ goes_complete _ _
  by_cases he : HasEmptyBlock s.tape.image
  case pos => exact enterLoad_emptyBlock hm he ▸ goes_raise _ _
  by_cases hi : s.tape.image = []
  case pos => exact enterLoad_emptyTape hm hi ▸ goes_complete _ _
  have hk : s.tape.restartFinished.blockIndex < s.tape.image.length := by
    rw [restartFinished_blockIndex]
    split
    · assumption
    · exact List.length_pos_iff.2 hi
  exact enterLoad_playing hm he (List.getElem?_eq_getElem hk) ▸ goes_complete _ _

theorem fastLoad_goes : Goes (fastLoad s) := by
  unfold fastLoad
  split
  · exact goes_complete _ _
  · dsimp only
    split
    · exact goes_completeWith _ _ _
    · exact goes_completeWith _ _ _

variable {s} (hr : TapeReady s)
include hr

theorem exec_tapeSetmode_goes (pc : Addr) : Goes (exec (.tapeSetmode pc tact) s) := by
  cases hm : s.tape.mode with
  | passive =>
    rw [exec_tapeSetmode_passive hr hm]
    split_ifs
    · exact fastLoad_goes s
    · exact enterLoad_goes s tact
    · exact enterSave_goes s tact
    · exact goes_complete _ _
  | load =>
    rw [exec_tapeSetmode_load hr hm]
    split
    · exact leaveLoad_goes s
    · exact goes_complete _ _
  | save =>
    rw [exec_tapeSetmode_save hr hm]
    split
    · exact leaveSave_goes s
    · exact goes_complete _ _

theorem exec_tapeInitplay_goes : Goes (exec (.tapeInitplay tact) s) := by
  by_cases hk : s.tape.image.length ≤ s.tape.blockIndex
  case pos => exact exec_tapeInitplay_noBlock tact hr hk ▸ goes_raise _ _
  have hk := Nat.lt_of_not_le hk
  by_cases he : HasEmptyBlock s.tape.image
  case pos => exact exec_tapeInitplay_emptyBlock tact hr hk he ▸ goes_raise _ _
  exact exec_tapeInitplay_playing tact hr (List.getElem?_eq_getElem hk) he ▸ goes_complete _ _

/-- TAPE.EAR: only the walk over the blocks could stop, and in good order it does not. -/
theorem exec_tapeEar_goes (hinv : TapeInv s.params.saveBufferCapacity s.tape) : Goes (exec (.tapeEar tact) s) := by
  by_cases hidle : s.tape.mode ≠ .load ∨ s.tape.playerCompleted = true
  case pos => exact exec_tapeEar_idle hr hidle ▸ goes_complete _ _
  obtain ⟨hm, hc⟩ := not_or.1 hidle
  have hm := not_not.1 hm
  have hc := Bool.eq_false_iff.2 hc
  cases hi : s.tape.initialised with
  | false => exact exec_tapeEar_unstarted hr hm hc hi ▸ goes_raise _ _
  | true =>
    by_cases ht : tact < s.tape.lastTact
    · exact exec_tapeEar_outOfOrder hr hm hc hi ht ▸ goes_raise _ _
    · obtain ⟨t, level, hexec, -⟩ := exec_tapeEar_playing hinv hr hm hc hi (Nat.le_of_not_lt ht)
      exact hexec ▸ goes_complete _ _

theorem exec_tapeMic_goes (value : Bool) : Goes (exec (.tapeMic tact value) s) := by
  have hexec : exec (.tapeMic tact value) s = execTapeMic tact value s := rfl
  rw [hexec, execTapeMic, guardTape_ready hr]
  split_ifs
  · exact goes_complete _ _
  · exact goes_complete _ _
  · exact goes_raise _ _
  · exact goes_complete _ _

end Goes

section GoesDisk
variable (s : State) (image data : List Byte) (head track sector n : Nat)

theorem exec_dskOpen_goes : Goes (exec (.dskOpen image) s) := by
  cases he : openError image with
  | some e => exact ⟨_, exec_dskOpen_of_error he s⟩
  | none => exact ⟨_, exec_dskOpen_of_no_error he s⟩

/-- A request without an error of R404 finds a disk. -/
theorem exists_disk_of_diskError_none {disk : Option Disk} (h : diskError disk head track sector n = none) :
    ∃ d, disk = some d := by
  cases disk with
  | none => cases h
  | some d => exact ⟨d, rfl⟩

theorem exec_dskRead_goes : Goes (exec (.dskRead head track sector n) s) := by
  cases he : diskError s.disk head track sector n with
  | some e => exact ⟨_, exec_dskRead_of_error he⟩
  | none =>
    obtain ⟨d, hd⟩ := exists_disk_of_diskError_none head track sector n he
    exact ⟨_, exec_dskRead_of_disk hd (hd ▸ he)⟩

theorem exec_dskWrite_goes : Goes (exec (.dskWrite head track sector data) s) := by
  cases he : diskError s.disk head track sector data.length with
  | some e => exact ⟨_, exec_dskWrite_of_error he⟩
  | none =>
    obtain ⟨d, hd⟩ := exists_disk_of_diskError_none head track sector data.length he
    exact ⟨_, exec_dskWrite_of_disk hd (hd ▸ he)⟩

end GoesDisk

/-- Settles O15: the tape operations go on where the image is theirs, every other operation always does. -/
theorem noStopInGoodOrder : Obligations.NoStopInGoodOrder := by
  intro i s hs hready hfast
  cases i with
  | vidBuild g =>
    cases hg : g.valid with
    | true => exact exec_vidBuild_valid hg s ▸ goes_complete _ _
    | false => exact ⟨_, (vidBuildBuildsTable g s).1 hg⟩
  | tapeSetmode pc tact => exact exec_tapeSetmode_goes tact (hready rfl nofun) pc
  | tapeEnterload tact => exact exec_tapeEnterload (tact := tact) (hready rfl nofun) ▸ enterLoad_goes s tact
  | tapeLeaveload => exact exec_tapeLeaveload (hready rfl nofun) ▸ leaveLoad_goes s
  | tapeEntersave tact => exact exec_tapeEntersave (tact := tact) (hready rfl nofun) ▸ enterSave_goes s tact
  | tapeLeavesave => exact exec_tapeLeavesave (hready rfl nofun) ▸ leaveSave_goes s
  | tapeInitplay start => exact exec_tapeInitplay_goes start (hready rfl nofun)
  | tapeEar tact => exact exec_tapeEar_goes tact (hready rfl nofun) hs.tape
  | tapeMic tact value => exact exec_tapeMic_goes tact (hready rfl nofun) value
  | tapeFastload tact => exact exec_tapeFastload (tact := tact) (hfast tact rfl) (hready rfl nofun) ▸ fastLoad_goes s
  | dskOpen image => exact exec_dskOpen_goes s image
  | dskRead head track sector n => exact exec_dskRead_goes s head track sector n
  | dskWrite head track sector data => exact exec_dskWrite_goes s data head track sector
  | vidReset | vidRender | vidNewframe | vidContend | tapeReset | fdcReset | fdcWrite | fdcRead | fdcStatus | dskCreate
  | fdcSpecify | fdcSenseDriveStatus | fdcRecalibrate | fdcSenseInterruptStatus | fdcSeek | fdcReadId | fdcReadData
  | fdcFormatTrack | fdcWriteData | fdcNone => exact ⟨_, rfl⟩

/-! ### What stops (93 U7, R285) -/

theorem guardTape_stale {s : State} (h : ¬ TapeReady s) (k : Answer) : guardTape s k = .fault .tapeImageChanged :=
  if_pos (Bool.not_eq_false _ ▸ h)

/-- Settles O16: the guard of every tape operation but TAPE.RESET, and the facility's test before it. -/
theorem stopsByName : Obligations.StopsByName := by
  intro i s tact
  have habsent (hf : s.params.fastLoadEnabled = false) : exec (.tapeFastload tact) s = .refused .fastLoadAbsent :=
    if_neg (Bool.eq_false_iff.1 hf)
  refine ⟨habsent, fun hstale ho hreset hfast => ?_⟩
  cases i with
  | tapeReset => exact absurd rfl hreset
  | tapeSetmode | tapeEnterload | tapeLeaveload | tapeEntersave | tapeLeavesave | tapeInitplay | tapeEar | tapeMic =>
    exact guardTape_stale hstale _
  | tapeFastload tact => exact (if_pos (hfast tact rfl)).trans (guardTape_stale hstale _)
  | _ => cases ho

end Sys2Proof.Machine
end

section
/-! PROOF. The errors an operation reports (60_exceptions R420, R430) and the notices of the tape mode (44_tape_mode R270 to
R283), operation by operation. -/

namespace Sys2Proof.Machine

open Sys2Proof Sys2Proof.Spec

/-! ### The errors (R420) -/

/-- The operation that led from `s` to `t` reports exactly the error that R420 says it raises. -/
def Reports (i : Instr) (s t : State) : Prop := ∀ e, t.result = .error e ↔ raises i s = some e

section Reports
variable {i : Instr} {s t : State}

theorem Reports.raised {e : OpError} (ht : t.result = .error e) (hr : raises i s = some e) : Reports i s t := by
  intro e'
  rw [ht, hr]
  exact ⟨fun h => congrArg some (OpResult.error.inj h), fun h => congrArg OpResult.error (Option.some.inj h)⟩

theorem Reports.returned {r : OpResult} (ht : t.result = r) (hne : ∀ e, r ≠ .error e) (hr : raises i s = none) :
    Reports i s t := by
  intro e
  rw [ht, hr]
  exact ⟨fun h => absurd h (hne e), nofun⟩

theorem Reports.done (ht : t.result = .done) (hr : raises i s = none) : Reports i s t :=
  .returned ht (fun _ => OpResult.noConfusion) hr

theorem enterLoad_reports {tact : Nat}
    (hi : raises i s = if s.tape.mode = .passive ∧ s.tape.hasEmptyBlock = true then some .tapeEmptyBlock else none)
    (h : enterLoad tact s = .next t) : Reports i s t := by
  obtain ⟨hm, rfl⟩ | ⟨hm, he, rfl⟩ | ⟨-, himage, rfl⟩ | ⟨-, he, k, b, -, -, -, rfl⟩ := enterLoad_cases h
  · exact .done rfl (hi.trans (if_neg fun h => hm h.1))
  · exact .raised rfl (hi.trans (if_pos ⟨hm, he⟩))
  · have he : s.tape.hasEmptyBlock = false := by simp [TapeUnit.hasEmptyBlock, himage]
    exact .done rfl (hi.trans (if_neg fun h => Bool.eq_false_iff.1 he h.2))
  · exact .done rfl (hi.trans (if_neg fun h => Bool.eq_false_iff.1 he h.2))

theorem tapeSetmode_reports {pc : Addr} {tact : Nat} (h : exec (.tapeSetmode pc tact) s = .next t) :
    Reports (.tapeSetmode pc tact) s t := by
  have hraises : raises (.tapeSetmode pc tact) s =
      if s.tape.mode = .passive ∧ pc = s.params.loadHook ∧ s.params.fastLoadEnabled = false ∧ s.tape.hasEmptyBlock = true
      then some .tapeEmptyBlock else none := rfl
  obtain ⟨-, ⟨-, -, hf, h⟩ | ⟨-, hpc, hf, h⟩ | ⟨-, hpc, -, h⟩ | ⟨hm, -, h⟩ | ⟨hm, -, h⟩ | ⟨hm, rfl⟩⟩ :=
    execTapeSetmode_cases h
  · exact .done (fastLoad_done h) (hraises.trans (if_neg fun hr => by simp [hf] at hr))
  · refine enterLoad_reports (hraises.trans ?_) h
    simp only [hpc, hf, true_and]
  · exact .done (enterSave_done h) (hraises.trans (if_neg fun hr => hpc hr.2.1))
  · exact .done (leaveLoad_done h) (hraises.trans (if_neg fun hr => by simp [hm] at hr))
  · exact .done (leaveSave_done h) (hraises.trans (if_neg fun hr => by simp [hm] at hr))
  · refine .done rfl (hraises.trans (if_neg fun hr => ?_))
    obtain ⟨-, hpc, -⟩ | ⟨hm, -⟩ | ⟨hm, -⟩ := hm
    · exact hpc hr.2.1
    · simp [hm] at hr
    · simp [hm] at hr

theorem tapeInitplay_reports {start : Nat} (h : exec (.tapeInitplay start) s = .next t) :
    Reports (.tapeInitplay start) s t := by
  have hraises : raises (.tapeInitplay start) s =
      if s.tape.image.length ≤ s.tape.blockIndex then some .tapeNoBlock
      else if s.tape.hasEmptyBlock = true then some .tapeEmptyBlock else none := rfl
  obtain ⟨-, ⟨hk, rfl⟩ | ⟨hk, he, rfl⟩ | ⟨he, b, hb, -, rfl⟩⟩ := execTapeInitplay_cases h
  · exact .raised rfl (hraises.trans (if_pos hk))
  · exact .raised rfl (hraises.trans ((if_neg hk.not_ge).trans (if_pos he)))
  · obtain ⟨hk, -⟩ := List.getElem?_eq_some_iff.1 hb
    exact .done rfl (hraises.trans ((if_neg hk.not_ge).trans (if_neg (Bool.eq_false_iff.1 he))))

theorem tapeEar_reports {tact : Nat} (h : exec (.tapeEar tact) s = .next t) : Reports (.tapeEar tact) s t := by
  obtain ⟨-, ⟨hidle, rfl⟩ | ⟨hm, hc, hi, rfl⟩ | ⟨hm, hc, hi, ht, rfl⟩ | ⟨hm, hc, hi, ht, t', level, -, rfl⟩⟩ :=
    execTapeEar_cases h
  · exact .returned rfl (fun _ => OpResult.noConfusion) (if_pos hidle)
  · exact .raised rfl (by simp [raises, hm, hc, hi])
  · exact .raised rfl (by simp [raises, hm, hc, hi, ht])
  · exact .returned rfl (fun _ => OpResult.noConfusion) (by simp [raises, hm, hc, hi, ht])

theorem tapeMic_reports {tact : Nat} {value : Bool} (h : exec (.tapeMic tact value) s = .next t) :
    Reports (.tapeMic tact value) s t := by
  obtain ⟨-, ⟨hidle, rfl⟩ | ⟨hm, hv, ht, rfl⟩ | ⟨-, -, ht, v, es, -, rfl⟩⟩ := execTapeMic_cases h
  · exact .done rfl (if_neg fun hr => hidle.elim (· hr.1) fun hv => hr.2.1 hv)
  · exact .raised rfl (if_pos ⟨hm, hv, ht⟩)
  · exact .done rfl (if_neg fun hr => ht.not_gt hr.2.2)

theorem vidBuild_reports {g : Geometry} (h : exec (.vidBuild g) s = .next t) : Reports (.vidBuild g) s t := by
  cases hg : g.valid with
  | true =>
    rw [exec_vidBuild_valid hg] at h
    cases h
    exact .done rfl (if_pos hg)
  | false =>
    rw [(vidBuildBuildsTable g s).1 hg] at h
    cases h
    exact .raised rfl (if_neg (Bool.eq_false_iff.1 hg))

theorem dskOpen_reports {image : List Byte} (h : exec (.dskOpen image) s = .next t) : Reports (.dskOpen image) s t := by
  cases he : openError image with
  | some e => rw [exec_dskOpen_of_error he] at h; cases h; exact .raised rfl he
  | none => rw [exec_dskOpen_of_no_error he] at h; cases h; exact .done rfl he

theorem dskRead_reports {head track sector n : Nat} (h : exec (.dskRead head track sector n) s = .next t) :
    Reports (.dskRead head track sector n) s t := by
  cases he : diskError s.disk head track sector n with
  | some e => rw [exec_dskRead_of_error he] at h; cases h; exact .raised rfl he
  | none =>
    obtain ⟨d, hd⟩ := exists_disk_of_diskError_none head track sector n he
    rw [exec_dskRead_of_disk hd (hd ▸ he)] at h
    cases h
    exact .returned rfl (fun _ => OpResult.noConfusion) he

theorem dskWrite_reports {head track sector : Nat} {data : List Byte}
    (h : exec (.dskWrite head track sector data) s = .next t) : Reports (.dskWrite head track sector data) s t := by
  cases he : diskError s.disk head track sector data.length with
  | some e => rw [exec_dskWrite_of_error he] at h; cases h; exact .raised rfl he
  | none =>
    obtain ⟨d, hd⟩ := exists_disk_of_diskError_none head track sector data.length he
    rw [exec_dskWrite_of_disk hd (hd ▸ he)] at h
    cases h
    exact .done rfl he

end Reports

/-- Settles O13: the operations that raise, each by the cases in which it goes on; the others return no error. -/
theorem errorsByOperation : Obligations.ErrorsByOperation := by
  intro i s t e h
  refine (?_ : Reports i s t) e
  cases i with
  | vidBuild => exact vidBuild_reports h
  | tapeSetmode => exact tapeSetmode_reports h
  | tapeEnterload => exact enterLoad_reports rfl (guardTape_next h).2
  | tapeLeaveload => exact .done (leaveLoad_done (guardTape_next h).2) rfl
  | tapeEntersave => exact .done (enterSave_done (guardTape_next h).2) rfl
  | tapeLeavesave => exact .done (leaveSave_done (guardTape_next h).2) rfl
  | tapeInitplay => exact tapeInitplay_reports h
  | tapeEar => exact tapeEar_reports h
  | tapeMic => exact tapeMic_reports h
  | tapeFastload tact =>
    obtain ⟨-, -, h⟩ := execTapeFastload_cases (tact := tact) h
    exact .done (fastLoad_done h) rfl
  | dskOpen => exact dskOpen_reports h
  | dskRead => exact dskRead_reports h
  | dskWrite => exact dskWrite_reports h
  | vidContend | fdcRead | fdcStatus => cases h; exact .returned rfl (fun _ => OpResult.noConfusion) rfl
  | vidReset | vidRender | vidNewframe | tapeReset | fdcReset | fdcWrite | dskCreate | fdcSpecify
  | fdcSenseDriveStatus | fdcRecalibrate | fdcSenseInterruptStatus | fdcSeek | fdcReadId | fdcReadData | fdcFormatTrack
  | fdcWriteData | fdcNone => cases h; exact .done rfl rfl

/-! ### The tape mode and its notices (R270, R271, R283) -/

/-- The operation that led from `s` to `t` took the mode of R283's table, with the notice of the transition and no
other. -/
def ModeStep (i : Instr) (s t : State) : Prop :=
  t.tape.mode = modeAfter i s ∧
    ∃ es, t.events = s.events ++ es ∧
      es.filter isNotice = if i = .tapeReset then [] else noticeOf s.tape.mode t.tape.mode

theorem noticeOf_self (m : TapeMode) : noticeOf m m = [] := by cases m <;> rfl

theorem filter_noticeOf (m m' : TapeMode) : (noticeOf m m').filter isNotice = noticeOf m m' := by
  cases m <;> cases m' <;> rfl

section ModeStep
variable {i : Instr} {s t : State}

/-- The mode stays, and no event is a notice. -/
theorem ModeStep.stays {es : List Event} (hi : modeAfter i s = s.tape.mode) (ht : t.tape.mode = s.tape.mode)
    (hev : t.events = s.events ++ es) (hes : es.filter isNotice = []) : ModeStep i s t :=
  ⟨ht.trans hi.symm, es, hev, by rw [hes, ht, noticeOf_self, ite_self]⟩

/-- The mode stays, and no event is emitted. -/
theorem ModeStep.quiet (hi : modeAfter i s = s.tape.mode) (ht : t.tape.mode = s.tape.mode) (hev : t.events = s.events) :
    ModeStep i s t :=
  .stays (es := []) hi ht (hev.trans (List.append_nil _).symm) rfl

/-- The mode becomes another, with its notice. -/
theorem ModeStep.moves {m m' : TapeMode} (hm : s.tape.mode = m) (hi : modeAfter i s = m') (ht : t.tape.mode = m')
    (hev : t.events = s.events ++ noticeOf m m') (hreset : i ≠ .tapeReset) : ModeStep i s t :=
  ⟨ht.trans hi.symm, noticeOf m m', hev, by rw [if_neg hreset, filter_noticeOf, hm, ht]⟩

section Transitions
variable {tact : Nat} (hreset : i ≠ .tapeReset)
include hreset

theorem enterLoad_modeStep
    (hp : s.tape.mode = .passive → modeAfter i s = if s.tape.hasEmptyBlock = true then .passive else .load)
    (hother : s.tape.mode ≠ .passive → modeAfter i s = s.tape.mode) (h : enterLoad tact s = .next t) :
    ModeStep i s t := by
  obtain ⟨hm, rfl⟩ | ⟨hm, he, rfl⟩ | ⟨hm, himage, rfl⟩ | ⟨hm, he, k, b, -, -, -, rfl⟩ := enterLoad_cases h
  · exact .quiet (hother hm) rfl rfl
  · exact .quiet ((hp hm).trans ((if_pos he).trans hm.symm)) rfl rfl
  · have he : s.tape.hasEmptyBlock = false := by simp [TapeUnit.hasEmptyBlock, himage]
    exact .moves hm ((hp hm).trans (if_neg (Bool.eq_false_iff.1 he))) rfl rfl hreset
  · exact .moves hm ((hp hm).trans (if_neg (Bool.eq_false_iff.1 he))) rfl rfl hreset

theorem leaveLoad_modeStep (hl : s.tape.mode = .load → modeAfter i s = .passive)
    (hother : s.tape.mode ≠ .load → modeAfter i s = s.tape.mode) (h : leaveLoad s = .next t) : ModeStep i s t := by
  obtain ⟨hm, rfl⟩ | ⟨hm, rfl⟩ := leaveLoad_cases h
  · exact .moves hm (hl hm) rfl rfl hreset
  · exact .quiet (hother hm) rfl rfl

theorem enterSave_modeStep (hp : s.tape.mode = .passive → modeAfter i s = .save)
    (hother : s.tape.mode ≠ .passive → modeAfter i s = s.tape.mode) (h : enterSave tact s = .next t) :
    ModeStep i s t := by
  obtain ⟨hm, rfl⟩ | ⟨hm, rfl⟩ := enterSave_cases h
  · exact .moves hm (hp hm) rfl rfl hreset
  · exact .quiet (hother hm) rfl rfl

theorem leaveSave_modeStep (hv : s.tape.mode = .save → modeAfter i s = .passive)
    (hother : s.tape.mode ≠ .save → modeAfter i s = s.tape.mode) (h : leaveSave s = .next t) : ModeStep i s t := by
  obtain ⟨hm, rfl⟩ | ⟨hm, rfl⟩ := leaveSave_cases h
  · exact .moves hm (hv hm) rfl rfl hreset
  · exact .quiet (hother hm) rfl rfl

end Transitions

theorem fastLoad_modeStep (hi : modeAfter i s = s.tape.mode) (h : fastLoad s = .next t) : ModeStep i s t := by
  obtain ⟨-, rfl⟩ | ⟨b, cs, -, rfl⟩ := fastLoad_cases h
  · exact .quiet hi rfl rfl
  · exact .quiet hi rfl rfl

/-- TAPE.SETMODE: the row of R283's table of the mode it found (R274). -/
theorem tapeSetmode_modeStep {pc : Addr} {tact : Nat} (h : exec (.tapeSetmode pc tact) s = .next t) :
    ModeStep (.tapeSetmode pc tact) s t := by
  obtain ⟨-, ⟨hm, hpc, hf, h⟩ | ⟨hm, hpc, hf, h⟩ | ⟨hm, hload, hsave, h⟩ | ⟨hm, hc, h⟩ | ⟨hm, hc, h⟩ | ⟨hm, rfl⟩⟩ :=
    execTapeSetmode_cases h
  · exact fastLoad_modeStep (by simp [modeAfter, hm, hpc, hf]) h
  · refine enterLoad_modeStep nofun (fun _ => ?_) (absurd hm ·) h
    simp [modeAfter, hm, hpc, hf, TapeUnit.hasEmptyBlock]
  · exact enterSave_modeStep nofun (fun _ => by simp only [modeAfter, hm, if_neg hload, if_pos hsave]) (absurd hm ·) h
  · refine leaveLoad_modeStep nofun (fun _ => ?_) (absurd hm ·) h
    simp only [modeAfter, hm, Bool.or_eq_true, beq_iff_eq, if_pos hc]
  · exact leaveSave_modeStep nofun (fun _ => by simp only [modeAfter, hm, if_pos hc]) (absurd hm ·) h
  · refine .quiet ?_ rfl rfl
    obtain ⟨hm, hload, hsave⟩ | ⟨hm, hc, hpc⟩ | ⟨hm, hpc, ht⟩ := hm
    · simp only [modeAfter, hm, if_neg hload, if_neg hsave]
    · simp [modeAfter, hm, hc, hpc]
    · simp only [modeAfter, hm, if_neg (not_or_intro hpc ht.not_ge)]

/-- The events of the block assembler are blocks and names. -/
theorem step_events_noNotice (p : Params) (c : PulseClass) (v : SaveState) :
    (SaveState.step p c v).2.filter isNotice = [] := by
  unfold SaveState.step
  cases v.phase with
  | data =>
    simp only [SaveState.closeEvents]
    split_ifs <;> rfl
  | _ => rfl

/-- FDC.READ emits at most the data log (R314). -/
theorem readByteOf_events_noNotice (f : FdcState) : (readByteOf f).2.2.filter isNotice = [] := by
  simp only [readByteOf]
  split_ifs <;> rfl

/-- The operations of the disk store emit nothing (R394 to R400). -/
theorem exec_dsk_frame (hi : ownerOf i = .disk) (h : exec i s = .next t) : t.tape = s.tape ∧ t.events = s.events := by
  cases i with
  | dskCreate => cases h; exact ⟨rfl, rfl⟩
  | dskOpen image =>
    have h : execDskOpen image s = .next t := h
    unfold execDskOpen at h
    split at h <;> cases h <;> exact ⟨rfl, rfl⟩
  | dskRead head track sector n =>
    have h : execDskRead head track sector n s = .next t := h
    unfold execDskRead at h
    split at h <;> cases h <;> exact ⟨rfl, rfl⟩
  | dskWrite head track sector data =>
    have h : execDskWrite head track sector data s = .next t := h
    unfold execDskWrite at h
    split at h <;> cases h <;> exact ⟨rfl, rfl⟩
  | _ => cases hi

end ModeStep

/-- Settles O19: each transition in the mode it starts from, and the operations that leave the mode. -/
theorem tapeModeTransitions : Obligations.TapeModeTransitions := by
  intro i s t h
  refine (?_ : ModeStep i s t)
  cases i with
  | tapeReset => cases h; exact ⟨rfl, [], (List.append_nil _).symm, rfl⟩
  | tapeSetmode => exact tapeSetmode_modeStep h
  | tapeEnterload =>
    refine enterLoad_modeStep nofun (fun hm => ?_) (fun hm => ?_) (guardTape_next h).2
    · simp only [modeAfter, hm]; rfl
    · cases hmode : s.tape.mode <;> simp [modeAfter, hmode] at hm ⊢
  | tapeLeaveload =>
    refine leaveLoad_modeStep nofun (fun hm => ?_) (fun hm => ?_) (guardTape_next h).2
    · simp only [modeAfter, hm]
    · cases hmode : s.tape.mode <;> simp [modeAfter, hmode] at hm ⊢
  | tapeEntersave =>
    refine enterSave_modeStep nofun (fun hm => ?_) (fun hm => ?_) (guardTape_next h).2
    · simp only [modeAfter, hm]
    · cases hmode : s.tape.mode <;> simp [modeAfter, hmode] at hm ⊢
  | tapeLeavesave =>
    refine leaveSave_modeStep nofun (fun hm => ?_) (fun hm => ?_) (guardTape_next h).2
    · simp only [modeAfter, hm]
    · cases hmode : s.tape.mode <;> simp [modeAfter, hmode] at hm ⊢
  | tapeInitplay =>
    obtain ⟨-, ⟨-, rfl⟩ | ⟨-, -, rfl⟩ | ⟨-, b, -, -, rfl⟩⟩ := execTapeInitplay_cases h <;> exact .quiet rfl rfl rfl
  | tapeEar tact =>
    obtain ⟨-, ⟨-, rfl⟩ | ⟨-, -, -, rfl⟩ | ⟨-, -, -, -, rfl⟩ | ⟨-, -, hi, -, t', level, hwalk, rfl⟩⟩ :=
      execTapeEar_cases h
    · exact .quiet rfl rfl rfl
    · exact .quiet rfl rfl rfl
    · exact .quiet rfl rfl rfl
    · have hframe := earBlocks_frame (t := { s.tape with lastTact := tact }) rfl hi hwalk
      have hmode : t'.mode = s.tape.mode := by rw [hframe]
      exact .quiet rfl hmode rfl
  | tapeMic tact value =>
    obtain ⟨-, ⟨-, rfl⟩ | ⟨-, -, -, rfl⟩ | ⟨-, -, -, v, es, hv, rfl⟩⟩ := execTapeMic_cases h
    · exact .quiet rfl rfl rfl
    · exact .quiet rfl rfl rfl
    · have hes : (s.tape.save.transition s.params tact value).2 = es := congrArg Prod.snd hv
      exact .stays rfl rfl rfl (hes ▸ step_events_noNotice ..)
  | tapeFastload tact =>
    obtain ⟨-, -, h⟩ := execTapeFastload_cases (tact := tact) h
    exact fastLoad_modeStep rfl h
  | fdcRead => cases h; exact .stays rfl rfl rfl (readByteOf_events_noNotice _)
  | vidBuild g =>
    cases hg : g.valid with
    | true => rw [exec_vidBuild_valid hg] at h; cases h; exact .quiet rfl rfl rfl
    | false => rw [(vidBuildBuildsTable g s).1 hg] at h; cases h; exact .quiet rfl rfl rfl
  | dskCreate | dskOpen | dskRead | dskWrite =>
    obtain ⟨htape, hevents⟩ := exec_dsk_frame rfl h
    exact .quiet rfl (congrArg TapeUnit.mode htape) hevents
  | vidReset | vidRender | vidNewframe | vidContend | fdcReset | fdcWrite | fdcStatus
  | fdcSpecify | fdcSenseDriveStatus | fdcRecalibrate | fdcSenseInterruptStatus | fdcSeek | fdcReadId | fdcReadData
  | fdcFormatTrack | fdcWriteData | fdcNone => cases h; exact .quiet rfl rfl rfl

end Sys2Proof.Machine
end
